-- ==== Sys2Proof/Word.lean ====
section
/-! DEFINITION. The words of HBC and the widths the spec gives them (spec/00_scope.md R9, R10). -/

namespace Sys2Proof

/-- A register word: 32 bits (R9). -/
abbrev Word := BitVec 32

/-- A byte of the IN or OUT port (R9: port width 8). -/
abbrev Byte := BitVec 8

/-- A symbol field: 9 bits, 0..511 (R9). -/
abbrev Symbol := BitVec 9

/-- A tree-RAM slot index: 10 bits (10_state R40). -/
abbrev Slot := BitVec 10

/-- A register offset: 14 bits (R9). -/
abbrev Offset := BitVec 14

/-- The pseudo-EOF symbol `EOF_SYM` = 257 (R9). -/
abbrev eofSymbol : Symbol := 257#9

/-- The longest bit field and the longest code, `MAX_LEN` = 32 (R9). -/
abbrev maxLen : Nat := 32

/-- The number of code-table entries: one per 9-bit symbol (R9). -/
abbrev codeEntries : Nat := 512

end Sys2Proof
end

