-- ==== Sys2Proof/Config.lean ====
section
/-! DEFINITION. What one implementation fixes (NODE_CAP, HBC_BASE) and the free values: what the spec calls "any value". -/

namespace Sys2Proof

/-- The parameter `NODE_CAP` with the bounds the spec gives it (00_scope R8): 513 ≤ NODE_CAP ≤ 1024. -/
structure NodeCap where
  val : Nat
  lower : 513 ≤ val
  upper : val ≤ 1024
deriving DecidableEq, Repr

/-- The spec's default NODE_CAP, 1024 (00_scope R8). -/
def NodeCap.standard : NodeCap := ⟨1024, by decide, by decide⟩

/-- The parameters of one implementation: NODE_CAP (00_scope R8, 92 D14) and HBC_BASE (20_memory R57, 92 D4).
No step changes them. DESIGN CHOICE, entry 3: they stand in State so that a statement about every state
is a statement about every legal implementation. -/
structure Params where
  nodeCap : NodeCap
  base : Nat
deriving DecidableEq, Repr

/-- Where the host sees offset `off` (20_memory R57): the window's base is the platform's choice. -/
def Params.address (p : Params) (off : Offset) : Nat := p.base + off.toNat

/-- A node of the tree RAM (10_state R40): `Leaf(SYM)` or `Internal(LEFT, RIGHT)`. -/
inductive Node where
  | leaf (sym : Symbol)
  | internal (left right : Slot)
deriving DecidableEq, Repr, Inhabited

/-- An entry of the code table (10_state R42): VALID, LEN, PAT. -/
structure CodeEntry where
  valid : Bool
  len : BitVec 6
  pat : Word
deriving DecidableEq, Repr, Inhabited

namespace Config

/-! The free values. Each is an opaque constant applied to the draw counter of State, so no proof can see
what it is and two draws are unrelated (entry 5). -/

/-- What the k-th free host read returns (10_state R41, R43, R46; entry 6). -/
opaque freeRead : Nat → Word

/-- RESULT after the fault entry that drew k (60_exceptions R168). -/
opaque havocResult : Nat → Word

/-- STATUS.EOS after a fault (60_exceptions R168). -/
opaque havocEos : Nat → Bool

/-- WBUF after a fault (60_exceptions R168). -/
opaque havocWbuf : Nat → Byte

/-- WCNT after a fault: any of 0..7 (60_exceptions R168). -/
opaque havocWcnt : Nat → Fin 8

/-- RBUF after a fault (60_exceptions R168). -/
opaque havocRbuf : Nat → Byte

/-- RCNT after a fault: any of 0..8 (60_exceptions R168). -/
opaque havocRcnt : Nat → Fin 9

/-- ROOT_IDX after a fault (60_exceptions R168). -/
opaque havocRootIdx : Nat → Slot

/-- ROOT_VALID after a fault (60_exceptions R168). -/
opaque havocRootValid : Nat → Bool

/-- NCNT after a fault; fault entry takes it modulo NODE_CAP + 1, so it is any of 0..NODE_CAP (60_exceptions R168). -/
opaque havocNcnt : Nat → Nat

/-- TREE[i] after the fault entry that drew k (60_exceptions R168). -/
opaque havocNode : Nat → Nat → Node

/-- CODE[s] after the fault entry that drew k, all three fields (60_exceptions R168). -/
opaque havocCode : Nat → Nat → CodeEntry

/-- How many port transactions of an abandoned command had been performed at the reset that drew k
(70_reset R192; entry 8). -/
opaque abandonedLength : Nat → Nat

/-- What slot i, never written since reset, holds for the abandoned command of the reset that drew k
(70_reset R192, 10_state R41 "The chip would read some node"; entry 8). -/
opaque garbageNode : Nat → Nat → Node

end Config

end Sys2Proof
end

