-- ==== Sys2Proof/Syntax.lean ====
section
/-! DEFINITION. The commands of HBC-1: one constructor per row of spec/opcode_table.json (30_encoding R72). -/

namespace Sys2Proof

/-- A command of HBC-1. `len` is LEN, CMD[13:8], unsigned and unscaled (30_encoding R73); ARG is a register the
command reads when it runs (30_encoding R74), not part of the word. -/
inductive Instr where
  | nop
  | writeBits (len : Nat)
  | closeWriter
  | readBits (len : Nat)
  | readerAlign
  | genCodes
  | writeHeader
  | readHeader
  | encodeSymbol
  | encodeStream
  | decodeSymbol
  | decodeStream
  | reset
deriving DecidableEq, Repr

end Sys2Proof
end

