-- ==== Sys2Proof/WellFormed.lean ====
section
/-! DEFINITION. Which terms of Instr a command word can stand for. -/

namespace Sys2Proof

/-- LEN is a 6-bit field (30_encoding R71, R73): 0..63. A LEN of 0 or above 32 is encodable and raises
BAD_LENGTH when it runs, so it is well formed. -/
def lenFits (len : Nat) : Bool := decide (len < 64)

/-- Well-formedness of a command: its LEN fits the field. -/
def Instr.wellFormed : Instr → Bool
  | .nop => true
  | .writeBits len => lenFits len
  | .closeWriter => true
  | .readBits len => lenFits len
  | .readerAlign => true
  | .genCodes => true
  | .writeHeader => true
  | .readHeader => true
  | .encodeSymbol => true
  | .encodeStream => true
  | .decodeSymbol => true
  | .decodeStream => true
  | .reset => true

end Sys2Proof
end

