-- ==== Sys2Proof/Decode.lean ====
section
/-! DEFINITION. The command word's fields, the decoder (the check of 30_encoding R75 and the map of R72) and the encoder. -/

namespace Sys2Proof

/-- Why a word is no command: the four checks of 30_encoding R75, in its order. -/
inductive DecodeReject where
  | reservedOp
  | reservedLowBits
  | reservedHighBits
  | lenOnOtherOp
deriving DecidableEq, Repr

/-- OP, CMD[3:0] (30_encoding R71). -/
def opField (w : Word) : BitVec 4 := w.extractLsb' 0 4

/-- The reserved bits CMD[7:4] (30_encoding R71). -/
def lowReserved (w : Word) : BitVec 4 := w.extractLsb' 4 4

/-- LEN, CMD[13:8] (30_encoding R71). -/
def lenField (w : Word) : BitVec 6 := w.extractLsb' 8 6

/-- The reserved bits CMD[31:14] (30_encoding R71). -/
def highReserved (w : Word) : BitVec 18 := w.extractLsb' 14 18

/-- The operation an OP value names, with LEN `len` (30_encoding R72). -/
def opTable (op : BitVec 4) (len : Nat) : Option Instr :=
  match op.toNat with
  | 0x0 => some .nop
  | 0x1 => some (.writeBits len)
  | 0x2 => some .closeWriter
  | 0x3 => some (.readBits len)
  | 0x4 => some .readerAlign
  | 0x5 => some .genCodes
  | 0x6 => some .writeHeader
  | 0x7 => some .readHeader
  | 0x8 => some .encodeSymbol
  | 0x9 => some .encodeStream
  | 0xA => some .decodeSymbol
  | 0xB => some .decodeStream
  | 0xF => some .reset
  | _ => none

/-- OP values that take a LEN: WRITE_BITS and READ_BITS (30_encoding R75, check 4). -/
def opTakesLen (op : BitVec 4) : Bool := op == 0x1#4 || op == 0x3#4

/-- The decoder: total on 32-bit words, rejecting by name. Every rejected word is one that the engine's
check answers with BAD_COMMAND (30_encoding R75). -/
def decode (w : Word) : Except DecodeReject Instr :=
  match opTable (opField w) (lenField w).toNat with
  | none => .error .reservedOp
  | some i =>
    if lowReserved w ≠ 0#4 then .error .reservedLowBits
    else if highReserved w ≠ 0#18 then .error .reservedHighBits
    else if lenField w ≠ 0#6 ∧ opTakesLen (opField w) = false then .error .lenOnOtherOp
    else .ok i

/-- The word OP with LEN (30_encoding R72: `OP | (n << 8)`). -/
def commandWord (op : Word) (len : Nat) : Word := op ||| (BitVec.ofNat 32 len <<< 8)

/-- The encoder: the command word of a well-formed command (30_encoding R72). -/
def encode : Instr → Word
  | .nop => 0x00000000#32
  | .writeBits len => commandWord 0x00000001#32 len
  | .closeWriter => 0x00000002#32
  | .readBits len => commandWord 0x00000003#32 len
  | .readerAlign => 0x00000004#32
  | .genCodes => 0x00000005#32
  | .writeHeader => 0x00000006#32
  | .readHeader => 0x00000007#32
  | .encodeSymbol => 0x00000008#32
  | .encodeStream => 0x00000009#32
  | .decodeSymbol => 0x0000000A#32
  | .decodeStream => 0x0000000B#32
  | .reset => 0x0000000F#32

/-- The command the decoder reads from the low `nbits` bits of `w`, the other bits of the word 0. -/
def decodeTableWord (nbits w : Nat) : Option Instr :=
  match decode (BitVec.ofNat 32 (w % 2 ^ nbits)) with
  | .ok i => some i
  | .error _ => none

end Sys2Proof
end

