-- ==== Sys2Proof/Machine/State.lean ====
section
/-! DEFINITION. The state of the block and of its ports (10_state R20 to R49, 20_memory R52, R53), the faults and refusals
of the model (60_exceptions R182), and the state right after reset (10_state R48). -/

namespace Sys2Proof.Machine

/-- The error kinds of STATUS.ERR, codes 1 to 10 (60_exceptions R163). Codes 11 to 15 are never raised, so they
have no constructor (entry 12). -/
inductive ErrorKind where
  | sourceUnreadable
  | sinkUnwritable
  | truncatedStream
  | badCommand
  | badLength
  | noCode
  | treeInvalid
  | codeTooLong
  | treeOverflow
  | badSymbol
deriving DecidableEq, Repr

/-- One item the IN source offers (20_memory R52). -/
inductive Token where
  | byte (b : Byte)
  | endOfStream
  | error
deriving DecidableEq, Repr

/-- The OUT sink's answer to an offered byte (20_memory R53). -/
inductive Answer where
  | accept
  | reject
deriving DecidableEq, Repr

/-- One port transaction: a token consumed, or a byte offered with the answer it got (20_memory R52, R53). -/
inductive PortOp where
  | took (t : Token)
  | sent (b : Byte) (a : Answer)
deriving DecidableEq, Repr

/-- A host access (10_state R23): its width in bits, its byte offset, and the value a write carries. -/
inductive Access where
  | read (width : Nat) (offset : Offset)
  | write (width : Nat) (offset : Offset) (value : Word)
deriving DecidableEq, Repr

/-- One thing the model's agents do next (00_scope R7, 70_reset R190). The order of the agenda is the interleaving
(20_memory R59; entry 1). -/
inductive Event where
  /-- the host makes a register access -/
  | host (a : Access)
  /-- the platform asserts hardware reset -/
  | hardwareReset
  /-- the IN source offers a token -/
  | offer (t : Token)
  /-- the OUT sink makes up its answer to its next offer -/
  | answer (a : Answer)
  /-- the engine takes its turn -/
  | engine
deriving DecidableEq, Repr

/-- A RAM of the block as sparse data: (index, contents) pairs. Its canonical form is `Memory.wf`. -/
abbrev Memory (α : Type) := List (Nat × α)

/-- The writer's buffer, as WSTATE shows it (10_state R35). -/
structure Writer where
  buf : Byte
  cnt : Fin 8
deriving DecidableEq, Repr

/-- The reader's buffer, as RSTATE shows it (10_state R36). -/
structure Reader where
  buf : Byte
  cnt : Fin 9
deriving DecidableEq, Repr

/-- The ROOT register (10_state R37). -/
structure Root where
  idx : Slot
  valid : Bool
deriving DecidableEq, Repr

/-- The two ports: tokens offered and not yet consumed, answers the sink will give, and every transaction so far
in order. The OUT stream and the consumed tokens are read off `log`. -/
structure Ports where
  offered : List Token
  answers : List Answer
  log : List PortOp
deriving DecidableEq, Repr

/-- Everything the spec gives the machine, and beside it the model's own `agenda`, `reads`, `sawIdle` and `draws`. -/
structure State where
  /-- NODE_CAP and HBC_BASE -/
  params : Params
  /-- CMD (R27) -/
  cmd : Word
  /-- ARG (R28) -/
  arg : Word
  /-- RESULT (R29) -/
  result : Word
  /-- STATUS.BUSY, the pending flag (R31, R45) -/
  busy : Bool
  /-- STATUS.EOS (R32) -/
  eos : Bool
  /-- STATUS.OVERRUN (R33) -/
  overrun : Bool
  /-- STATUS.ERR (R34), none = 0 -/
  err : Option ErrorKind
  /-- STATUS.ERRINFO (R34) -/
  errInfo : BitVec 10
  /-- WBUF and WCNT (R35) -/
  writer : Writer
  /-- RBUF and RCNT (R36) -/
  reader : Reader
  /-- ROOT (R37) -/
  root : Root
  /-- NCNT (R38) -/
  ncnt : BitVec 11
  /-- TREE (R40); a slot is listed iff WRITTEN (R41) -/
  tree : Memory Node
  /-- CODE (R42); an entry is listed iff its LEN and PAT were written since reset -/
  code : Memory CodeEntry
  /-- the IN and OUT ports (20_memory R52, R53) -/
  ports : Ports
  /-- the model's own: the inputs still to come, in order (entry 1) -/
  agenda : List Event
  /-- the model's own: the values the host's reads returned, in order (entry 11) -/
  reads : List Word
  /-- the model's own: the host has read STATUS with BUSY = 0 since its last write to CMD (70_reset R204; entry 14) -/
  sawIdle : Bool
  /-- the model's own: how many free values have been drawn (entry 5) -/
  draws : Nat
deriving DecidableEq, Repr

/-- The stops of the machine. -/
inductive Fault where
  /-- The model fault UNINIT(i) (10_state R41, 60_exceptions R182): the engine read tree slot i, never written since
  reset. Raised by `node`, so by GEN_CODES, WRITE_HEADER, DECODE_SYMBOL and DECODE_STREAM. Safe: the chip goes on
  with contents the spec leaves unspecified. -/
  | uninit (slot : Slot)
deriving DecidableEq, Repr

/-- What the model refuses. -/
inductive Refusal where
  /-- An instruction with no meaning yet. Raised by no arm of `exec`. Safe. -/
  | notModelled (mnemonic : String)
  /-- A host access that is not a 32-bit access at a multiple of 4 (10_state R23, 60_exceptions R182). Raised by
  `hostAccess`. Safe: the spec gives such an access no meaning. -/
  | badAccess (width : Nat) (offset : Offset)
deriving DecidableEq, Repr

/-- The state right after reset (10_state R48), with the spec's default NODE_CAP and nothing yet to come
(entries 2, 3). -/
def State.reset : State where
  params := { nodeCap := NodeCap.standard, base := 0 }
  cmd := 0#32
  arg := 0#32
  result := 0#32
  busy := false
  eos := false
  overrun := false
  err := none
  errInfo := 0#10
  writer := { buf := 0#8, cnt := 0 }
  reader := { buf := 0#8, cnt := 0 }
  root := { idx := 0#10, valid := false }
  ncnt := 0#11
  tree := []
  code := []
  ports := { offered := [], answers := [], log := [] }
  agenda := []
  reads := []
  sawIdle := false
  draws := 0

end Sys2Proof.Machine
end

