-- ==== Sys2Proof/Machine/Operands.lean ====
section
/-! DEFINITION. The operand forms of the commands (30_encoding R73, R74), the data words of the RAMs (R77, R78), the words
of the buffer registers (10_state R35 to R39), and the bit-field helpers they use. -/

namespace Sys2Proof.Machine

/-- ENCODE_SYMBOL's operand: ARG[8:0]; ARG[31:9] is ignored (30_encoding R74). -/
def symbolOperand (arg : Word) : Symbol := arg.extractLsb' 0 9

/-- WRITE_BITS's operand: the whole of ARG, of which only bits [LEN-1:0] are written (30_encoding R74). -/
def valueOperand (arg : Word) : Word := arg

/-- A LEN that WRITE_BITS and READ_BITS accept (30_encoding R73): 1 ≤ LEN ≤ 32. -/
def lenLegal (n : Nat) : Bool := decide (1 ≤ n) && decide (n ≤ maxLen)

/-- `zext_9` of a raw byte: the symbol of that byte (43_stream R138). -/
def byteSymbol (b : Byte) : Symbol := b.setWidth 9

/-- `s[7:0]`: the raw byte of a symbol (43_stream R140). -/
def symbolByte (s : Symbol) : Byte := s.extractLsb' 0 8

/-- Bit k of a byte set to b (`WBUF[k] <- b`, 40_bitstream R95). -/
def setByteBit (w : Byte) (k : Nat) (b : Bool) : Byte :=
  (w &&& ~~~(1#8 <<< k)) ||| ((BitVec.ofBool b).setWidth 8 <<< k)

/-- What a host write of word w stores in a tree slot (10_state R40, 30_encoding R77): all other bits are discarded. -/
def nodeOfWord (w : Word) : Node :=
  if w.getLsbD 31 then .leaf (w.extractLsb' 0 9) else .internal (w.extractLsb' 16 10) (w.extractLsb' 0 10)

/-- The canonical word of a stored node, as a host read returns it (10_state R40, 30_encoding R77). -/
def nodeWord : Node → Word
  | .leaf sym => 1#1 ++ 0#22 ++ sym
  | .internal left right => 0#6 ++ left ++ 0#6 ++ right

/-- The CLEN word: VALID at bit 31, LEN in bits 5:0 (30_encoding R78). -/
def clenWord (valid : Bool) (len : BitVec 6) : Word := BitVec.ofBool valid ++ 0#25 ++ len

/-- The WSTATE word (10_state R35): WBUF in bits 7:0, WCNT in bits 10:8. -/
def wstateWord (w : Writer) : Word := 0#21 ++ BitVec.ofNat 3 w.cnt.val ++ w.buf

/-- The RSTATE word (10_state R36): RBUF in bits 7:0, RCNT in bits 11:8. -/
def rstateWord (r : Reader) : Word := 0#20 ++ BitVec.ofNat 4 r.cnt.val ++ r.buf

/-- The ROOT word (10_state R37): ROOT_IDX in bits 9:0, ROOT_VALID at bit 31. -/
def rootWord (r : Root) : Word := BitVec.ofBool r.valid ++ 0#21 ++ r.idx

/-- What a host write of word w stores in ROOT (10_state R37): both fields; the reserved bits are discarded. -/
def rootOfWord (w : Word) : Root := { idx := w.extractLsb' 0 10, valid := w.getLsbD 31 }

/-- The NCNT word (10_state R38). -/
def ncntWord (n : BitVec 11) : Word := n.setWidth 32

/-- The PARAM word (10_state R39): zext_32(NODE_CAP). -/
def paramWord (p : Params) : Word := BitVec.ofNat 32 p.nodeCap.val

/-- IDENT (10_state R26), a constant. -/
def identWord : Word := 0x48554631#32

end Sys2Proof.Machine
end

