-- ==== Sys2Proof/Machine/Flags.lean ====
section
/-! DEFINITION. STATUS (10_state R30 to R34): the error codes (60_exceptions R163), the STATUS word, and the rule of EOS. -/

namespace Sys2Proof.Machine

/-- The code of an error (60_exceptions R163). -/
def ErrorKind.code : ErrorKind → BitVec 4
  | .sourceUnreadable => 1#4
  | .sinkUnwritable => 2#4
  | .truncatedStream => 3#4
  | .badCommand => 4#4
  | .badLength => 5#4
  | .noCode => 6#4
  | .treeInvalid => 7#4
  | .codeTooLong => 8#4
  | .treeOverflow => 9#4
  | .badSymbol => 10#4

/-- STATUS.ERR: 0 when no fault was recorded since reset (60_exceptions R163). -/
def errField : Option ErrorKind → BitVec 4
  | none => 0#4
  | some e => e.code

/-- The STATUS word (10_state R30): BUSY 0, EOS 1, OVERRUN 2, ERR 11:8, ERRINFO 25:16, the rest 0. -/
def statusWord (s : State) : Word :=
  0#6 ++ s.errInfo ++ 0#4 ++ errField s.err ++ 0#5 ++ BitVec.ofBool s.overrun ++ BitVec.ofBool s.eos ++ BitVec.ofBool s.busy

/-- EOS after a decoded symbol (10_state R32, 43_stream R139): 1 iff the walk ended at pseudo-EOF. -/
def eosOf (sym : Symbol) : Bool := sym == eofSymbol

end Sys2Proof.Machine
end

