-- ==== Sys2Proof/Machine/Ops.lean ====
section
/-! DEFINITION. The shared operations: RAM read and write, one named update per register, the result of a piece of pseudocode,
the port primitives (20_memory R52, R53), the engine's node read (10_state R41), fault entry (60_exceptions R165) and the
return from it, reset (70_reset R191). -/

namespace Sys2Proof.Machine

/-! ### RAM -/

/-- Contents of index a; none = nothing written there since reset. -/
def Memory.read {α : Type} : Memory α → Nat → Option α
  | [], _ => none
  | (b, w) :: m, a => if a = b then some w else Memory.read m a

/-- Writing index a keeps the list sorted, with one pair per index. -/
def Memory.write {α : Type} : Memory α → Nat → α → Memory α
  | [], a, v => [(a, v)]
  | (b, w) :: m, a, v =>
    if a < b then (a, v) :: (b, w) :: m
    else if a = b then (a, v) :: m
    else (b, w) :: Memory.write m a v

/-- A RAM of n indices, all of them holding `f`. -/
def Memory.tabulate {α : Type} (n : Nat) (f : Nat → α) : Memory α := (List.range n).map fun i => (i, f i)

/-- The canonical form of a RAM of n indices: indices strictly rising, each below n. An unlisted index reads as
"nothing written", which no pair can say. -/
abbrev Memory.wf {α : Type} (n : Nat) (m : Memory α) : Prop :=
  m.Pairwise (fun c d => c.1 < d.1) ∧ ∀ c ∈ m, c.1 < n

/-! ### One update per register -/

/-- `BUSY <- b`. -/
def State.setBusy (s : State) (b : Bool) : State := { s with busy := b }

/-- `CMD <- w`. -/
def State.setCmd (s : State) (w : Word) : State := { s with cmd := w }

/-- `ARG <- w`. -/
def State.setArg (s : State) (w : Word) : State := { s with arg := w }

/-- `RESULT <- w`. -/
def State.setResult (s : State) (w : Word) : State := { s with result := w }

/-- `EOS <- b`. -/
def State.setEos (s : State) (b : Bool) : State := { s with eos := b }

/-- `OVERRUN <- 1` (10_state R33: it is never cleared but by reset). -/
def State.setOverrun (s : State) : State := { s with overrun := true }

/-- WBUF and WCNT. -/
def State.setWriter (s : State) (w : Writer) : State := { s with writer := w }

/-- RBUF and RCNT. -/
def State.setReader (s : State) (r : Reader) : State := { s with reader := r }

/-- ROOT_IDX and ROOT_VALID. -/
def State.setRoot (s : State) (r : Root) : State := { s with root := r }

/-- `NCNT <- n`. -/
def State.setNcnt (s : State) (n : BitVec 11) : State := { s with ncnt := n }

/-- The tree RAM. -/
def State.setTree (s : State) (m : Memory Node) : State := { s with tree := m }

/-- The code-table RAM. -/
def State.setCode (s : State) (m : Memory CodeEntry) : State := { s with code := m }

/-- The ports. -/
def State.setPorts (s : State) (p : Ports) : State := { s with ports := p }

/-- The inputs still to come. -/
def State.setAgenda (s : State) (l : List Event) : State := { s with agenda := l }

/-- Whether the host has seen its last command's end (70_reset R204; entry 14). -/
def State.setSawIdle (s : State) (b : Bool) : State := { s with sawIdle := b }

/-- NODE_CAP as a number. -/
def State.cap (s : State) : Nat := s.params.nodeCap.val

/-! ### How a piece of pseudocode ends (44_control R157) -/

/-- The end of a piece of a command's pseudocode: it goes on with a value, it raises an error, it is held because a
port offers nothing, or it meets the model fault UNINIT. The state is the one reached, with every port transaction
performed so far. -/
inductive Res (α : Type) where
  | ok (a : α) (s : State)
  | raise (e : ErrorKind) (info : BitVec 10) (s : State)
  | held (s : State)
  | uninit (i : Slot) (s : State)
deriving DecidableEq, Repr

/-- Sequencing (00_scope R13: top to bottom; a raise ends the block at once). -/
def Res.bind {α β : Type} (r : Res α) (f : α → State → Res β) : Res β :=
  match r with
  | .ok a s => f a s
  | .raise e info s => .raise e info s
  | .held s => .held s
  | .uninit i s => .uninit i s

/-- The state a piece of pseudocode reached, however it ended. -/
def Res.state {α : Type} : Res α → State
  | .ok _ s => s
  | .raise _ _ s => s
  | .held s => s
  | .uninit _ s => s

/-! ### Ports -/

/-- `InToken()` (20_memory R52): the next token, consumed once; held while none is offered. -/
def inToken (s : State) : Res Token :=
  match s.ports.offered with
  | [] => .held s
  | t :: rest => .ok t (s.setPorts { s.ports with offered := rest, log := s.ports.log ++ [.took t] })

/-- `OutByte(b)` (20_memory R53): offer b; held until the sink answers; Reject raises SINK_UNWRITABLE. -/
def outByte (b : Byte) (s : State) : Res Unit :=
  match s.ports.answers with
  | [] => .held s
  | .accept :: rest => .ok () (s.setPorts { s.ports with answers := rest, log := s.ports.log ++ [.sent b .accept] })
  | .reject :: rest =>
    .raise .sinkUnwritable 0#10 (s.setPorts { s.ports with answers := rest, log := s.ports.log ++ [.sent b .reject] })

/-- The byte a transaction put on the OUT stream, if any (20_memory R53). -/
def PortOp.accepted : PortOp → Option Byte
  | .sent b .accept => some b
  | .sent _ .reject => none
  | .took _ => none

/-- The token a transaction consumed, if any (20_memory R52). -/
def PortOp.token : PortOp → Option Token
  | .took t => some t
  | .sent _ _ => none

/-- The sink's answer a transaction used, if any (20_memory R53). -/
def PortOp.answered : PortOp → Option Answer
  | .sent _ a => some a
  | .took _ => none

/-- The OUT stream: the accepted bytes, in order (20_memory R53). -/
def State.outStream (s : State) : List Byte := s.ports.log.filterMap PortOp.accepted

/-- The tokens consumed from IN, in order (70_reset R204). -/
def State.consumed (s : State) : List Token := s.ports.log.filterMap PortOp.token

/-! ### The engine's RAM accesses -/

/-- `Node(i)` (10_state R41): the stored node; the model fault UNINIT(i) when slot i was never written. -/
def node (i : Slot) (s : State) : Res Node :=
  match s.tree.read i.toNat with
  | some n => .ok n s
  | none => .uninit i s

/-- `TREE[i] <- n; WRITTEN[i] <- 1` (10_state R41). -/
def State.writeTree (s : State) (i : Nat) (n : Node) : State := s.setTree (s.tree.write i n)

/-- `CODE[sym] <- e` (10_state R42). -/
def State.writeCode (s : State) (sym : Symbol) (e : CodeEntry) : State := s.setCode (s.code.write sym.toNat e)

/-- `for s = 0 to 511: CODE[s].VALID <- 0`: LEN and PAT keep their old contents (41_codetable R111). -/
def clearValid (m : Memory CodeEntry) : Memory CodeEntry := m.map fun c => (c.1, { c.2 with valid := false })

/-- The entry an engine read of CODE[sym] sees when VALID = 1, else none (10_state R42, R43). -/
def State.validCode (s : State) (sym : Symbol) : Option CodeEntry :=
  match s.code.read sym.toNat with
  | some e => if e.valid then some e else none
  | none => none

/-! ### Fault entry and reset -/

/-- `FaultEntry(E, info)` (60_exceptions R165, R168): ERR, ERRINFO, BUSY; every register and RAM a command can change takes
a free value within its range; CMD, ARG, OVERRUN and the performed port transactions stand (R166, R169). -/
def faultEntry (e : ErrorKind) (info : BitVec 10) (s : State) : State :=
  let k := s.draws
  { s with
    err := some e
    errInfo := info
    busy := false
    result := Config.havocResult k
    eos := Config.havocEos k
    writer := { buf := Config.havocWbuf k, cnt := Config.havocWcnt k }
    reader := { buf := Config.havocRbuf k, cnt := Config.havocRcnt k }
    root := { idx := Config.havocRootIdx k, valid := Config.havocRootValid k }
    ncnt := BitVec.ofNat 11 (Config.havocNcnt k % (s.cap + 1))
    tree := Memory.tabulate s.cap (Config.havocNode k)
    code := Memory.tabulate codeEntries (Config.havocCode k)
    draws := k + 1 }

/-- Every state element of the block at its reset value (10_state R48, 70_reset R191). The ports, the host's side and the
parameters are not block state and stay. It is also the only way back from a fault (60_exceptions R172). -/
def resetBlock (s : State) : State :=
  { State.reset with
    params := s.params
    ports := s.ports
    agenda := s.agenda
    reads := s.reads
    sawIdle := s.sawIdle
    draws := s.draws }

/-- How an engine step ends (44_control R157): success clears BUSY; a raise is fault entry; a held engine has taken no
step, so nothing has happened and BUSY stays 1 (20_memory R52; entry 4); UNINIT ends the run (60_exceptions R182). -/
def complete (body : State → Res Unit) (s : State) : Host.Outcome State Fault Refusal :=
  match body s with
  | .ok _ t => .next (t.setBusy false)
  | .raise e info t => .next (faultEntry e info t)
  | .held _ => .next s
  | .uninit i _ => .fault (.uninit i)

end Sys2Proof.Machine
end

