-- ==== Sys2Proof/Machine/BitStream.lean ====
section
/-! DEFINITION. The bit-level I/O buffer (spec/40_bitstream.md): the writer and reader primitives and their four commands. -/

namespace Sys2Proof.Machine

/-- `WriteBit(b)` (R95): the bit goes to WBUF[7 - WCNT]; the eighth bit emits the byte and empties the buffer. -/
def writeBit (b : Bool) (s : State) : Res Unit :=
  let w := setByteBit s.writer.buf (7 - s.writer.cnt.val) b
  if s.writer.cnt = 7 then
    (outByte w s).bind fun _ s => .ok () (s.setWriter { buf := 0#8, cnt := 0 })
  else .ok () (s.setWriter { buf := w, cnt := s.writer.cnt + 1 })

/-- `WriteBits(n, v)` (R96): v[n-1] first, v[0] last. -/
def writeBits : Nat → Word → State → Res Unit
  | 0, _, s => .ok () s
  | n + 1, v, s => (writeBit (v.getLsbD n) s).bind fun _ s => writeBits n v s

/-- `CloseWriter()` (R97): a pending partial byte is emitted; with WCNT = 0 nothing is. -/
def closeWriter (s : State) : Res Unit :=
  if s.writer.cnt = 0 then .ok () s
  else (outByte s.writer.buf s).bind fun _ s => .ok () (s.setWriter { buf := 0#8, cnt := 0 })

/-- The first part of `ReadBit()` (R98): a token is taken only when no unread bit is left. -/
def refill (s : State) : Res Unit :=
  if s.reader.cnt = 0 then
    (inToken s).bind fun t s =>
      match t with
      | .byte b => .ok () (s.setReader { buf := b, cnt := 8 })
      | .endOfStream => .raise .truncatedStream 0#10 s
      | .error => .raise .sourceUnreadable 0#10 s
  else .ok () s

/-- The second part of `ReadBit()` (R98): `RCNT <- RCNT - 1; return RBUF[RCNT]`. -/
def takeBit (s : State) : Res Bool :=
  let c := s.reader.cnt.val - 1
  .ok (s.reader.buf.getLsbD c) (s.setReader { s.reader with cnt := ⟨c, by omega⟩ })

/-- `ReadBit()` (R98). -/
def readBit (s : State) : Res Bool := (refill s).bind fun _ s => takeBit s

/-- The loop of `ReadBits(n)` (R99): `acc <- (acc << 1) | ReadBit()`, n times. -/
def readBitsFrom : Nat → Word → State → Res Word
  | 0, acc, s => .ok acc s
  | n + 1, acc, s => (readBit s).bind fun b s => readBitsFrom n ((acc <<< 1) ||| (BitVec.ofBool b).setWidth 32) s

/-- `ReadBits(n)` (R99). -/
def readBits (n : Nat) (s : State) : Res Word := readBitsFrom n 0#32 s

/-! ### Commands -/

/-- WRITE_BITS (R100). -/
def writeBitsBody (n : Nat) (s : State) : Res Unit :=
  if lenLegal n then writeBits n (valueOperand s.arg) s else .raise .badLength (BitVec.ofNat 10 n) s

/-- CLOSE_WRITER (R101). -/
def closeWriterBody (s : State) : Res Unit := closeWriter s

/-- READ_BITS (R102). -/
def readBitsBody (n : Nat) (s : State) : Res Unit :=
  if lenLegal n then (readBits n s).bind fun v s => .ok () (s.setResult v)
  else .raise .badLength (BitVec.ofNat 10 n) s

/-- READER_ALIGN (R103): `RCNT <- 0`; RBUF stays; no token is consumed. -/
def readerAlignBody (s : State) : Res Unit := .ok () (s.setReader { s.reader with cnt := 0 })

/-- The meaning of WRITE_BITS. -/
def execWriteBits (n : Nat) (s : State) : Host.Outcome State Fault Refusal := complete (writeBitsBody n) s

/-- The meaning of CLOSE_WRITER. -/
def execCloseWriter (s : State) : Host.Outcome State Fault Refusal := complete closeWriterBody s

/-- The meaning of READ_BITS. -/
def execReadBits (n : Nat) (s : State) : Host.Outcome State Fault Refusal := complete (readBitsBody n) s

/-- The meaning of READER_ALIGN. -/
def execReaderAlign (s : State) : Host.Outcome State Fault Refusal := complete readerAlignBody s

end Sys2Proof.Machine
end

