-- ==== Sys2Proof/Machine/CodeTable.lean ====
section
/-! DEFINITION. Bounded traversal and code-table generation (spec/41_codetable.md). -/

namespace Sys2Proof.Machine

/-- `RequireRoot()` (R110). -/
def requireRoot (s : State) : Res Unit :=
  if s.root.valid then .ok () s else .raise .treeInvalid s.root.idx s

/-- `Visit(i)` (R110): the index check, then the count check, then the node read (60_exceptions R170). It returns the
node and the new value of the traversal's counter. -/
def visit (i : Slot) (visits : Nat) (s : State) : Res (Node × Nat) :=
  if s.cap ≤ i.toNat then .raise .treeInvalid i s
  else if s.cap < visits + 1 then .raise .treeInvalid i s
  else (node i s).bind fun n s => .ok (n, visits + 1) s

/-- The code of a leaf at depth d with path pat (R111): the root leaf gets the 1-bit code "0". -/
def leafCode (d pat : Nat) : Nat × Nat := if d = 0 then (1, 0) else (d, pat)

/-- What GEN_CODES does at a leaf (R111): CODE_TOO_LONG before the duplicate check. -/
def enterLeaf (i : Slot) (sym : Symbol) (d pat : Nat) (s : State) : Res Unit :=
  let c := leafCode d pat
  if maxLen < c.1 then .raise .codeTooLong (sym.setWidth 10) s
  else
    match s.validCode sym with
    | some _ => .raise .treeInvalid i s
    | none => .ok () (s.writeCode sym { valid := true, len := BitVec.ofNat 6 c.1, pat := BitVec.ofNat 32 c.2 })

/-- `Gen(i, d, pat)` (R111); it returns the visit counter. The first argument bounds the recursion's depth: every call
visits a node, so at depth NODE_CAP or below the visit raises TREE_INVALID(i), as the bound does (entry 9). -/
def gen : Nat → Slot → Nat → Nat → Nat → State → Res Nat
  | 0, i, _, _, _, s => .raise .treeInvalid i s
  | fuel + 1, i, d, pat, visits, s =>
    (visit i visits s).bind fun nv s =>
      match nv.1 with
      | .leaf sym => (enterLeaf i sym d pat s).bind fun _ s => .ok nv.2 s
      | .internal l r =>
        (gen fuel l (d + 1) (pat * 2) nv.2 s).bind fun v s => gen fuel r (d + 1) (pat * 2 + 1) v s

/-- GEN_CODES (R111). -/
def genCodesBody (s : State) : Res Unit :=
  (requireRoot s).bind fun _ s =>
    (gen (s.cap + 1) s.root.idx 0 0 0 (s.setCode (clearValid s.code))).bind fun _ s => .ok () s

/-- The meaning of GEN_CODES. -/
def execGenCodes (s : State) : Host.Outcome State Fault Refusal := complete genCodesBody s

end Sys2Proof.Machine
end

