-- ==== Sys2Proof/Machine/Header.lean ====
section
/-! DEFINITION. The header codec (spec/42_header.md): the pre-order serializer and parser. -/

namespace Sys2Proof.Machine

/-- `Ser(i)` (R120); it returns the visit counter. The first argument bounds the recursion's depth as in `gen` (entry 9). -/
def ser : Nat → Slot → Nat → State → Res Nat
  | 0, i, _, s => .raise .treeInvalid i s
  | fuel + 1, i, visits, s =>
    (visit i visits s).bind fun nv s =>
      match nv.1 with
      | .leaf sym =>
        (writeBit true s).bind fun _ s => (writeBits 9 (sym.setWidth 32) s).bind fun _ s => .ok nv.2 s
      | .internal l r =>
        (writeBit false s).bind fun _ s => (ser fuel l nv.2 s).bind fun v s => ser fuel r v s

/-- WRITE_HEADER (R120): it does not close the writer. -/
def writeHeaderBody (s : State) : Res Unit :=
  (requireRoot s).bind fun _ s => (ser (s.cap + 1) s.root.idx 0 s).bind fun _ s => .ok () s

/-- `Parse()` (R121); it returns the slot of the subtree it read. The slot is allocated before its tag is read. The
first argument bounds the recursion's depth: every call allocates a slot, so at depth NODE_CAP the parse raises
TREE_OVERFLOW(0), as the bound does (entry 9). -/
def parse : Nat → State → Res Slot
  | 0, s => .raise .treeOverflow 0#10 s
  | fuel + 1, s =>
    if s.ncnt.toNat = s.cap then .raise .treeOverflow 0#10 s
    else
      let i : Slot := s.ncnt.setWidth 10
      (readBit (s.setNcnt (s.ncnt + 1#11))).bind fun tag s =>
        if tag then
          (readBits 9 s).bind fun sym s => .ok i (s.writeTree i.toNat (.leaf (sym.extractLsb' 0 9)))
        else
          (parse fuel s).bind fun l s =>
            (parse fuel s).bind fun r s => .ok i (s.writeTree i.toNat (.internal l r))

/-- READ_HEADER (R121): the root is always slot 0; ROOT_IDX is unchanged until success. -/
def readHeaderBody (s : State) : Res Unit :=
  let s1 := (s.setNcnt 0#11).setRoot { s.root with valid := false }
  (parse (s.cap + 1) s1).bind fun _ s => .ok () (s.setRoot { idx := 0#10, valid := true })

/-- The meaning of WRITE_HEADER. -/
def execWriteHeader (s : State) : Host.Outcome State Fault Refusal := complete writeHeaderBody s

/-- The meaning of READ_HEADER. -/
def execReadHeader (s : State) : Host.Outcome State Fault Refusal := complete readHeaderBody s

end Sys2Proof.Machine
end

