-- ==== Sys2Proof/Machine/StreamCodec.lean ====
section
/-! DEFINITION. The stream codec (spec/43_stream.md): the symbol encoder, the tree walk, and their four commands. -/

namespace Sys2Proof.Machine

/-- `Encode(s)` (R135): NO_CODE when VALID = 0; else the low LEN bits of PAT, PAT[LEN-1] first. -/
def encodeSym (sym : Symbol) (s : State) : Res Unit :=
  match s.validCode sym with
  | none => .raise .noCode (sym.setWidth 10) s
  | some e => writeBits e.len.toNat e.pat s

/-- The loop of `Walk()` from an internal node (R136): one bit, one visit. The first argument bounds the number of
bits: the bit that leads to visit NODE_CAP + 1 is the last one read, so the bound NODE_CAP is never used up
(entry 9). -/
def walkFrom : Nat → Slot → Slot → Nat → State → Res Symbol
  | 0, _, _, _, s => .held s
  | fuel + 1, l, r, visits, s =>
    (readBit s).bind fun b s =>
      (visit (if b then r else l) visits s).bind fun nv s =>
        match nv.1 with
        | .leaf sym => .ok sym s
        | .internal l' r' => walkFrom fuel l' r' nv.2 s

/-- `Walk()` (R136): a walk that starts at a leaf consumes one bit whose value is not checked. -/
def walk (s : State) : Res Symbol :=
  (requireRoot s).bind fun _ s =>
    (visit s.root.idx 0 s).bind fun nv s =>
      match nv.1 with
      | .leaf sym => (readBit s).bind fun _ s => .ok sym s
      | .internal l r => walkFrom (s.cap + 1) l r nv.2 s

/-- ENCODE_SYMBOL (R137). -/
def encodeSymbolBody (s : State) : Res Unit := encodeSym (symbolOperand s.arg) s

/-- The loop of ENCODE_STREAM (R138); it returns the byte count, modulo 2^32. The first argument bounds the number of
tokens: with no token left the engine is held (entry 9). -/
def encodeLoop : Nat → Word → State → Res Word
  | 0, _, s => .held s
  | fuel + 1, cnt, s =>
    (inToken s).bind fun t s =>
      match t with
      | .byte b => (encodeSym (byteSymbol b) s).bind fun _ s => encodeLoop fuel (cnt + 1#32) s
      | .endOfStream => .ok cnt s
      | .error => .raise .sourceUnreadable 0#10 s

/-- ENCODE_STREAM (R138). -/
def encodeStreamBody (s : State) : Res Unit :=
  (encodeLoop (s.ports.offered.length + 1) 0#32 s).bind fun cnt s =>
    (encodeSym eofSymbol s).bind fun _ s => (closeWriter s).bind fun _ s => .ok () (s.setResult cnt)

/-- DECODE_SYMBOL (R139). -/
def decodeSymbolBody (s : State) : Res Unit :=
  (walk s).bind fun sym s => .ok () ((s.setResult (sym.setWidth 32)).setEos (eosOf sym))

/-- The loop of DECODE_STREAM (R140); it returns the byte count, modulo 2^32. Every walk consumes a bit, so the first
argument, one more than the bits there are, is never used up (entry 9). -/
def decodeLoop : Nat → Word → State → Res Word
  | 0, _, s => .held s
  | fuel + 1, cnt, s =>
    (walk s).bind fun sym s =>
      if sym = eofSymbol then .ok cnt ((s.setEos true).setReader { s.reader with cnt := 0 })
      else if 255 < sym.toNat then .raise .badSymbol (sym.setWidth 10) s
      else (outByte (symbolByte sym) s).bind fun _ s => decodeLoop fuel (cnt + 1#32) s

/-- The number of bits the reader could take from what it holds and what IN has offered, at most. -/
def State.bitsLeft (s : State) : Nat := s.reader.cnt.val + 8 * s.ports.offered.length

/-- DECODE_STREAM (R140). -/
def decodeStreamBody (s : State) : Res Unit :=
  (decodeLoop (s.bitsLeft + 1) 0#32 (s.setEos false)).bind fun cnt s => .ok () (s.setResult cnt)

/-- The meaning of ENCODE_SYMBOL. -/
def execEncodeSymbol (s : State) : Host.Outcome State Fault Refusal := complete encodeSymbolBody s

/-- The meaning of ENCODE_STREAM. -/
def execEncodeStream (s : State) : Host.Outcome State Fault Refusal := complete encodeStreamBody s

/-- The meaning of DECODE_SYMBOL. -/
def execDecodeSymbol (s : State) : Host.Outcome State Fault Refusal := complete decodeSymbolBody s

/-- The meaning of DECODE_STREAM. -/
def execDecodeStream (s : State) : Host.Outcome State Fault Refusal := complete decodeStreamBody s

end Sys2Proof.Machine
end

