-- ==== Sys2Proof/Machine/Control.lean ====
section
/-! DEFINITION. The control commands (spec/44_control.md): NOP, and RESET with the abandoned command of 70_reset R192. -/

namespace Sys2Proof.Machine

/-- NOP (R155): no effect. -/
def nopBody (s : State) : Res Unit := .ok () s

/-- The meaning of NOP. -/
def execNop (s : State) : Host.Outcome State Fault Refusal := complete nopBody s

/-- The pseudocode of each command, for the port transactions of a command that a reset abandons. RESET is never
pending (R156). -/
def commandBody : Instr → State → Res Unit
  | .nop, s => nopBody s
  | .writeBits n, s => writeBitsBody n s
  | .closeWriter, s => closeWriterBody s
  | .readBits n, s => readBitsBody n s
  | .readerAlign, s => readerAlignBody s
  | .genCodes, s => genCodesBody s
  | .writeHeader, s => writeHeaderBody s
  | .readHeader, s => readHeaderBody s
  | .encodeSymbol, s => encodeSymbolBody s
  | .encodeStream, s => encodeStreamBody s
  | .decodeSymbol, s => decodeSymbolBody s
  | .decodeStream, s => decodeStreamBody s
  | .reset, s => .ok () s

/-- The tree RAM as an abandoned command finds it: a slot never written holds some free node, the same at each read
(entry 8). -/
def fillTree (s : State) : State :=
  s.setTree (Memory.tabulate s.cap fun i => (s.tree.read i).getD (Config.garbageNode s.draws i))

/-- The port transactions the pending command would perform, in pseudocode order, up to where the ports allow
(70_reset R192). A word that fails the check of 30_encoding R75 performs none. -/
def pendingOps (s : State) : List PortOp :=
  match decode s.cmd with
  | .error _ => []
  | .ok i => (commandBody i (fillTree s)).state.ports.log.drop s.ports.log.length

/-- The ports after the transactions `ops` have been performed. -/
def Ports.perform (p : Ports) (ops : List PortOp) : Ports where
  offered := p.offered.drop (ops.filterMap PortOp.token).length
  answers := p.answers.drop (ops.filterMap PortOp.answered).length
  log := p.log ++ ops

/-- Abandoning the pending command (70_reset R192): an unspecified first part of its port transactions stands. -/
def abandon (s : State) : State :=
  if s.busy then
    { s with
      ports := s.ports.perform ((pendingOps s).take (Config.abandonedLength s.draws))
      draws := s.draws + 1 }
  else s

/-- The meaning of RESET (R156), and of hardware reset (70_reset R190): at once, in any state, with no exception. -/
def execReset (s : State) : Host.Outcome State Fault Refusal := .next (resetBlock (abandon s))

end Sys2Proof.Machine
end

