-- ==== Sys2Proof/Machine/Dispatch.lean ====
section
/-! DEFINITION. One arm per command: its meaning, as one engine step (44_control R157); RESET's acts with the write itself. -/

namespace Sys2Proof.Machine

def exec (i : Instr) (s : State) : Host.Outcome State Fault Refusal :=
  match i with
  | .nop => Sys2Proof.Machine.execNop s
  | .writeBits n => Sys2Proof.Machine.execWriteBits n s
  | .closeWriter => Sys2Proof.Machine.execCloseWriter s
  | .readBits n => Sys2Proof.Machine.execReadBits n s
  | .readerAlign => Sys2Proof.Machine.execReaderAlign s
  | .genCodes => Sys2Proof.Machine.execGenCodes s
  | .writeHeader => Sys2Proof.Machine.execWriteHeader s
  | .readHeader => Sys2Proof.Machine.execReadHeader s
  | .encodeSymbol => Sys2Proof.Machine.execEncodeSymbol s
  | .encodeStream => Sys2Proof.Machine.execEncodeStream s
  | .decodeSymbol => Sys2Proof.Machine.execDecodeSymbol s
  | .decodeStream => Sys2Proof.Machine.execDecodeStream s
  | .reset => Sys2Proof.Machine.execReset s

end Sys2Proof.Machine
end

