-- ==== Sys2Proof/Machine/RegisterMap.lean ====
section
/-! DEFINITION. The register map (10_state R24) and what a host read and a host write of each register do (R25 to R47). -/

namespace Sys2Proof.Machine

/-- What stands at an offset of the window (10_state R24). -/
inductive Reg where
  | ident
  | cmd
  | arg
  | result
  | status
  | wstate
  | rstate
  | root
  | ncnt
  | param
  | tree (i : Nat)
  | clen (s : Nat)
  | cpat (s : Nat)
  | reserved
deriving DecidableEq, Repr

/-- The register at a word-aligned offset (10_state R24). -/
def regAt (off : Offset) : Reg :=
  match off.toNat / 4 with
  | 0 => .ident
  | 1 => .cmd
  | 2 => .arg
  | 3 => .result
  | 4 => .status
  | 5 => .wstate
  | 6 => .rstate
  | 7 => .root
  | 8 => .ncnt
  | 9 => .param
  | k =>
    if 0x400 ≤ k ∧ k < 0x800 then .tree (k - 0x400)
    else if 0x800 ≤ k ∧ k < 0xC00 then
      if k % 2 = 0 then .clen ((k - 0x800) / 2) else .cpat ((k - 0x800) / 2)
    else .reserved

/-- Registers whose reads return any value while BUSY = 1 (10_state R46; entry 6). -/
def Reg.changeable : Reg → Bool
  | .ident => false
  | .cmd => false
  | .arg => false
  | .result => true
  | .status => false
  | .wstate => true
  | .rstate => true
  | .root => true
  | .ncnt => true
  | .param => false
  | .tree _ => true
  | .clen _ => true
  | .cpat _ => true
  | .reserved => false

/-- What an idle block returns for a read of r; `any` is the read's free draw, used only where the spec says "any value"
(10_state R41, R43; entry 6). -/
def regValue (r : Reg) (any : Word) (s : State) : Word :=
  match r with
  | .ident => identWord
  | .cmd => s.cmd
  | .arg => s.arg
  | .result => s.result
  | .status => statusWord s
  | .wstate => wstateWord s.writer
  | .rstate => rstateWord s.reader
  | .root => rootWord s.root
  | .ncnt => ncntWord s.ncnt
  | .param => paramWord s.params
  | .tree i =>
    if i < s.cap then
      match s.tree.read i with
      | some n => nodeWord n
      | none => any
    else 0#32
  | .clen k =>
    match s.code.read k with
    | some e => clenWord e.valid e.len
    | none => clenWord false (any.extractLsb' 0 6)
  | .cpat k =>
    match s.code.read k with
    | some e => e.pat
    | none => any
  | .reserved => 0#32

/-- The value a host read returns (10_state R46 while busy). -/
def readValue (r : Reg) (any : Word) (s : State) : Word :=
  if s.busy ∧ r.changeable then any else regValue r any s

/-- A read of r that shows STATUS with BUSY = 0 (70_reset R204). -/
def Reg.showsIdle (r : Reg) (s : State) : Bool := r == .status && !s.busy

/-- A host read: no side effect on the block (20_memory R56); the returned value joins `reads`, and the read uses up one
draw, fresh per read (93 items 5, 6, 8). -/
def hostRead (r : Reg) (s : State) : State :=
  { s with
    reads := s.reads ++ [readValue r (Config.freeRead s.draws) s]
    sawIdle := r.showsIdle s || s.sawIdle
    draws := s.draws + 1 }

/-- The effect of a host write to a register other than CMD on an idle block (10_state R25, R28, R37, R40): also while
ERR ≠ 0 (60_exceptions R167). -/
def storeReg (r : Reg) (v : Word) (s : State) : State :=
  match r with
  | .arg => s.setArg v
  | .root => s.setRoot (rootOfWord v)
  | .tree i => if i < s.cap then s.writeTree i (nodeOfWord v) else s
  | .ident => s
  | .cmd => s
  | .result => s
  | .status => s
  | .wstate => s
  | .rstate => s
  | .ncnt => s
  | .param => s
  | .clen _ => s
  | .cpat _ => s
  | .reserved => s

/-- A host write to a register other than CMD: dropped, with OVERRUN set, while BUSY = 1 (10_state R47). -/
def hostStore (r : Reg) (v : Word) (s : State) : State :=
  if s.busy then s.setOverrun else storeReg r v s

end Sys2Proof.Machine
end

