-- ==== Sys2Proof/Machine/Protocol.lean ====
section
/-! DEFINITION. The command protocol (44_control R157): a CMD write, the engine's turn, a host access, one event. -/

namespace Sys2Proof.Machine

/-- The RESET word, exactly (30_encoding R76). -/
def resetWord : Word := 0x0000000F#32

/-- An accepted write of w to CMD (44_control R157): `CMD <- w; BUSY <- 1`. -/
def acceptCommand (w : Word) (s : State) : State := (s.setCmd w).setBusy true

/-- `HostWriteCMD(w)` (44_control R157): RESET at any time; dropped with OVERRUN while BUSY = 1 or ERR ≠ 0; else accepted. -/
def hostWriteCmd (w : Word) (s : State) : Host.Outcome State Fault Refusal :=
  if w = resetWord then exec .reset s
  else if s.busy then .next s.setOverrun
  else if s.err ≠ none then .next s.setOverrun
  else .next (acceptCommand w s)

/-- Fault entry for a word that fails the engine's check: BAD_COMMAND(zext_10(w[3:0])) (30_encoding R75). -/
def badCommand (s : State) : State := faultEntry .badCommand ((opField s.cmd).setWidth 10) s

/-- `EngineStep(CMD)` (44_control R157): the check first, then the command. -/
def engineStep (s : State) : Host.Outcome State Fault Refusal :=
  match decode s.cmd with
  | .ok i => exec i s
  | .error _ => .next (badCommand s)

/-- The engine's turn: it runs the pending command if there is one; an idle engine waits (70_reset R193). -/
def engineTurn (s : State) : Host.Outcome State Fault Refusal :=
  if s.busy then engineStep s else .next s

/-- The accesses the spec gives a meaning (10_state R23): 32 bits wide, at a multiple of 4. -/
def accessLegal (width : Nat) (off : Offset) : Bool := width == 32 && off.toNat % 4 == 0

/-- A host write of one word (10_state R24, 44_control R157). A write to CMD, accepted or dropped, is a command whose end the
host has not seen yet (70_reset R204; entry 14). -/
def hostWrite (r : Reg) (v : Word) (s : State) : Host.Outcome State Fault Refusal :=
  match r with
  | .cmd => hostWriteCmd v (s.setSawIdle false)
  | r => .next (hostStore r v s)

/-- A host access (10_state R23): any other width or alignment is refused (60_exceptions R182; entry 10). -/
def hostAccess (a : Access) (s : State) : Host.Outcome State Fault Refusal :=
  match a with
  | .read width off =>
    if accessLegal width off then .next (hostRead (regAt off) s) else .refused (.badAccess width off)
  | .write width off v =>
    if accessLegal width off then hostWrite (regAt off) v s else .refused (.badAccess width off)

/-- The IN source offers a token (20_memory R52). -/
def offerToken (t : Token) (s : State) : State := s.setPorts { s.ports with offered := s.ports.offered ++ [t] }

/-- The OUT sink has an answer for its next offer (20_memory R53). -/
def giveAnswer (a : Answer) (s : State) : State := s.setPorts { s.ports with answers := s.ports.answers ++ [a] }

/-- What one event does. Hardware reset has the effect of RESET (70_reset R190). -/
def handle (e : Event) (s : State) : Host.Outcome State Fault Refusal :=
  match e with
  | .host a => hostAccess a s
  | .hardwareReset => exec .reset s
  | .offer t => .next (offerToken t s)
  | .answer a => .next (giveAnswer a s)
  | .engine => engineTurn s

/-- The state in which the very next step runs the command word w: RESET is a host write of it to CMD (44_control R156);
any other word is latched, pending, and the engine has its turn (44_control R157; entry 2). -/
def placeCommand (w : Word) (s : State) : State :=
  if w = resetWord then s.setAgenda (.host (.write 32 0x0004#14 w) :: s.agenda)
  else (acceptCommand w (s.setSawIdle false)).setAgenda (.engine :: s.agenda)

end Sys2Proof.Machine
end

