-- ==== Sys2Proof/Machine/Step.lean ====
section
/-! DEFINITION. One step of the model: the next event of the agenda, or the engine's turn when nothing is on it (entries 1, 2). -/

namespace Sys2Proof.Machine

/-- One step (00_scope R6, R7, 20_memory R59). -/
def step (s : State) : Host.Outcome State Fault Refusal :=
  match s.agenda with
  | [] => engineTurn s
  | e :: rest => handle e (s.setAgenda rest)

/-- s with the command word w (its bits from `nbits` on 0) placed so that the next step runs it (entry 2). -/
def State.withFetchWord (s : State) (nbits w : Nat) : State := placeCommand (BitVec.ofNat 32 (w % 2 ^ nbits)) s

end Sys2Proof.Machine
end

