-- ==== Sys2Proof/Machine/HostProgram.lean ====
section
/-! DEFINITION. The host's forms (30_encoding R85 to R87) as events of the agenda, and the host's reading of ERR
(60_exceptions R175). They say what the host does; the block is Machine/Protocol.lean. -/

namespace Sys2Proof.Machine

/-- The offset of a register (10_state R24). -/
def Reg.offset : Reg → Offset
  | .ident => 0x0000#14
  | .cmd => 0x0004#14
  | .arg => 0x0008#14
  | .result => 0x000C#14
  | .status => 0x0010#14
  | .wstate => 0x0014#14
  | .rstate => 0x0018#14
  | .root => 0x001C#14
  | .ncnt => 0x0020#14
  | .param => 0x0024#14
  | .tree i => BitVec.ofNat 14 (0x1000 + 4 * i)
  | .clen k => BitVec.ofNat 14 (0x2000 + 8 * k)
  | .cpat k => BitVec.ofNat 14 (0x2004 + 8 * k)
  | .reserved => 0x0028#14

/-- The host's program forms (30_encoding R85). -/
inductive HostOp where
  | wr (r : Reg) (v : Word)
  | rd (r : Reg)
  | poll
deriving DecidableEq, Repr

/-- The accesses of a form. `poll` reads STATUS until BUSY = 0: the engine's turn and the read that sees it; further
reads before that turn are further `rd STATUS` (95, Part C: "A model may take any number of BUSY = 1 reads first"). -/
def HostOp.events : HostOp → List Event
  | .wr r v => [.host (.write 32 r.offset v)]
  | .rd r => [.host (.read 32 r.offset)]
  | .poll => [.engine, .host (.read 32 Reg.status.offset)]

/-- The agenda of a host program. -/
def programAgenda (p : List HostOp) : List Event := p.flatMap HostOp.events

/-- The mnemonic forms (30_encoding R86): a command's whole issue sequence; v is the operand of WRITE_BITS and
ENCODE_SYMBOL, unused by the others. -/
def issue (i : Instr) (v : Word) : List HostOp :=
  match i with
  | .nop => [.wr .cmd (encode .nop), .poll]
  | .writeBits n => [.wr .arg v, .wr .cmd (encode (.writeBits n)), .poll]
  | .closeWriter => [.wr .cmd (encode .closeWriter), .poll]
  | .readBits n => [.wr .cmd (encode (.readBits n)), .poll, .rd .result]
  | .readerAlign => [.wr .cmd (encode .readerAlign), .poll]
  | .genCodes => [.wr .cmd (encode .genCodes), .poll]
  | .writeHeader => [.wr .cmd (encode .writeHeader), .poll]
  | .readHeader => [.wr .cmd (encode .readHeader), .poll]
  | .encodeSymbol => [.wr .arg v, .wr .cmd (encode .encodeSymbol), .poll]
  | .encodeStream => [.wr .cmd (encode .encodeStream), .poll, .rd .result]
  | .decodeSymbol => [.wr .cmd (encode .decodeSymbol), .poll, .rd .result]
  | .decodeStream => [.wr .cmd (encode .decodeStream), .poll, .rd .result]
  | .reset => [.wr .cmd (encode .reset)]

/-- `LEAF i, s` (30_encoding R87). -/
def leafOp (i : Nat) (sym : Symbol) : List HostOp := [.wr (.tree i) (0x80000000#32 ||| sym.setWidth 32)]

/-- `NODE i, l, r` (30_encoding R87). -/
def nodeOp (i : Nat) (l r : Slot) : List HostOp := [.wr (.tree i) ((l.setWidth 32 <<< 16) ||| r.setWidth 32)]

/-- `SETROOT i` (30_encoding R87). -/
def setRootOp (i : Slot) : List HostOp := [.wr .root (0x80000000#32 ||| i.setWidth 32)]

/-- `CHECK` (30_encoding R87): the read of STATUS; stopping when it shows ERR ≠ 0 is the host's own decision. -/
def checkOp : List HostOp := [.rd .status]

/-- `COMPRESS` (30_encoding R87). -/
def compressOp : List HostOp :=
  issue .genCodes 0#32 ++ checkOp ++ issue .writeHeader 0#32 ++ checkOp ++ issue .encodeStream 0#32 ++ checkOp

/-- `DECOMPRESS` (30_encoding R87). -/
def decompressOp : List HostOp := issue .readHeader 0#32 ++ checkOp ++ issue .decodeStream 0#32 ++ checkOp

/-- What the source's entry points report to their caller (60_exceptions R175). -/
inductive HostResult where
  | success
  | ioError
  | corruptFormat
  | notOfTheSource
deriving DecidableEq, Repr

/-- The host's reading of ERR (60_exceptions R175). -/
def hostResult : Option ErrorKind → HostResult
  | none => .success
  | some .sourceUnreadable => .ioError
  | some .sinkUnwritable => .ioError
  | some .truncatedStream => .corruptFormat
  | some .treeOverflow => .corruptFormat
  | some .badSymbol => .corruptFormat
  | some .badCommand => .notOfTheSource
  | some .badLength => .notOfTheSource
  | some .noCode => .notOfTheSource
  | some .treeInvalid => .notOfTheSource
  | some .codeTooLong => .notOfTheSource

/-- A host write to CMD: a command the host issues, or a dropped one. -/
def Event.isCommand : Event → Bool
  | .host (.write width off _) => width == 32 && off == Reg.cmd.offset
  | .host (.read _ _) => false
  | .hardwareReset => false
  | .offer _ => false
  | .answer _ => false
  | .engine => false

/-- A host sequence has ended (70_reset R204): the host has read STATUS with BUSY = 0 after its last command. No further
command is to come; other events may be (entry 14). -/
def State.ended (s : State) : Bool := s.sawIdle && !s.agenda.any Event.isCommand

/-- The end state of a host sequence (70_reset R204): every word the host can read, the OUT stream and the tokens consumed;
`any` stands for a value the spec leaves unspecified (entry 6). -/
def State.endState (any : Word) (s : State) : List Word × List Byte × List Token :=
  ((List.range 4096).map fun k => regValue (regAt (BitVec.ofNat 14 (4 * k))) any s, s.outStream, s.consumed)

end Sys2Proof.Machine
end

