-- ==== Sys2Proof/Safety.lean ====
section
/-! DEFINITION. The words claims are stated in: bit streams (20_memory R51), what the ports hold, Huffman trees, their
header and codes (30_encoding R80, R83), trees as they stand in the tree RAM, and the invariant of a run. -/

namespace Sys2Proof.Machine

/-! ### Bits in stream order (20_memory R51) -/

/-- Bits n-1 down to 0 of `f`: the most significant first. -/
def msbFirst : Nat → (Nat → Bool) → List Bool
  | 0, _ => []
  | n + 1, f => f n :: msbFirst n f

/-- The bits of a byte in stream order. -/
def byteBits (b : Byte) : List Bool := msbFirst 8 b.getLsbD

/-- The bits of a field of n bits with value v in stream order. -/
def fieldBits (n : Nat) (v : Word) : List Bool := msbFirst n v.getLsbD

/-- The bits of a sequence of bytes. -/
def streamBits (bs : List Byte) : List Bool := bs.flatMap byteBits

/-- A list of bits as a number, the first bit most significant. -/
def bitsValue (l : List Bool) : Nat := l.foldl (fun acc b => acc * 2 + b.toNat) 0

/-! ### What the bit buffers and the ports hold -/

/-- The writer's pending bits (10_state R35): the top WCNT bits of WBUF. -/
def Writer.pending (w : Writer) : List Bool := (byteBits w.buf).take w.cnt.val

/-- Every bit of WBUF below the pending bits is 0 (10_state R35). -/
abbrev Writer.clean (w : Writer) : Prop := ∀ k : Fin 8, k.val < 8 - w.cnt.val → w.buf.getLsbD k.val = false

/-- The reader's unread bits (10_state R36): RBUF[RCNT-1] first. -/
def Reader.unread (r : Reader) : List Bool := msbFirst r.cnt.val r.buf.getLsbD

/-- The bytes at the head of the offered tokens, up to the first End or Error. -/
def leadingBytes : List Token → List Byte
  | .byte b :: rest => b :: leadingBytes rest
  | _ => []

/-- The bits a reader can take before it needs a token that is no byte. -/
def readableBits (r : Reader) (offered : List Token) : List Bool := r.unread ++ streamBits (leadingBytes offered)

/-- The bits the block's reader can take. -/
def State.inBits (s : State) : List Bool := readableBits s.reader s.ports.offered

/-- The sink accepts its next n offers. -/
abbrev State.sinkAccepts (s : State) (n : Nat) : Prop := List.replicate n Answer.accept <+: s.ports.answers

/-- The transactions of n accepted bytes. -/
def sentAll (bs : List Byte) : List PortOp := bs.map fun b => .sent b .accept

/-- The transactions of consuming the tokens ts. -/
def tookAll (ts : List Token) : List PortOp := ts.map .took

/-- How many tokens taking n bits consumes when c unread bits are held: ⌈max(0, n - c) / 8⌉ (40_bitstream R102). -/
def tokensFor (c n : Nat) : Nat := (n - c + 7) / 8

/-! ### Trees -/

/-- A Huffman tree: a leaf with its symbol, or an internal node with two children (00_scope glossary). -/
inductive HTree where
  | leaf (sym : Symbol)
  | node (left right : HTree)
deriving DecidableEq, Repr

/-- The number of nodes. -/
def HTree.size : HTree → Nat
  | .leaf _ => 1
  | .node l r => 1 + l.size + r.size

/-- The number of leaves. -/
def HTree.leaves : HTree → Nat
  | .leaf _ => 1
  | .node l r => l.leaves + r.leaves

/-- The header grammar (30_encoding R80). -/
def HTree.header : HTree → List Bool
  | .leaf sym => true :: msbFirst 9 sym.getLsbD
  | .node l r => false :: (l.header ++ r.header)

/-- The bits of each node in a header, in pre-order: the tag 0, or the tag 1 and the symbol (30_encoding R80). -/
def HTree.nodeBits : HTree → List (List Bool)
  | .leaf sym => [true :: msbFirst 9 sym.getLsbD]
  | .node l r => [false] :: (l.nodeBits ++ r.nodeBits)

/-- The header's bits of the first n nodes. -/
def HTree.headerUpTo (t : HTree) (n : Nat) : List Bool := (t.nodeBits.take n).flatten

/-- The leaves in pre-order, each with its path from the root: false = left, true = right (30_encoding R83). -/
def HTree.paths : HTree → List (List Bool × Symbol)
  | .leaf sym => [([], sym)]
  | .node l r => (l.paths.map fun c => (false :: c.1, c.2)) ++ r.paths.map fun c => (true :: c.1, c.2)

/-- The codes (30_encoding R83): the paths, but for a root that is a leaf, whose symbol has the 1-bit code "0". -/
def HTree.codes : HTree → List (List Bool × Symbol)
  | .leaf sym => [([false], sym)]
  | .node l r => (HTree.node l r).paths

/-- The leaf symbols in pre-order. -/
def HTree.symbols (t : HTree) : List Symbol := t.paths.map Prod.snd

/-- The nodes in pre-order, placed in consecutive slots from `base`: the numbering of READ_HEADER (42_header R121). -/
def HTree.layout : Nat → HTree → List Node
  | _, .leaf sym => [.leaf sym]
  | base, .node l r =>
    .internal (BitVec.ofNat 10 (base + 1)) (BitVec.ofNat 10 (base + 1 + l.size))
      :: (l.layout (base + 1) ++ r.layout (base + 1 + l.size))

/-- The tree t stands in the tree RAM m of `cap` slots with its root at slot i (10_state R40, R41). A slot may be reached
along two paths: the traversals treat it as copied (41_codetable R110). -/
def treeAt (cap : Nat) (m : Memory Node) : Slot → HTree → Prop
  | i, .leaf sym => i.toNat < cap ∧ m.read i.toNat = some (.leaf sym)
  | i, .node l r =>
    i.toNat < cap ∧ ∃ a b, m.read i.toNat = some (.internal a b) ∧ treeAt cap m a l ∧ treeAt cap m b r

/-- A tree is loaded (10_state R37): ROOT_VALID = 1 and ROOT_IDX names its root; it fits the visit bound (41_codetable R110). -/
def State.hasTree (s : State) (t : HTree) : Prop :=
  s.root.valid = true ∧ treeAt s.cap s.tree s.root.idx t ∧ t.size ≤ s.cap

/-! ### Where a traversal or a walk stands in the tree RAM -/

/-- The slot a descent from slot i comes to along a path (false = left, true = right) through internal nodes. -/
def slotAlong (cap : Nat) (m : Memory Node) : Slot → List Bool → Option Slot
  | i, [] => some i
  | i, b :: path =>
    if i.toNat < cap then
      match m.read i.toNat with
      | some (.internal l r) => slotAlong cap m (if b then r else l) path
      | some (.leaf _) => none
      | none => none
    else none

/-- The path leads from the root to a leaf slot that holds sym, within the visit bound. -/
def State.leafAlong (s : State) (path : List Bool) (sym : Symbol) : Prop :=
  path ≠ [] ∧ path.length < s.cap ∧ ∃ i, slotAlong s.cap s.tree s.root.idx path = some i ∧ i.toNat < s.cap ∧
    s.tree.read i.toNat = some (.leaf sym)

/-- A walk takes the bits of `path` and ends at a leaf that holds sym (43_stream R136): the leaf the path leads to, or, after one
bit, whatever it is, a root that is a leaf. Only the slots on the path matter, whatever the rest of the RAM holds. -/
def State.walksTo (s : State) (path : List Bool) (sym : Symbol) : Prop :=
  s.root.valid = true ∧ (s.leafAlong path sym ∨
    path.length = 1 ∧ s.root.idx.toNat < s.cap ∧ s.tree.read s.root.idx.toNat = some (.leaf sym))

/-- A walk that has taken the bits of `path` needs another one (43_stream R136): it stands at an internal node, or still at the
root. -/
def State.walkGoesOn (s : State) (path : List Bool) : Prop :=
  s.root.valid = true ∧ path.length < s.cap ∧ ∃ i n, slotAlong s.cap s.tree s.root.idx path = some i ∧ i.toNat < s.cap ∧
    s.tree.read i.toNat = some n ∧ ((∃ l r, n = .internal l r) ∨ path = [])

/-- Successive walks over the bits `bits` end at the symbols `syms` and leave the bits `rest`. -/
def State.walksThrough (s : State) : List Symbol → List Bool → List Bool → Prop
  | [], bits, rest => bits = rest
  | sym :: syms, bits, rest => ∃ path mid, bits = path ++ mid ∧ s.walksTo path sym ∧ s.walksThrough syms mid rest

/-- One descent of a pre-order traversal (41_codetable R111, 42_header R120): into the left child, or, the left subtree
traversed, into the right one. -/
inductive Descent where
  | left
  | right (traversed : HTree)
deriving DecidableEq, Repr

/-- A traversal begun at slot i stands, after the descents ds, before the visit of slot j. -/
def comesTo (cap : Nat) (m : Memory Node) : Slot → List Descent → Slot → Prop
  | i, [], j => i = j
  | i, d :: ds, j => i.toNat < cap ∧ ∃ l r, m.read i.toNat = some (.internal l r) ∧
    match d with
    | .left => comesTo cap m l ds j
    | .right t => treeAt cap m l t ∧ comesTo cap m r ds j

/-- How many nodes the traversal has visited. -/
def visitsSoFar : List Descent → Nat
  | [] => 0
  | .left :: ds => 1 + visitsSoFar ds
  | .right t :: ds => 1 + t.size + visitsSoFar ds

/-- The leaves it has passed, each with its path. -/
def leavesSoFar : List Descent → List (List Bool × Symbol)
  | [] => []
  | .left :: ds => (leavesSoFar ds).map fun c => (false :: c.1, c.2)
  | .right t :: ds => (t.paths.map fun c => (false :: c.1, c.2)) ++ (leavesSoFar ds).map fun c => (true :: c.1, c.2)

/-- The header bits of the nodes it has visited. -/
def headerSoFar : List Descent → List Bool
  | [] => []
  | .left :: ds => false :: headerSoFar ds
  | .right t :: ds => false :: (t.header ++ headerSoFar ds)

/-! ### The code table -/

/-- The bits of a code-table entry: PAT[LEN-1] first (30_encoding R78). -/
def entryBits (e : CodeEntry) : List Bool := fieldBits e.len.toNat e.pat

/-- The entry GEN_CODES writes for a code (41_codetable R111). -/
def entryOf (code : List Bool) : CodeEntry where
  valid := true
  len := BitVec.ofNat 6 code.length
  pat := BitVec.ofNat 32 (bitsValue code)

/-- The code of a symbol in the table, if it has one. -/
def State.codeOf (s : State) (sym : Symbol) : Option (List Bool) := (s.validCode sym).map entryBits

/-- The codes of the symbols `syms`, one after the other; none if one of them has no code (30_encoding R81). -/
def State.encodeAll (s : State) : List Symbol → Option (List Bool)
  | [] => some []
  | sym :: syms =>
    match s.codeOf sym, s.encodeAll syms with
    | some c, some cs => some (c ++ cs)
    | _, _ => none

/-- 2^(32 - LEN) summed over the valid entries: 2^32 times the Kraft sum (41_codetable R112). -/
def kraftSum (s : State) : Nat :=
  ((List.range codeEntries).map fun k =>
    match s.validCode (BitVec.ofNat 9 k) with
    | some e => 2 ^ (32 - e.len.toNat)
    | none => 0).sum

/-! ### Commands by what they do to the ports -/

/-- In s the command i appends the bits `bits` to the output stream and does nothing else (40_bitstream R100, 42_header R120,
43_stream R137). -/
inductive Appends (s : State) : Instr → List Bool → Prop where
  | writeBits (n : Nat) (h1 : 1 ≤ n) (h2 : n ≤ 32) : Appends s (.writeBits n) (fieldBits n s.arg)
  | encodeSymbol (c : List Bool) (h : s.codeOf (s.arg.extractLsb' 0 9) = some c) : Appends s .encodeSymbol c
  | writeHeader (t : HTree) (h : s.hasTree t) : Appends s .writeHeader t.header

/-- In s the command i needs more input bits than the reader can take (40_bitstream R99, 42_header R121, 43_stream R136). Of a
header READ_HEADER needs the bits of the first NODE_CAP nodes: all of one that fits. -/
inductive Starves (s : State) : Instr → Prop where
  | readBits (n : Nat) (h1 : 1 ≤ n) (h2 : n ≤ 32) (h : s.inBits.length < n) : Starves s (.readBits n)
  | readHeader (t : HTree) (more : List Bool) (hm : more ≠ []) (h : s.inBits ++ more = t.headerUpTo s.cap) :
      Starves s .readHeader
  | decodeSymbol (h : s.walkGoesOn s.inBits) : Starves s .decodeSymbol

/-! ### The command port -/

/-- The four checks of 30_encoding R75: the word w is no command. -/
abbrev failsCheck (w : Word) : Prop :=
  (w.extractLsb' 0 4 = 0xC#4 ∨ w.extractLsb' 0 4 = 0xD#4 ∨ w.extractLsb' 0 4 = 0xE#4) ∨
    w.extractLsb' 4 4 ≠ 0#4 ∨ w.extractLsb' 14 18 ≠ 0#18 ∨
    (w.extractLsb' 8 6 ≠ 0#6 ∧ w.extractLsb' 0 4 ≠ 0x1#4 ∧ w.extractLsb' 0 4 ≠ 0x3#4)

/-- The two sources of reset (70_reset R190). -/
abbrev Event.resets (e : Event) : Prop := e = .hardwareReset ∨ e = .host (.write 32 0x0004#14 0x0000000F#32)

/-- The event of the next step: the head of the agenda, or the engine's turn (entry 2). -/
def State.nextEvent (s : State) : Event := s.agenda.headD .engine

/-- Events one after the other. -/
def play : List Event → State → Host.Outcome State Fault Refusal
  | [], s => .next s
  | e :: es, s =>
    match handle e s with
    | .next t => play es t
    | .fault f => .fault f
    | .refused r => .refused r

/-! ### The invariant of a run -/

/-- What every step keeps: the RAMs' canonical form, the range of NCNT (10_state R38), ERRINFO = 0 while ERR = 0
(60_exceptions R164), no command pending while ERR ≠ 0 (60_exceptions R167, R173), RESET never pending (44_control R156), no
command pending whose end the host has seen (70_reset R204), a clean writer (10_state R35) and whole code-table entries
(10_state R43) while ERR = 0. -/
structure Inv (s : State) : Prop where
  tree_wf : s.tree.wf s.cap
  code_wf : s.code.wf codeEntries
  ncnt_le : s.ncnt.toNat ≤ s.cap
  errInfo_zero : s.err = none → s.errInfo = 0#10
  not_busy : s.err ≠ none → s.busy = false
  latched : s.busy = true → s.cmd ≠ resetWord
  saw_idle : s.sawIdle = true → s.busy = false
  writer_clean : s.err = none → s.writer.clean
  code_whole : s.err = none → ∀ sym e, s.validCode sym = some e →
    1 ≤ e.len.toNat ∧ e.len.toNat ≤ 32 ∧ e.pat.toNat < 2 ^ e.len.toNat

end Sys2Proof.Machine
end

