-- ==== Sys2Proof/Certificates/Slice0/Obligations.lean ====
section
/-! DEFINITION. The statements about the block, for the provers: the numbered rules of spec/ as claims about exec, step and
handle. -/

section Statements

open Sys2Proof Sys2Proof.Machine

/-! ### Command words (spec/30_encoding.md) -/

/-- R71, R72, R73: every command, with every LEN its field holds, is what its word decodes to. -/
def Obligations.DecodeUndoesEncode : Prop :=
  ∀ i : Instr, i.wellFormed = true → decode (encode i) = .ok i

/-- R71, R72, R75: a word has at most one meaning, and only the command's own word has it. -/
def Obligations.EncodeUndoesDecode : Prop :=
  ∀ (w : Word) (i : Instr), decode w = .ok i → i.wellFormed = true ∧ encode i = w

/-- R75: the check of the command word, before anything else; OP = 0xF with any other bit set fails it; only 0 is NOP. -/
def Obligations.WordCheckRaisesBadCommand : Prop :=
  ∀ s : State,
    (failsCheck s.cmd → engineStep s = .next (faultEntry .badCommand ((s.cmd.extractLsb' 0 4).setWidth 10) s)) ∧
    (¬ failsCheck s.cmd → ∃ i, decode s.cmd = .ok i ∧ engineStep s = exec i s) ∧
    (s.cmd.extractLsb' 0 4 = 0xF#4 → s.cmd ≠ 0x0000000F#32 → failsCheck s.cmd) ∧
    (decode s.cmd = .ok .nop → s.cmd = 0#32)

/-- R72: words written out from the table and its examples. -/
def Obligations.TableWordsDecode : Prop :=
  decode 0x00000000#32 = .ok .nop ∧ decode 0x00000901#32 = .ok (.writeBits 9) ∧
  decode 0x00002001#32 = .ok (.writeBits 32) ∧ decode 0x00000002#32 = .ok .closeWriter ∧
  decode 0x00000A03#32 = .ok (.readBits 10) ∧ decode 0x00000004#32 = .ok .readerAlign ∧
  decode 0x00000005#32 = .ok .genCodes ∧ decode 0x00000006#32 = .ok .writeHeader ∧
  decode 0x00000007#32 = .ok .readHeader ∧ decode 0x00000008#32 = .ok .encodeSymbol ∧
  decode 0x00000009#32 = .ok .encodeStream ∧ decode 0x0000000A#32 = .ok .decodeSymbol ∧
  decode 0x0000000B#32 = .ok .decodeStream ∧ decode 0x0000000F#32 = .ok .reset ∧
  decode 0x0000000C#32 = .error .reservedOp ∧ decode 0x00000010#32 = .error .reservedLowBits ∧
  decode 0x00004000#32 = .error .reservedHighBits ∧ decode 0x00000100#32 = .error .lenOnOtherOp

/-- R73: LEN is the field, unscaled; a LEN outside 1..32 raises BAD_LENGTH(LEN), one inside never does. -/
def Obligations.LengthOutOfRangeRaisesBadLength : Prop :=
  (∀ (w : Word) (n : Nat), decode w = .ok (.writeBits n) ∨ decode w = .ok (.readBits n) → n = (w.extractLsb' 8 6).toNat) ∧
  ∀ (s : State) (n : Nat),
    (n = 0 ∨ 32 < n →
      exec (.writeBits n) s = .next (faultEntry .badLength (BitVec.ofNat 10 n) s) ∧
      exec (.readBits n) s = .next (faultEntry .badLength (BitVec.ofNat 10 n) s)) ∧
    (1 ≤ n → n ≤ 32 → ∀ t, exec (.writeBits n) s = .next t ∨ exec (.readBits n) s = .next t →
      s.err = none → t.err ≠ some .badLength)

/-! ### Steps (00_scope R6, R7, 20_memory R59, 44_control R157) -/

/-- A step runs the decoded command: the engine's turn with a pending word that decodes to i is exec of i (R157). The agenda, the
turn on an empty one and all of withFetchWord are the model's choice (entries 1, 2): with ERR ≠ 0 the block itself drops the
write that withFetchWord stands for. -/
def Obligations.StepRunsTheDecodedCommand : Prop :=
  (∀ (s : State) (i : Instr), s.busy = true → decode s.cmd = .ok i →
    (∀ rest, s.agenda = .engine :: rest → step s = exec i { s with agenda := rest }) ∧
    (s.agenda = [] → step s = exec i s)) ∧
  ∀ (s : State) (i : Instr), i.wellFormed = true →
    step (s.withFetchWord 32 (encode i).toNat) =
      exec i (if i = .reset then { s with sawIdle := false }
        else { s with cmd := encode i, busy := true, sawIdle := false })

/-- A step is the next event of the agenda; an idle engine waits (70_reset R193). The agenda, the engine's turn on an empty one,
and the queues that offers and answers join ahead of their use are the model's choice (entries 1, 2, 13). -/
def Obligations.StepHandlesTheNextEvent : Prop :=
  (∀ (s : State) (e : Event) (rest : List Event), s.agenda = e :: rest → step s = handle e { s with agenda := rest }) ∧
  (∀ s : State, s.agenda = [] → step s = handle .engine s) ∧
  (∀ (s : State) (t : Token), handle (.offer t) s =
    .next { s with ports := { s.ports with offered := s.ports.offered ++ [t] } }) ∧
  (∀ (s : State) (a : Answer), handle (.answer a) s =
    .next { s with ports := { s.ports with answers := s.ports.answers ++ [a] } }) ∧
  ∀ s : State, s.busy = false → handle .engine s = .next s

/-- R157, HostWriteCMD: RESET, dropped while busy, dropped while ERR ≠ 0, accepted. Each of them is a command whose end the host
has not seen (R204; entry 14). -/
def Obligations.CommandWriteProtocol : Prop :=
  ∀ (s : State) (w : Word),
    let o := handle (.host (.write 32 0x0004#14 w)) s
    let s' := { s with sawIdle := false }
    (w = 0x0000000F#32 → o = exec .reset s') ∧
    (w ≠ 0x0000000F#32 → s.busy = true → o = .next { s' with overrun := true }) ∧
    (w ≠ 0x0000000F#32 → s.busy = false → s.err ≠ none → o = .next { s' with overrun := true }) ∧
    (w ≠ 0x0000000F#32 → s.busy = false → s.err = none → o = .next { s' with cmd := w, busy := true })

/-- R157: an engine step completes, faults (both with BUSY = 0) or is held with nothing done, but for the model fault
UNINIT; it is never refused, and CMD keeps its word. Held as an unchanged state is entry 4. -/
def Obligations.EngineTurnHasFourEnds : Prop :=
  ∀ s : State, Inv s → s.busy = true →
    (∃ i, handle .engine s = .fault (.uninit i)) ∨ handle .engine s = .next s ∨
    ∃ t, handle .engine s = .next t ∧ t.busy = false ∧ t.cmd = s.cmd

/-- R45, R47, R59: nothing but the engine's turn or a reset moves a pending command, and until then only OVERRUN, the ports'
inputs and the model's records of what the host has read change (entries 11, 14). -/
def Obligations.PendingCommandStands : Prop :=
  ∀ (s t : State) (e : Event), s.busy = true → e ≠ .engine → ¬ e.resets → handle e s = .next t →
    t = { s with overrun := t.overrun, ports := t.ports, reads := t.reads, sawIdle := t.sawIdle, draws := t.draws } ∧
    t.ports.log = s.ports.log ∧ s.ports.offered <+: t.ports.offered ∧ s.ports.answers <+: t.ports.answers

/-! ### Reset (10_state R48, 44_control R156, spec/70_reset_and_hazards.md) -/

/-- R48 at State.reset; NODE_CAP at the spec's default is the model's choice (entry 3). -/
def Obligations.ResetStateValues : Prop :=
  let r := State.reset
  r.cmd = 0#32 ∧ r.arg = 0#32 ∧ r.result = 0#32 ∧ statusWord r = 0#32 ∧ r.writer.buf = 0#8 ∧ r.writer.cnt = 0 ∧
  r.reader.buf = 0#8 ∧ r.reader.cnt = 0 ∧ r.root.idx = 0#10 ∧ r.root.valid = false ∧ r.ncnt = 0#11 ∧
  r.params.nodeCap.val = 1024 ∧ (∀ i, r.tree.read i = none) ∧ ∀ sym, r.validCode sym = none

/-- R48, R190, R191: RESET, in any state, and hardware reset alike, give every element its reset value; reset of an idle block
does nothing to the ports. That the agenda, the record of reads, `sawIdle` and the draws of an idle block survive is the model's
own (entries 1, 11, 14). -/
def Obligations.ResetGivesEveryElementItsValue : Prop :=
  ∀ s : State, ∃ p k,
    exec .reset s = .next
      { params := s.params, cmd := 0#32, arg := 0#32, result := 0#32, busy := false, eos := false, overrun := false,
        err := none, errInfo := 0#10, writer := { buf := 0#8, cnt := 0 }, reader := { buf := 0#8, cnt := 0 },
        root := { idx := 0#10, valid := false }, ncnt := 0#11, tree := [], code := [], ports := p, agenda := s.agenda,
        reads := s.reads, sawIdle := s.sawIdle, draws := k } ∧
    handle .hardwareReset s = exec .reset s ∧
    (s.busy = false → p = s.ports ∧ k = s.draws)

/-- R192: of the port transactions of an abandoned command a first part stands, of a length nothing fixes (entry 8), and the rest
never happens; of its other effects none survives. They are none for a word that is no command, they never go beyond what the
ports offered, and they are the first transactions of every completion or fault the command would come to if IN offered x
and the sink answered y besides: all of them where it needs nothing more. The model's own records survive (entries 1, 11, 14). -/
def Obligations.ResetAbandonsThePendingCommand : Prop :=
  ∀ s : State, Inv s → s.busy = true → ∃ all ops k,
    ops <+: all ∧
    exec .reset s = .next { State.reset with
      params := s.params
      ports := s.ports.perform ops
      agenda := s.agenda
      reads := s.reads
      sawIdle := s.sawIdle
      draws := k } ∧
    (failsCheck s.cmd → all = []) ∧
    all.filterMap PortOp.token <+: s.ports.offered ∧ all.filterMap PortOp.answered <+: s.ports.answers ∧
    ∀ i, decode s.cmd = .ok i →
      (∀ u, exec i s = .next u → u.busy = false → u.ports = s.ports.perform all) ∧
      ∀ (x : List Token) (y : List Answer) (u : State),
        let p := { s.ports with offered := s.ports.offered ++ x, answers := s.ports.answers ++ y }
        exec i { s with ports := p } = .next u → u.busy = false → ∃ more, u.ports = p.perform (all ++ more)

/-! ### Control and bit-level commands (spec/44_control.md, spec/40_bitstream.md) -/

/-- R155: NOP completes and changes nothing but BUSY. -/
def Obligations.NopCompletes : Prop := ∀ s : State, exec .nop s = .next { s with busy := false }

/-- R96, R100, R120, R137: WRITE_BITS, WRITE_HEADER and ENCODE_SYMBOL append their bits, most significant first: the bytes sent
and the bits then pending are the bits pending before and the command's; ⌊(WCNT + n)/8⌋ bytes go out; nothing else changes. -/
def Obligations.AppendingCommandsComplete : Prop :=
  ∀ (s : State) (i : Instr) (bits : List Bool), Appends s i bits →
    s.sinkAccepts ((s.writer.cnt.val + bits.length) / 8) →
    ∃ bs w, exec i s = .next { s with writer := w, ports := s.ports.perform (sentAll bs), busy := false } ∧
      streamBits bs ++ w.pending = s.writer.pending ++ bits ∧
      bs.length = (s.writer.cnt.val + bits.length) / 8 ∧ w.cnt.val = (s.writer.cnt.val + bits.length) % 8 ∧
      (s.writer.clean → w.clean)

/-- R53, R157, R163, R169: the same three commands when the sink, after accepting k bytes, gives no answer (held) or rejects the
next byte (SINK_UNWRITABLE, the accepted bytes standing). That a held command has sent nothing yet is entry 4. WRITE_HEADER in a
RAM that holds no whole tree: WriteHeaderStopsAtTheSink. -/
def Obligations.AppendingCommandsStopAtTheSink : Prop :=
  ∀ (s : State) (i : Instr) (bits : List Bool) (k : Nat) (more : List Answer), Appends s i bits →
    s.ports.answers = List.replicate k .accept ++ more → k < (s.writer.cnt.val + bits.length) / 8 →
    (more = [] → exec i s = .next s) ∧
    ∀ rest, more = .reject :: rest →
      ∃ bs b, bs.length = k ∧ streamBits (bs ++ [b]) <+: s.writer.pending ++ bits ∧
        exec i s = .next (faultEntry .sinkUnwritable 0#10
          { s with ports := s.ports.perform (sentAll bs ++ [.sent b .reject]) })

/-- R53, R97, R101, R157: CLOSE_WRITER: nothing with WCNT = 0; else the partial byte, whose low bits are the zero padding, is
offered: held, accepted or rejected. Held as an unchanged state is entry 4. -/
def Obligations.CloseWriterFlushesThePartialByte : Prop :=
  ∀ s : State,
    (s.writer.cnt = 0 → exec .closeWriter s = .next { s with busy := false }) ∧
    (s.writer.cnt ≠ 0 →
      (s.ports.answers = [] → exec .closeWriter s = .next s) ∧
      (∀ rest, s.ports.answers = .accept :: rest → exec .closeWriter s = .next
        { s with
          writer := { buf := 0#8, cnt := 0 }
          ports := { s.ports with answers := rest, log := s.ports.log ++ [.sent s.writer.buf .accept] }
          busy := false }) ∧
      (∀ rest, s.ports.answers = .reject :: rest → exec .closeWriter s = .next (faultEntry .sinkUnwritable 0#10
        { s with ports := { s.ports with answers := rest, log := s.ports.log ++ [.sent s.writer.buf .reject] } })) ∧
      (s.writer.clean → byteBits s.writer.buf = s.writer.pending ++ List.replicate (8 - s.writer.cnt.val) false))

/-- R99, R102: READ_BITS: RESULT is the value of the next n bits; exactly ⌈max(0, n − RCNT)/8⌉ tokens are consumed; RBUF is the
last byte taken. -/
def Obligations.ReadBitsReadsTheNextBits : Prop :=
  ∀ (s : State) (n : Nat), 1 ≤ n → n ≤ 32 → n ≤ s.inBits.length →
    let k := (n - s.reader.cnt.val + 7) / 8
    ∃ r, exec (.readBits n) s = .next
        { s with
          result := BitVec.ofNat 32 (bitsValue (s.inBits.take n))
          reader := r
          ports := s.ports.perform (tookAll (s.ports.offered.take k))
          busy := false } ∧
      s.inBits = s.inBits.take n ++ readableBits r (s.ports.offered.drop k) ∧
      r.cnt.val + n = s.reader.cnt.val + 8 * k ∧
      (k = 0 → r.buf = s.reader.buf) ∧ (0 < k → s.ports.offered[k - 1]? = some (.byte r.buf))

/-- R103: READER_ALIGN. -/
def Obligations.ReaderAlignDropsTheUnreadBits : Prop :=
  ∀ s : State, exec .readerAlign s = .next { s with reader := { s.reader with cnt := 0 }, busy := false }

/-- R52, R98, R99, R121, R136, R157, R163: READ_BITS, READ_HEADER and DECODE_SYMBOL when the readable bits run out: held while IN
offers nothing, TRUNCATED_STREAM at End, SOURCE_UNREADABLE at Error; every byte and that token have been consumed. READ_HEADER
runs out so within the first NODE_CAP nodes of any header, also of one that does not fit. That a held command has consumed
nothing yet is entry 4. -/
def Obligations.StarvedReadersStopAtTheSource : Prop :=
  ∀ (s : State) (i : Instr), Starves s i →
    let k := (leadingBytes s.ports.offered).length
    (s.ports.offered.drop k = [] → exec i s = .next s) ∧
    (∀ rest, s.ports.offered.drop k = .endOfStream :: rest → exec i s = .next (faultEntry .truncatedStream 0#10
      { s with ports := s.ports.perform (tookAll (s.ports.offered.take (k + 1))) })) ∧
    (∀ rest, s.ports.offered.drop k = .error :: rest → exec i s = .next (faultEntry .sourceUnreadable 0#10
      { s with ports := s.ports.perform (tookAll (s.ports.offered.take (k + 1))) }))

/-! ### Trees (spec/41_codetable.md, spec/42_header.md) -/

/-- R37, R110: without a valid ROOT the four tree commands raise TREE_INVALID(ROOT_IDX), before anything else. -/
def Obligations.TreeCommandsNeedARoot : Prop :=
  ∀ (s : State) (i : Instr), i = .genCodes ∨ i = .writeHeader ∨ i = .decodeSymbol ∨ i = .decodeStream →
    s.root.valid = false → exec i s = .next (faultEntry .treeInvalid s.root.idx s)

/-- R41, R110, R170, R182: a root index at or above NODE_CAP raises TREE_INVALID of it, whatever the RAM holds; a root slot
below it that was never written is the model fault UNINIT (entry 7). -/
def Obligations.RootSlotIsCheckedThenRead : Prop :=
  ∀ (s : State) (i : Instr), i = .genCodes ∨ i = .writeHeader ∨ i = .decodeSymbol ∨ i = .decodeStream →
    s.root.valid = true →
    (s.cap ≤ s.root.idx.toNat → exec i s = .next (faultEntry .treeInvalid s.root.idx s)) ∧
    (s.root.idx.toNat < s.cap → s.tree.read s.root.idx.toNat = none → exec i s = .fault (.uninit s.root.idx))

/-- R110, R136, R142: a root that is its own left child: GEN_CODES, WRITE_HEADER, and a DECODE_SYMBOL or DECODE_STREAM over 0
bits raise TREE_INVALID at the visit after NODE_CAP, WRITE_HEADER having sent ⌊(WCNT + NODE_CAP)/8⌋ bytes of 0 tags, the walk
having read NODE_CAP bits. Any other cycle: TraversalStopsAtABadSlot, WalkStopsAtABadSlot. -/
def Obligations.SelfLoopRaisesTreeInvalid : Prop :=
  ∀ (s : State) (i r : Slot), s.root = { idx := i, valid := true } → i.toNat < s.cap →
    s.tree.read i.toNat = some (.internal i r) →
    exec .genCodes s = .next (faultEntry .treeInvalid i s) ∧
    (s.sinkAccepts ((s.writer.cnt.val + s.cap) / 8) →
      ∃ bs, bs.length = (s.writer.cnt.val + s.cap) / 8 ∧
        streamBits bs <+: s.writer.pending ++ List.replicate s.cap false ∧
        exec .writeHeader s = .next (faultEntry .treeInvalid i { s with ports := s.ports.perform (sentAll bs) })) ∧
    ∀ (cmd : Instr) (rest : List Bool), cmd = .decodeSymbol ∨ cmd = .decodeStream →
      s.inBits = List.replicate s.cap false ++ rest →
      exec cmd s = .next (faultEntry .treeInvalid i
        { s with ports := s.ports.perform (tookAll (s.ports.offered.take (tokensFor s.reader.cnt.val s.cap))) })

/-- R83, R111: GEN_CODES on a tree with distinct symbols and no leaf below depth 32: each leaf's entry is VALID with LEN its
path's length and PAT its path ("0" for a root that is a leaf); every other entry has VALID = 0 and its old LEN and PAT; nothing
else changes. -/
def Obligations.GenCodesBuildsTheTable : Prop :=
  ∀ (s : State) (T : HTree), s.hasTree T → T.symbols.Nodup → (∀ c ∈ T.codes, c.1.length ≤ 32) →
    ∃ m, exec .genCodes s = .next { s with code := m, busy := false } ∧
      (∀ c ∈ T.codes, m.read c.2.toNat =
        some { valid := true, len := BitVec.ofNat 6 c.1.length, pat := BitVec.ofNat 32 (bitsValue c.1) }) ∧
      ∀ sym : Symbol, sym ∉ T.symbols →
        m.read sym.toNat = (s.code.read sym.toNat).map fun e => { e with valid := false }

/-- R112: what GEN_CODES leaves when it completes on a tree of distinct symbols: one entry per leaf symbol, no code a prefix of
another, and a Kraft sum of 1 (1/2 for the single leaf), here times 2^32. -/
def Obligations.GeneratedCodesArePrefixFree : Prop :=
  ∀ (s t : State) (T : HTree), s.hasTree T → T.symbols.Nodup → exec .genCodes s = .next t → t.err = none →
    (∀ sym c, t.codeOf sym = some c ↔ (c, sym) ∈ T.codes) ∧
    (∀ sym, (t.codeOf sym).isSome = true ↔ sym ∈ T.symbols) ∧
    (∀ a b ca cb, t.codeOf a = some ca → t.codeOf b = some cb → a ≠ b → ¬ ca <+: cb) ∧
    (2 ≤ T.leaves → kraftSum t = 2 ^ 32) ∧ (T.leaves = 1 → kraftSum t = 2 ^ 31)

/-- R111, R170: the first faulting leaf in pre-order decides, whatever the RAM holds elsewhere, a whole tree or none: GEN_CODES that
comes to a leaf, no leaf passed before raising, raises CODE_TOO_LONG(symbol) if it is deeper than 32, before the duplicate check,
and else, if its symbol was already entered, TREE_INVALID at its own slot. -/
def Obligations.GenCodesReportsTheFirstFault : Prop :=
  ∀ (s : State) (ds : List Descent) (j : Slot) (sym : Symbol), s.root.valid = true →
    comesTo s.cap s.tree s.root.idx ds j → visitsSoFar ds < s.cap → j.toNat < s.cap →
    s.tree.read j.toNat = some (.leaf sym) → (∀ c ∈ leavesSoFar ds, c.1.length ≤ 32) →
    ((leavesSoFar ds).map Prod.snd).Nodup →
    (32 < ds.length → exec .genCodes s = .next (faultEntry .codeTooLong (sym.setWidth 10) s)) ∧
    (ds.length ≤ 32 → sym ∈ (leavesSoFar ds).map Prod.snd → exec .genCodes s = .next (faultEntry .treeInvalid j s))

/-- R120, R123: WRITE_HEADER on a tree of L leaves writes 11·L − 1 bits: ⌊(WCNT + 11·L − 1)/8⌋ bytes go out, and it does not
close the writer. -/
def Obligations.WriteHeaderLength : Prop :=
  ∀ (s : State) (T : HTree), s.hasTree T →
    let n := s.writer.cnt.val + (11 * T.leaves - 1)
    s.sinkAccepts (n / 8) →
    ∃ t, exec .writeHeader s = .next t ∧ t.outStream.length = s.outStream.length + n / 8 ∧ t.writer.cnt.val = n % 8 ∧
      t.code = s.code ∧ t.tree = s.tree ∧ t.root = s.root ∧ t.result = s.result

/-- R121: READ_HEADER on a header of at most NODE_CAP nodes: the nodes in pre-order from slot 0, ROOT = 0 and valid, NCNT the
node count, the slots above as before, exactly the header's bits and tokens taken, RBUF the last byte taken (R36); nothing else
changes. -/
def Obligations.ReadHeaderLoadsTheTree : Prop :=
  ∀ (s : State) (T : HTree) (rest : List Bool), s.inBits = T.header ++ rest → T.size ≤ s.cap →
    let k := (T.header.length - s.reader.cnt.val + 7) / 8
    ∃ r m t, exec .readHeader s = .next t ∧
      t = { s with
        reader := r
        root := { idx := 0#10, valid := true }
        ncnt := BitVec.ofNat 11 T.size
        tree := m
        ports := s.ports.perform (tookAll (s.ports.offered.take k))
        busy := false } ∧
      t.inBits = rest ∧ r.cnt.val + T.header.length = s.reader.cnt.val + 8 * k ∧
      (k = 0 → r.buf = s.reader.buf) ∧ (0 < k → s.ports.offered[k - 1]? = some (.byte r.buf)) ∧
      (∀ j, j < T.size → m.read j = (T.layout 0)[j]?) ∧ (∀ j, T.size ≤ j → m.read j = s.tree.read j) ∧ t.hasTree T

/-- R121: input that begins with the first NODE_CAP nodes of a header with more nodes raises TREE_OVERFLOW(0), whether or not the
header is complete: it has consumed the tokens of those nodes' bits, and not the tag of the next node. -/
def Obligations.LongHeaderRaisesTreeOverflow : Prop :=
  ∀ (s : State) (T : HTree) (rest : List Bool), s.cap < T.size → s.inBits = T.headerUpTo s.cap ++ rest →
    let k := tokensFor s.reader.cnt.val (T.headerUpTo s.cap).length
    exec .readHeader s = .next (faultEntry .treeOverflow 0#10
      { s with ports := s.ports.perform (tookAll (s.ports.offered.take k)) })

/-- R122: the bytes WRITE_HEADER and CLOSE_WRITER put out for a tree, from an empty writer, are its header, zero-padded;
READ_HEADER on them, from an empty reader, builds the same tree. -/
def Obligations.HeaderRoundTrip : Prop :=
  ∀ T : HTree, ∃ bs pad, pad < 8 ∧ streamBits bs = T.header ++ List.replicate pad false ∧
    (∀ s : State, s.hasTree T → s.writer = { buf := 0#8, cnt := 0 } → s.sinkAccepts bs.length →
      ∃ t u, exec .writeHeader s = .next t ∧ exec .closeWriter t = .next u ∧ u.outStream = s.outStream ++ bs ∧
        u.writer = { buf := 0#8, cnt := 0 }) ∧
    (∀ (v : State) (more : List Token), v.reader.cnt = 0 → v.ports.offered = bs.map .byte ++ more → T.size ≤ v.cap →
      ∃ w, exec .readHeader v = .next w ∧ w.hasTree T ∧ w.ports.offered = more)

/-! ### The stream codec (spec/43_stream.md) -/

/-- R135, R137: ENCODE_SYMBOL of a symbol without a code raises NO_CODE(symbol), ARG[31:9] ignored. -/
def Obligations.EncodeSymbolWithoutCode : Prop :=
  ∀ s : State, s.codeOf (s.arg.extractLsb' 0 9) = none →
    exec .encodeSymbol s = .next (faultEntry .noCode ((s.arg.extractLsb' 0 9).setWidth 10) s)

/-- R81, R82, R138: ENCODE_STREAM: the input bytes' codes, then pseudo-EOF's, then zero padding to a whole byte, after the bits
already pending; RESULT counts the bytes; the reader is not involved. -/
def Obligations.EncodeStreamWritesTheBody : Prop :=
  ∀ (s : State) (bytes : List Byte) (bits : List Bool) (more : List Token),
    s.ports.offered = bytes.map .byte ++ .endOfStream :: more →
    s.encodeAll (bytes.map (BitVec.setWidth 9) ++ [257#9]) = some bits → s.writer.clean →
    s.sinkAccepts ((s.writer.cnt.val + bits.length + 7) / 8) →
    ∃ ops bs pad,
      exec .encodeStream s = .next
        { s with
          result := BitVec.ofNat 32 bytes.length
          writer := { buf := 0#8, cnt := 0 }
          ports := s.ports.perform ops
          busy := false } ∧
      pad < 8 ∧ streamBits bs = s.writer.pending ++ bits ++ List.replicate pad false ∧
      ops.filterMap PortOp.token = bytes.map .byte ++ [.endOfStream] ∧
      ops.filterMap PortOp.accepted = bs ∧ ops.filterMap PortOp.answered = List.replicate bs.length .accept

/-- R52, R135, R138, R157, R170: where ENCODE_STREAM stops after encoding `bytes`: held while IN offers nothing; SOURCE_UNREADABLE
at Error; NO_CODE of a byte, or of 257 at End, without a code. The bytes sent before stand. That a held command has consumed
and sent nothing yet is entry 4. Its stops at the sink: EncodeStreamStopsAtTheSink. -/
def Obligations.EncodeStreamStopsInOrder : Prop :=
  ∀ (s : State) (bytes : List Byte) (bits : List Bool) (more : List Token),
    s.ports.offered = bytes.map .byte ++ more → s.encodeAll (bytes.map (BitVec.setWidth 9)) = some bits →
    s.sinkAccepts ((s.writer.cnt.val + bits.length) / 8) →
    (more = [] → exec .encodeStream s = .next s) ∧
    ∀ (x : Token) (rest : List Token) (e : ErrorKind) (info : BitVec 10), more = x :: rest →
      (x = .error ∧ e = .sourceUnreadable ∧ info = 0#10) ∨
        (∃ b : Byte, x = .byte b ∧ s.codeOf (b.setWidth 9) = none ∧ e = .noCode ∧ info = b.setWidth 10) ∨
        (x = .endOfStream ∧ s.codeOf 257#9 = none ∧ e = .noCode ∧ info = 257#10) →
      ∃ ops bs,
        exec .encodeStream s = .next (faultEntry e info { s with ports := s.ports.perform ops }) ∧
        ops.filterMap PortOp.token = bytes.map .byte ++ [x] ∧ ops.filterMap PortOp.accepted = bs ∧
        ops.filterMap PortOp.answered = List.replicate bs.length .accept ∧
        bs.length = (s.writer.cnt.val + bits.length) / 8 ∧ streamBits bs <+: s.writer.pending ++ bits

/-- R36, R136, R139: DECODE_SYMBOL: RESULT is the symbol one walk ends at, EOS whether it is 257, exactly the walk's bits taken,
RBUF the last byte taken. Only the slots on the walk's path need hold anything. -/
def Obligations.DecodeSymbolWalksTheTree : Prop :=
  ∀ (s : State) (path rest : List Bool) (sym : Symbol), s.walksTo path sym → s.inBits = path ++ rest →
    let k := tokensFor s.reader.cnt.val path.length
    ∃ r, exec .decodeSymbol s = .next
        { s with
          result := sym.setWidth 32
          eos := decide (sym = 257#9)
          reader := r
          ports := s.ports.perform (tookAll (s.ports.offered.take k))
          busy := false } ∧
      readableBits r (s.ports.offered.drop k) = rest ∧ r.cnt.val + path.length = s.reader.cnt.val + 8 * k ∧
      (k = 0 → r.buf = s.reader.buf) ∧ (0 < k → s.ports.offered[k - 1]? = some (.byte r.buf))

/-- R136, R140: DECODE_STREAM: the bytes the walks end at up to pseudo-EOF go to OUT, raw; RESULT counts them; EOS = 1; the rest of
the current byte is dropped and no further token is consumed; the writer is not involved. -/
def Obligations.DecodeStreamWritesTheBytes : Prop :=
  ∀ (s : State) (bytes : List Byte) (rest : List Bool),
    s.walksThrough (bytes.map (BitVec.setWidth 9) ++ [257#9]) s.inBits rest → s.sinkAccepts bytes.length →
    let k := tokensFor s.reader.cnt.val (s.inBits.length - rest.length)
    ∃ ops buf,
      exec .decodeStream s = .next
        { s with
          result := BitVec.ofNat 32 bytes.length
          eos := true
          reader := { buf := buf, cnt := 0 }
          ports := s.ports.perform ops
          busy := false } ∧
      ops.filterMap PortOp.accepted = bytes ∧ ops.filterMap PortOp.answered = List.replicate bytes.length .accept ∧
      ops.filterMap PortOp.token = s.ports.offered.take k ∧
      (k = 0 → buf = s.reader.buf) ∧ (0 < k → s.ports.offered[k - 1]? = some (.byte buf))

/-- R52, R98, R136, R140, R157, R170: where DECODE_STREAM stops after the bytes `bytes`: a walk to a symbol 256 or 258..511 raises
BAD_SYMBOL, before it is emitted; input that ends within a walk is held while IN offers nothing, and raises TRUNCATED_STREAM at
End and SOURCE_UNREADABLE at Error. The bytes sent before stand, and the tokens consumed are those of the bits read. That a held
command has consumed and sent nothing yet is entry 4. Its stops at the sink: DecodeStreamStopsAtTheSink; at a slot it cannot
visit: WalkStopsAtABadSlot. -/
def Obligations.DecodeStreamStopsInOrder : Prop :=
  ∀ (s : State) (bytes : List Byte) (mid : List Bool),
    s.walksThrough (bytes.map (BitVec.setWidth 9)) s.inBits mid → s.sinkAccepts bytes.length →
    let n := (leadingBytes s.ports.offered).length
    (s.walkGoesOn mid → s.ports.offered.drop n = [] → exec .decodeStream s = .next s) ∧
    ∀ (e : ErrorKind) (info : BitVec 10) (k : Nat),
      (∃ path rest sym, mid = path ++ rest ∧ s.walksTo path sym ∧ 255 < sym.toNat ∧ sym ≠ 257#9 ∧
        e = .badSymbol ∧ info = sym.setWidth 10 ∧ k = tokensFor s.reader.cnt.val (s.inBits.length - rest.length)) ∨
      (s.walkGoesOn mid ∧ (∃ more, s.ports.offered.drop n = .endOfStream :: more) ∧
        e = .truncatedStream ∧ info = 0#10 ∧ k = n + 1) ∨
      (s.walkGoesOn mid ∧ (∃ more, s.ports.offered.drop n = .error :: more) ∧
        e = .sourceUnreadable ∧ info = 0#10 ∧ k = n + 1) →
      ∃ ops, exec .decodeStream s = .next (faultEntry e info { s with ports := s.ports.perform ops }) ∧
        ops.filterMap PortOp.token = s.ports.offered.take k ∧ ops.filterMap PortOp.accepted = bytes ∧
        ops.filterMap PortOp.answered = List.replicate bytes.length .accept

/-- R141, with the host programs of R86 and R87: COMPRESS of any bytes with a loaded tree, then DECOMPRESS of what it put out,
gives the bytes back, counts them, ends with EOS = 1 and no error. -/
def Obligations.CompressThenDecompress : Prop :=
  ∀ (s : State) (T : HTree) (bytes : List Byte) (more : List Token),
    s.busy = false → s.err = none → s.writer = { buf := 0#8, cnt := 0 } → s.hasTree T → T.symbols.Nodup →
    (∀ c ∈ T.codes, c.1.length ≤ 32) → 257#9 ∈ T.symbols → (∀ b ∈ bytes, b.setWidth 9 ∈ T.symbols) →
    s.ports.offered = bytes.map .byte ++ .endOfStream :: more →
    s.sinkAccepts ((T.header.length + 32 * (bytes.length + 1) + 7) / 8) →
    ∃ u out, play (programAgenda compressOp) s = .next u ∧ u.outStream = s.outStream ++ out ∧
      u.result = BitVec.ofNat 32 bytes.length ∧ u.err = none ∧ u.busy = false ∧ u.ports.offered = more ∧
      ∀ (v : State) (rest : List Token),
        v.busy = false → v.err = none → v.reader.cnt = 0 → T.size ≤ v.cap → v.ports.offered = out.map .byte ++ rest →
        v.sinkAccepts bytes.length →
        ∃ w, play (programAgenda decompressOp) v = .next w ∧ w.outStream = v.outStream ++ bytes ∧
          w.result = BitVec.ofNat 32 bytes.length ∧ w.eos = true ∧ w.err = none ∧ w.busy = false ∧
          w.ports.offered = rest

/-! ### Faults (spec/60_exceptions.md) -/

/-- R165, R166, R168: a command that faults leaves BUSY = 0, CMD, ARG and OVERRUN as they were, every tree slot marked written
and NCNT within its range. The values of the rest are free (entry 5) and no statement fixes them. -/
def Obligations.FaultEntryKeepsWhatItMust : Prop :=
  ∀ (i : Instr) (s t : State), i ≠ .reset → s.err = none → exec i s = .next t → t.err ≠ none →
    t.busy = false ∧ t.cmd = s.cmd ∧ t.arg = s.arg ∧ t.overrun = s.overrun ∧ t.params = s.params ∧
    t.ncnt.toNat ≤ t.cap ∧ (∀ k, k < t.cap → (t.tree.read k).isSome = true) ∧
    (∀ sym : Symbol, (t.code.read sym.toNat).isSome = true)

/-- R53, R98, R163, R169, R170: a command's port transactions and its error agree: the log grows by them; nothing follows a
rejected byte (SINK_UNWRITABLE) or an Error token (SOURCE_UNREADABLE), and those errors, and TRUNCATED_STREAM after an End, come
from nothing else. -/
def Obligations.PortTransactionsMatchTheError : Prop :=
  ∀ (i : Instr) (s t : State), i ≠ .reset → s.err = none → exec i s = .next t →
    ∃ ops, t.ports.log = s.ports.log ++ ops ∧
      s.ports.offered = ops.filterMap PortOp.token ++ t.ports.offered ∧
      s.ports.answers = ops.filterMap PortOp.answered ++ t.ports.answers ∧
      (∀ b, .sent b .reject ∈ ops → t.err = some .sinkUnwritable) ∧
      (t.err = some .sinkUnwritable → ∃ l b, ops = l ++ [.sent b .reject] ∧ ∀ c, .sent c .reject ∉ l) ∧
      (.took .error ∈ ops → t.err = some .sourceUnreadable) ∧
      (t.err = some .sourceUnreadable → ∃ l, ops = l ++ [.took .error] ∧ .took .error ∉ l) ∧
      (t.err = some .truncatedStream → ∃ l, ops = l ++ [.took .endOfStream])

/-- R34, R167, R173: ERR keeps the first error, with its ERRINFO and the faulting word, until a reset clears it. -/
def Obligations.ErrorIsSticky : Prop :=
  ∀ (s t : State) (e : ErrorKind), Inv s → s.err = some e → step s = .next t →
    (¬ s.nextEvent.resets → t.err = some e ∧ t.errInfo = s.errInfo ∧ t.cmd = s.cmd ∧ t.busy = false) ∧
    (s.nextEvent.resets → t.err = none ∧ t.errInfo = 0#10)

/-- R33: OVERRUN becomes 1 exactly when a host write is dropped, and stays 1 until reset. -/
def Obligations.OverrunIsSticky : Prop :=
  ∀ s t : State, Inv s → step s = .next t →
    (¬ s.nextEvent.resets → (t.overrun = true ↔ s.overrun = true ∨
      ∃ off v, s.nextEvent = .host (.write 32 off v) ∧ (s.busy = true ∨ (off = 0x0004#14 ∧ s.err ≠ none)))) ∧
    (s.nextEvent.resets → t.overrun = false)

/-! ### The host port (spec/10_state.md, sections 3 to 6 and 9) -/

/-- R23, R182: an access of another width or alignment is refused, and no other access is. -/
def Obligations.OnlyIllegalAccessesAreRefused : Prop :=
  ∀ (s : State) (width : Nat) (off : Offset) (v : Word),
    (width ≠ 32 ∨ off.toNat % 4 ≠ 0 →
      handle (.host (.read width off)) s = .refused (.badAccess width off) ∧
      handle (.host (.write width off v)) s = .refused (.badAccess width off)) ∧
    (off.toNat % 4 = 0 → (∃ t, handle (.host (.read 32 off)) s = .next t) ∧
      ∃ t, handle (.host (.write 32 off v)) s = .next t)

/-- R24 to R42, R77, R78: what a read of an idle block returns, register by register, also while ERR ≠ 0 (R167); it has no other
effect on the block (R56); what is recorded of the read is the model's own (entries 6, 11, 14). -/
def Obligations.IdleReadsReturnTheRegisters : Prop :=
  ∀ (s : State) (off : Offset), s.busy = false → off.toNat % 4 = 0 →
    ∃ v, handle (.host (.read 32 off)) s = .next
        { s with
          reads := s.reads ++ [v]
          sawIdle := decide (off = 0x0010#14) || s.sawIdle
          draws := s.draws + 1 } ∧
      (off = 0x0000#14 → v = 0x48554631#32) ∧ (off = 0x0004#14 → v = s.cmd) ∧ (off = 0x0008#14 → v = s.arg) ∧
      (off = 0x000C#14 → v = s.result) ∧
      (off = 0x0010#14 → v.getLsbD 0 = false ∧ v.getLsbD 1 = s.eos ∧ v.getLsbD 2 = s.overrun ∧
        v.extractLsb' 3 5 = 0#5 ∧ v.extractLsb' 8 4 = errField s.err ∧ v.extractLsb' 12 4 = 0#4 ∧
        v.extractLsb' 16 10 = s.errInfo ∧ v.extractLsb' 26 6 = 0#6) ∧
      (off = 0x0014#14 → v.extractLsb' 0 8 = s.writer.buf ∧ (v.extractLsb' 8 3).toNat = s.writer.cnt.val ∧
        v.extractLsb' 11 21 = 0#21) ∧
      (off = 0x0018#14 → v.extractLsb' 0 8 = s.reader.buf ∧ (v.extractLsb' 8 4).toNat = s.reader.cnt.val ∧
        v.extractLsb' 12 20 = 0#20) ∧
      (off = 0x001C#14 → v.extractLsb' 0 10 = s.root.idx ∧ v.extractLsb' 10 21 = 0#21 ∧ v.getLsbD 31 = s.root.valid) ∧
      (off = 0x0020#14 → v.extractLsb' 0 11 = s.ncnt ∧ v.extractLsb' 11 21 = 0#21) ∧
      (off = 0x0024#14 → v.toNat = s.cap) ∧
      ((0x0028 ≤ off.toNat ∧ off.toNat < 0x1000) ∨ 0x3000 ≤ off.toNat → v = 0#32) ∧
      (∀ i, i < 1024 → off.toNat = 0x1000 + 4 * i →
        (s.cap ≤ i → v = 0#32) ∧
        (∀ sym, i < s.cap → s.tree.read i = some (.leaf sym) → v = 0x80000000#32 ||| sym.setWidth 32) ∧
        (∀ l r, i < s.cap → s.tree.read i = some (.internal l r) → v = (l.setWidth 32 <<< 16) ||| r.setWidth 32)) ∧
      (∀ sym : Symbol, off.toNat = 0x2000 + 8 * sym.toNat → v.getLsbD 31 = (s.validCode sym).isSome ∧
        v.extractLsb' 6 25 = 0#25 ∧ ∀ e, s.code.read sym.toNat = some e → v.extractLsb' 0 6 = e.len) ∧
      (∀ (sym : Symbol) (e : CodeEntry), off.toNat = 0x2004 + 8 * sym.toNat → s.code.read sym.toNat = some e → v = e.pat)

/-- R25, R46, R56: what a read of a busy block returns: the five constant or stable registers as they are, 0 at a reserved
offset, and at every other a free value, drawn afresh (entry 6). -/
def Obligations.BusyReadsAreFreeOrStable : Prop :=
  ∀ (s : State) (off : Offset), s.busy = true → off.toNat % 4 = 0 →
    ∃ v, handle (.host (.read 32 off)) s = .next { s with reads := s.reads ++ [v], draws := s.draws + 1 } ∧
      (off = 0x0000#14 → v = 0x48554631#32) ∧ (off = 0x0004#14 → v = s.cmd) ∧ (off = 0x0008#14 → v = s.arg) ∧
      (off = 0x0010#14 → v = statusWord s ∧ v.getLsbD 0 = true) ∧ (off = 0x0024#14 → v.toNat = s.cap) ∧
      ((0x0028 ≤ off.toNat ∧ off.toNat < 0x1000) ∨ 0x3000 ≤ off.toNat → v = 0#32) ∧
      (off = 0x000C#14 ∨ (0x0014 ≤ off.toNat ∧ off.toNat < 0x0024) ∨ (0x1000 ≤ off.toNat ∧ off.toNat < 0x3000) →
        v = Config.freeRead s.draws)

/-- R47: every write to a busy block is dropped and sets OVERRUN, but for RESET. The record of R204 that a write to CMD clears is
the model's own (entry 14). -/
def Obligations.BusyWritesAreDropped : Prop :=
  ∀ (s : State) (off : Offset) (v : Word), s.busy = true → off.toNat % 4 = 0 →
    handle (.host (.write 32 off v)) s =
      if off ≠ 0x0004#14 then .next { s with overrun := true }
      else if v = 0x0000000F#32 then exec .reset { s with sawIdle := false }
      else .next { s with overrun := true, sawIdle := false }

/-- R25, R28, R37, R40, R56, R167: what a write to an idle block does, off CMD: ARG, both fields of ROOT, a tree slot below
NODE_CAP, and nothing anywhere else; also while ERR ≠ 0. -/
def Obligations.IdleWritesStore : Prop :=
  ∀ (s : State) (off : Offset) (v : Word), s.busy = false → off.toNat % 4 = 0 → off ≠ 0x0004#14 →
    let o := handle (.host (.write 32 off v)) s
    (off = 0x0008#14 → o = .next { s with arg := v }) ∧
    (off = 0x001C#14 → o = .next { s with root := { idx := v.extractLsb' 0 10, valid := v.getLsbD 31 } }) ∧
    (∀ i, i < s.cap → off.toNat = 0x1000 + 4 * i →
      ∃ m, o = .next { s with tree := m } ∧
        m.read i = some (if v.getLsbD 31 then .leaf (v.extractLsb' 0 9)
          else .internal (v.extractLsb' 16 10) (v.extractLsb' 0 10)) ∧
        ∀ j, j ≠ i → m.read j = s.tree.read j) ∧
    (off ≠ 0x0008#14 → off ≠ 0x001C#14 → (∀ i, i < s.cap → off.toNat ≠ 0x1000 + 4 * i) → o = .next s)

/-- R40, R77: a tree word written to an idle block reads back as the canonical word of its node: the discarded bits are 0. -/
def Obligations.TreeWordReadsBackCanonical : Prop :=
  ∀ (s : State) (i : Nat) (v : Word), s.busy = false → i < s.cap →
    ∃ t u, handle (.host (.write 32 (BitVec.ofNat 14 (0x1000 + 4 * i)) v)) s = .next t ∧
      handle (.host (.read 32 (BitVec.ofNat 14 (0x1000 + 4 * i)))) t = .next u ∧
      u.reads = s.reads ++ [if v.getLsbD 31 then v &&& 0x800001FF#32 else v &&& 0x03FF03FF#32]

/-! ### Invariants and frames -/

/-- Every step keeps the invariant of Safety.lean: R35, R38, R43, R164, R167, R173, the RAMs' canonical form, and
the record of entry 14. -/
def Obligations.EveryStepKeepsTheInvariant : Prop :=
  ∀ s t : State, Inv s → step s = .next t → Inv t

/-- The invariant holds right after reset. -/
def Obligations.InvariantHoldsAtReset : Prop := Inv State.reset

/-- R42, R65, R113, R168: the code table changes only at a reset, when the engine runs GEN_CODES, and at a fault. -/
def Obligations.CodeTableChangesOnlyByGenCodes : Prop :=
  ∀ s t : State, Inv s → step s = .next t → t.code ≠ s.code →
    s.nextEvent.resets ∨ (s.nextEvent = .engine ∧ s.busy = true ∧ (s.cmd = 0x00000005#32 ∨ (s.err = none ∧ t.err ≠ none)))

/-- R28, R33, R45: no command but RESET writes ARG, CMD, OVERRUN or a parameter, whatever its end. -/
def Obligations.CommandsKeepTheirOperands : Prop :=
  ∀ (i : Instr) (s t : State), i ≠ .reset → exec i s = .next t →
    t.params = s.params ∧ t.cmd = s.cmd ∧ t.arg = s.arg ∧ t.overrun = s.overrun ∧ t.agenda = s.agenda ∧ t.reads = s.reads ∧
      t.sawIdle = s.sawIdle

/-- R29, R32, R61, R62, R100 to R140 ("Flags written", "State written"): what a command that does not fault leaves alone: which
commands write RESULT, EOS, the writer, the reader, the tree and its root, the code table, and which use which port. -/
def Obligations.CommandsWriteOnlyTheirOwnState : Prop :=
  ∀ (i : Instr) (s t : State), i ≠ .reset → exec i s = .next t → s.err = none → t.err = none →
    t.errInfo = s.errInfo ∧ t.draws = s.draws ∧
    (i ≠ .encodeStream → i ≠ .decodeSymbol → i ≠ .decodeStream → (∀ n, i ≠ .readBits n) → t.result = s.result) ∧
    (i ≠ .decodeSymbol → i ≠ .decodeStream → t.eos = s.eos) ∧
    (i ≠ .closeWriter → i ≠ .writeHeader → i ≠ .encodeSymbol → i ≠ .encodeStream → (∀ n, i ≠ .writeBits n) →
      t.writer = s.writer ∧ (i ≠ .decodeStream → t.ports.answers = s.ports.answers ∧ t.outStream = s.outStream)) ∧
    (i ≠ .readerAlign → i ≠ .readHeader → i ≠ .decodeSymbol → i ≠ .decodeStream → (∀ n, i ≠ .readBits n) →
      t.reader = s.reader ∧ (i ≠ .encodeStream → t.ports.offered = s.ports.offered ∧ t.consumed = s.consumed)) ∧
    (i ≠ .readHeader → t.root = s.root ∧ t.ncnt = s.ncnt ∧ t.tree = s.tree) ∧
    (i ≠ .genCodes → t.code = s.code)

/-! ### Where a tree command cannot go on (spec/41_codetable.md, spec/43_stream.md) -/

/-- R41, R110, R111, R120, R170: GEN_CODES and WRITE_HEADER that come to a slot they cannot visit, at any place of the tree and
along any cycle: an index at or above NODE_CAP, or the visit after NODE_CAP, raises TREE_INVALID of it; a slot below, never
written, is UNINIT (entry 7). GEN_CODES comes there if no leaf passed before it raises; WRITE_HEADER has then sent the whole bytes of the
header bits of the nodes visited before. Where a leaf or the sink stops them first: GenCodesReportsTheFirstFault,
WriteHeaderStopsAtTheSink. -/
def Obligations.TraversalStopsAtABadSlot : Prop :=
  ∀ (s : State) (ds : List Descent) (j : Slot), s.root.valid = true → comesTo s.cap s.tree s.root.idx ds j →
    visitsSoFar ds ≤ s.cap →
    (((leavesSoFar ds).map Prod.snd).Nodup → (∀ c ∈ leavesSoFar ds, c.1.length ≤ 32) →
      (s.cap ≤ j.toNat ∨ visitsSoFar ds = s.cap → exec .genCodes s = .next (faultEntry .treeInvalid j s)) ∧
      (j.toNat < s.cap → visitsSoFar ds < s.cap → s.tree.read j.toNat = none → exec .genCodes s = .fault (.uninit j))) ∧
    let bits := headerSoFar ds
    (s.sinkAccepts ((s.writer.cnt.val + bits.length) / 8) →
      (s.cap ≤ j.toNat ∨ visitsSoFar ds = s.cap →
        ∃ bs, bs.length = (s.writer.cnt.val + bits.length) / 8 ∧ streamBits bs <+: s.writer.pending ++ bits ∧
          exec .writeHeader s = .next (faultEntry .treeInvalid j { s with ports := s.ports.perform (sentAll bs) })) ∧
      (j.toNat < s.cap → visitsSoFar ds < s.cap → s.tree.read j.toNat = none → exec .writeHeader s = .fault (.uninit j)))

/-- R41, R110, R136, R139, R140, R170: the same of the walks: DECODE_SYMBOL whose bits lead along `path` to such a slot, and
DECODE_STREAM whose walks first reach the leaves of `codes`, with the bytes of `codes` then sent. The bits read are those of the
paths, and no more. -/
def Obligations.WalkStopsAtABadSlot : Prop :=
  ∀ (s : State) (codes : List (List Bool × Byte)) (path rest : List Bool) (j : Slot), s.root.valid = true →
    (∀ c ∈ codes, s.leafAlong c.1 (c.2.setWidth 9)) → slotAlong s.cap s.tree s.root.idx path = some j → path.length ≤ s.cap →
    let bits := codes.flatMap Prod.fst ++ path
    s.inBits = bits ++ rest → s.sinkAccepts codes.length →
    let k := tokensFor s.reader.cnt.val bits.length
    (s.cap ≤ j.toNat ∨ path.length = s.cap →
      (codes = [] → exec .decodeSymbol s = .next (faultEntry .treeInvalid j
        { s with ports := s.ports.perform (tookAll (s.ports.offered.take k)) })) ∧
      ∃ ops, exec .decodeStream s = .next (faultEntry .treeInvalid j { s with ports := s.ports.perform ops }) ∧
        ops.filterMap PortOp.token = s.ports.offered.take k ∧ ops.filterMap PortOp.accepted = codes.map Prod.snd ∧
        ops.filterMap PortOp.answered = List.replicate codes.length .accept) ∧
    (j.toNat < s.cap → path.length < s.cap → s.tree.read j.toNat = none →
      (codes = [] → exec .decodeSymbol s = .fault (.uninit j)) ∧ exec .decodeStream s = .fault (.uninit j))

/-! ### Where a stream command stops at the sink (20_memory R53) -/

/-- R53, R97, R138, R157, R163, R169: ENCODE_STREAM that has encoded `bytes` when, at the code of the next byte or at the code of
257 and the padding after End, the sink gives no answer (held) or rejects the next byte (SINK_UNWRITABLE) after k accepted ones.
The token is consumed, the k bytes stand. That a held command has consumed and sent nothing yet is entry 4. -/
def Obligations.EncodeStreamStopsAtTheSink : Prop :=
  ∀ (s : State) (bytes : List Byte) (bits code : List Bool) (x : Token) (rest : List Token) (pad k : Nat) (more : List Answer),
    s.ports.offered = bytes.map .byte ++ x :: rest → s.encodeAll (bytes.map (BitVec.setWidth 9)) = some bits →
    (∃ b : Byte, x = .byte b ∧ s.codeOf (b.setWidth 9) = some code ∧ pad = 0) ∨
      (x = .endOfStream ∧ s.codeOf 257#9 = some code ∧ s.writer.clean ∧
        pad = (8 - (s.writer.cnt.val + bits.length + code.length) % 8) % 8) →
    s.ports.answers = List.replicate k .accept ++ more → (s.writer.cnt.val + bits.length) / 8 ≤ k →
    k < (s.writer.cnt.val + bits.length + code.length + pad) / 8 →
    (more = [] → exec .encodeStream s = .next s) ∧
    ∀ answers, more = .reject :: answers →
      ∃ ops bs b,
        exec .encodeStream s = .next (faultEntry .sinkUnwritable 0#10
          { s with ports := s.ports.perform (ops ++ [.sent b .reject]) }) ∧
        ops.filterMap PortOp.token = bytes.map .byte ++ [x] ∧ ops.filterMap PortOp.accepted = bs ∧
        ops.filterMap PortOp.answered = List.replicate k .accept ∧ bs.length = k ∧
        streamBits (bs ++ [b]) <+: s.writer.pending ++ bits ++ code ++ List.replicate pad false

/-- R53, R140, R157, R163, R169: DECODE_STREAM whose walks yield `bytes` and then b, when the sink, after accepting `bytes`, gives
no answer (held) or rejects b (SINK_UNWRITABLE). The tokens consumed are those of the bits read, those of b's walk among them.
That a held command has consumed and sent nothing yet is entry 4. -/
def Obligations.DecodeStreamStopsAtTheSink : Prop :=
  ∀ (s : State) (bytes : List Byte) (b : Byte) (rest : List Bool) (more : List Answer),
    s.walksThrough ((bytes ++ [b]).map (BitVec.setWidth 9)) s.inBits rest →
    s.ports.answers = List.replicate bytes.length .accept ++ more →
    (more = [] → exec .decodeStream s = .next s) ∧
    ∀ answers, more = .reject :: answers →
      ∃ ops,
        exec .decodeStream s = .next (faultEntry .sinkUnwritable 0#10
          { s with ports := s.ports.perform (ops ++ [.sent b .reject]) }) ∧
        ops.filterMap PortOp.token = s.ports.offered.take (tokensFor s.reader.cnt.val (s.inBits.length - rest.length)) ∧
        ops.filterMap PortOp.accepted = bytes ∧ ops.filterMap PortOp.answered = List.replicate bytes.length .accept

/-! ### The end of a run (spec/70_reset_and_hazards.md) -/

/-- R204: a host sequence ends exactly when the host reads STATUS with BUSY = 0 after its last command, and has then ended,
whatever else happens; one whose last command is pending or held has not. Its end state stands until the host writes a
register or a reset comes. The record of that read is the model's own (entry 14). -/
def Obligations.RunEndsWhenTheHostSeesIt : Prop :=
  ∀ s t : State, Inv s → step s = .next t →
    (s.busy = true → s.ended = false) ∧
    (s.ended = true → t.ended = true) ∧
    (s.ended = false → (t.ended = true ↔
      s.nextEvent = .host (.read 32 0x0010#14) ∧ s.busy = false ∧
        ∀ e ∈ s.agenda, ∀ w, e ≠ .host (.write 32 0x0004#14 w))) ∧
    (s.ended = true → ¬ s.nextEvent.resets → (∀ n off v, s.nextEvent ≠ .host (.write n off v)) →
      ∀ any, t.endState any = s.endState any)

/-! ### The error codes (spec/60_exceptions.md) -/

/-- R34, R163: the number of each error in STATUS.ERR, as a host reads it in any state. -/
def Obligations.StatusShowsTheErrorCode : Prop :=
  ∀ s : State, ∃ v t, handle (.host (.read 32 0x0010#14)) s = .next t ∧ t.reads = s.reads ++ [v] ∧
    (s.err = none → v.extractLsb' 8 4 = 0#4) ∧
    (s.err = some .sourceUnreadable → v.extractLsb' 8 4 = 1#4) ∧
    (s.err = some .sinkUnwritable → v.extractLsb' 8 4 = 2#4) ∧
    (s.err = some .truncatedStream → v.extractLsb' 8 4 = 3#4) ∧
    (s.err = some .badCommand → v.extractLsb' 8 4 = 4#4) ∧
    (s.err = some .badLength → v.extractLsb' 8 4 = 5#4) ∧
    (s.err = some .noCode → v.extractLsb' 8 4 = 6#4) ∧
    (s.err = some .treeInvalid → v.extractLsb' 8 4 = 7#4) ∧
    (s.err = some .codeTooLong → v.extractLsb' 8 4 = 8#4) ∧
    (s.err = some .treeOverflow → v.extractLsb' 8 4 = 9#4) ∧
    (s.err = some .badSymbol → v.extractLsb' 8 4 = 10#4)

/-! ### Where a header stops at the sink before its end (20_memory R53, spec/42_header.md) -/

/-- R53, R110, R120, R157, R163, R170: WRITE_HEADER on its way to a slot, which it may or may not be able to visit, in a RAM that
need hold no whole tree: when the sink, after accepting k bytes, fewer than the header bits of the nodes visited before fill,
gives no answer (held) or rejects the next byte (SINK_UNWRITABLE, the accepted bytes standing). That a held command has sent
nothing yet is entry 4. -/
def Obligations.WriteHeaderStopsAtTheSink : Prop :=
  ∀ (s : State) (ds : List Descent) (j : Slot) (k : Nat) (more : List Answer), s.root.valid = true →
    comesTo s.cap s.tree s.root.idx ds j → visitsSoFar ds ≤ s.cap →
    s.ports.answers = List.replicate k .accept ++ more → k < (s.writer.cnt.val + (headerSoFar ds).length) / 8 →
    (more = [] → exec .writeHeader s = .next s) ∧
    ∀ rest, more = .reject :: rest →
      ∃ bs b, bs.length = k ∧ streamBits (bs ++ [b]) <+: s.writer.pending ++ headerSoFar ds ∧
        exec .writeHeader s = .next (faultEntry .sinkUnwritable 0#10
          { s with ports := s.ports.perform (sentAll bs ++ [.sent b .reject]) })

end Statements
end

