-- ==== Sys2Proof/Laws/Memory.lean ====
section
/-! SUPPORT. The RAM operations: read after write, and that every operation keeps the canonical form. -/

namespace Sys2Proof.Machine.Memory

variable {α : Type}

theorem read_nil (a : Nat) : Memory.read ([] : Memory α) a = none := rfl

theorem read_cons (b : Nat) (w : α) (m : Memory α) (a : Nat) :
    Memory.read ((b, w) :: m) a = if a = b then some w else Memory.read m a := rfl

/-- A write is read back. -/
theorem read_write_same (m : Memory α) (a : Nat) (v : α) : (m.write a v).read a = some v := by
  induction m with
  | nil => simp [Memory.write, Memory.read]
  | cons c m ih =>
    obtain ⟨b, w⟩ := c
    unfold Memory.write
    split
    · simp [Memory.read]
    · split
      · simp [Memory.read]
      · rename_i h1 h2
        simpa [Memory.read, h2] using ih

/-- A write leaves every other index alone. -/
theorem read_write_other (m : Memory α) {a b : Nat} (v : α) (h : b ≠ a) : (m.write a v).read b = m.read b := by
  induction m with
  | nil => simp [Memory.write, Memory.read, h]
  | cons c m ih =>
    obtain ⟨k, w⟩ := c
    unfold Memory.write
    split
    · simp [Memory.read, h]
    · split
      · rename_i h1 h2
        subst h2
        simp [Memory.read, h]
      · simp only [Memory.read]
        rw [ih]

/-- Read after write, both cases. -/
theorem read_write (m : Memory α) (a b : Nat) (v : α) :
    (m.write a v).read b = if b = a then some v else m.read b := by
  split
  · rename_i h; subst h; exact read_write_same m b v
  · rename_i h; exact read_write_other m v h

theorem mem_write {m : Memory α} {a : Nat} {v : α} {c : Nat × α} (h : c ∈ m.write a v) : c = (a, v) ∨ c ∈ m := by
  induction m with
  | nil => simpa [Memory.write] using h
  | cons d m ih =>
    obtain ⟨k, w⟩ := d
    unfold Memory.write at h
    split at h
    · simpa using h
    · split at h
      · rcases List.mem_cons.1 h with h | h
        · exact .inl h
        · exact .inr (List.mem_cons_of_mem _ h)
      · rcases List.mem_cons.1 h with h | h
        · exact .inr (by simp [h])
        · rcases ih h with h | h
          · exact .inl h
          · exact .inr (List.mem_cons_of_mem _ h)

/-- A write inside the RAM keeps the canonical form. -/
theorem wf_write {n : Nat} {m : Memory α} {a : Nat} (v : α) (hm : m.wf n) (ha : a < n) : (m.write a v).wf n := by
  obtain ⟨hs, hb⟩ := hm
  refine ⟨?_, fun c hc => ?_⟩
  · clear hb
    induction m with
    | nil => simp [Memory.write]
    | cons d m ih =>
      obtain ⟨k, w⟩ := d
      obtain ⟨hk, hm⟩ := List.pairwise_cons.1 hs
      unfold Memory.write
      split
      · rename_i hak
        refine List.pairwise_cons.2 ⟨fun c hc => ?_, hs⟩
        rcases List.mem_cons.1 hc with rfl | hc
        · exact hak
        · exact Nat.lt_trans hak (hk c hc)
      · split
        · rename_i h1 h2
          subst h2
          exact List.pairwise_cons.2 ⟨hk, hm⟩
        · rename_i h1 h2
          refine List.pairwise_cons.2 ⟨fun c hc => ?_, ih hm⟩
          rcases mem_write hc with rfl | hc
          · change k < a; omega
          · exact hk c hc
  · rcases mem_write hc with rfl | hc
    · exact ha
    · exact hb c hc

theorem wf_nil (n : Nat) : Memory.wf n ([] : Memory α) := ⟨List.Pairwise.nil, fun _ hc => nomatch hc⟩

/-- A full RAM is canonical. -/
theorem wf_tabulate (n : Nat) (f : Nat → α) : (Memory.tabulate n f).wf n := by
  refine ⟨?_, ?_⟩
  · unfold Memory.tabulate
    rw [List.pairwise_map]
    exact List.pairwise_lt_range
  · intro c hc
    simp only [Memory.tabulate, List.mem_map, List.mem_range] at hc
    obtain ⟨i, hi, rfl⟩ := hc
    exact hi

theorem read_map_index (l : List Nat) (f : Nat → α) (a : Nat) :
    Memory.read (l.map fun i => (i, f i)) a = if a ∈ l then some (f a) else none := by
  induction l with
  | nil => simp [Memory.read]
  | cons b l ih =>
    simp only [List.map_cons, Memory.read, List.mem_cons]
    by_cases h : a = b
    · subst h; simp
    · simp [h, ih]

/-- What a full RAM holds. -/
theorem read_tabulate (n : Nat) (f : Nat → α) (a : Nat) :
    (Memory.tabulate n f).read a = if a < n then some (f a) else none := by
  unfold Memory.tabulate
  rw [read_map_index]
  simp

/-- Clearing VALID everywhere keeps LEN and PAT (41_codetable R111). -/
theorem read_clearValid (m : Memory CodeEntry) (a : Nat) :
    (clearValid m).read a = (m.read a).map fun e => { e with valid := false } := by
  induction m with
  | nil => rfl
  | cons c m ih =>
    obtain ⟨b, e⟩ := c
    change Memory.read ((b, { e with valid := false }) :: clearValid m) a = _
    rw [read_cons, read_cons]
    split
    · rfl
    · exact ih

theorem wf_clearValid {n : Nat} {m : Memory CodeEntry} (h : m.wf n) : (clearValid m).wf n := by
  obtain ⟨hs, hb⟩ := h
  refine ⟨?_, ?_⟩
  · unfold clearValid
    rw [List.pairwise_map]
    exact hs
  · intro c hc
    simp only [clearValid, List.mem_map] at hc
    obtain ⟨d, hd, rfl⟩ := hc
    exact hb d hd

/-- Two canonical RAMs that read alike are the same data. -/
theorem eq_of_read {n : Nat} {m m' : Memory α} (h : m.wf n) (h' : m'.wf n) (hr : ∀ a, m.read a = m'.read a) : m = m' := by
  obtain ⟨hs, -⟩ := h
  obtain ⟨hs', -⟩ := h'
  have absent : ∀ {k : Memory α} {a : Nat}, (∀ c ∈ k, a < c.1) → k.read a = none := by
    intro k a hk
    induction k with
    | nil => rfl
    | cons c k ih =>
      obtain ⟨b, w⟩ := c
      have hb : a < b := hk (b, w) (by simp)
      rw [read_cons, if_neg (by omega)]
      exact ih fun c hc => hk c (by simp [hc])
  induction m generalizing m' with
  | nil =>
    cases m' with
    | nil => rfl
    | cons c m' => obtain ⟨b, w⟩ := c; simpa [Memory.read] using hr b
  | cons c m ih =>
    obtain ⟨a, v⟩ := c
    cases m' with
    | nil => simpa [Memory.read] using hr a
    | cons d m' =>
      obtain ⟨b, w⟩ := d
      obtain ⟨ha, hm⟩ := List.pairwise_cons.1 hs
      obtain ⟨hb, hm'⟩ := List.pairwise_cons.1 hs'
      have hab : a = b := by
        rcases Nat.lt_trichotomy a b with h | h | h
        · have h1 := hr a
          rw [read_cons, if_pos rfl, absent] at h1
          · simp at h1
          · intro c hc
            rcases List.mem_cons.1 hc with rfl | hc
            · exact h
            · exact Nat.lt_trans h (hb c hc)
        · exact h
        · have h1 := hr b
          rw [read_cons b w, if_pos rfl, absent] at h1
          · simp at h1
          · intro c hc
            rcases List.mem_cons.1 hc with rfl | hc
            · exact h
            · exact Nat.lt_trans h (ha c hc)
      subst hab
      have hvw : v = w := by simpa [Memory.read] using hr a
      subst hvw
      rw [ih (fun k => ?_) hm hm']
      by_cases hk : k = a
      · subst hk
        rw [absent ha, absent hb]
      · simpa [read_cons, hk] using hr k

end Sys2Proof.Machine.Memory
end

