-- ==== Sys2Proof/Laws/State.lean ====
section
/-! SUPPORT. One lemma per field per update of State, each true by rfl, so that no proof unfolds a record update. -/

namespace Sys2Proof.Machine.State

variable (s : State)

@[simp] theorem setBusy_params (b : Bool) : (s.setBusy b).params = s.params := rfl
@[simp] theorem setBusy_cmd (b : Bool) : (s.setBusy b).cmd = s.cmd := rfl
@[simp] theorem setBusy_arg (b : Bool) : (s.setBusy b).arg = s.arg := rfl
@[simp] theorem setBusy_result (b : Bool) : (s.setBusy b).result = s.result := rfl
@[simp] theorem setBusy_busy (b : Bool) : (s.setBusy b).busy = b := rfl
@[simp] theorem setBusy_eos (b : Bool) : (s.setBusy b).eos = s.eos := rfl
@[simp] theorem setBusy_overrun (b : Bool) : (s.setBusy b).overrun = s.overrun := rfl
@[simp] theorem setBusy_err (b : Bool) : (s.setBusy b).err = s.err := rfl
@[simp] theorem setBusy_errInfo (b : Bool) : (s.setBusy b).errInfo = s.errInfo := rfl
@[simp] theorem setBusy_writer (b : Bool) : (s.setBusy b).writer = s.writer := rfl
@[simp] theorem setBusy_reader (b : Bool) : (s.setBusy b).reader = s.reader := rfl
@[simp] theorem setBusy_root (b : Bool) : (s.setBusy b).root = s.root := rfl
@[simp] theorem setBusy_ncnt (b : Bool) : (s.setBusy b).ncnt = s.ncnt := rfl
@[simp] theorem setBusy_tree (b : Bool) : (s.setBusy b).tree = s.tree := rfl
@[simp] theorem setBusy_code (b : Bool) : (s.setBusy b).code = s.code := rfl
@[simp] theorem setBusy_ports (b : Bool) : (s.setBusy b).ports = s.ports := rfl
@[simp] theorem setBusy_agenda (b : Bool) : (s.setBusy b).agenda = s.agenda := rfl
@[simp] theorem setBusy_reads (b : Bool) : (s.setBusy b).reads = s.reads := rfl
@[simp] theorem setBusy_sawIdle (b : Bool) : (s.setBusy b).sawIdle = s.sawIdle := rfl
@[simp] theorem setBusy_draws (b : Bool) : (s.setBusy b).draws = s.draws := rfl
@[simp] theorem setBusy_cap (b : Bool) : (s.setBusy b).cap = s.cap := rfl

@[simp] theorem setCmd_params (w : Word) : (s.setCmd w).params = s.params := rfl
@[simp] theorem setCmd_cmd (w : Word) : (s.setCmd w).cmd = w := rfl
@[simp] theorem setCmd_arg (w : Word) : (s.setCmd w).arg = s.arg := rfl
@[simp] theorem setCmd_result (w : Word) : (s.setCmd w).result = s.result := rfl
@[simp] theorem setCmd_busy (w : Word) : (s.setCmd w).busy = s.busy := rfl
@[simp] theorem setCmd_eos (w : Word) : (s.setCmd w).eos = s.eos := rfl
@[simp] theorem setCmd_overrun (w : Word) : (s.setCmd w).overrun = s.overrun := rfl
@[simp] theorem setCmd_err (w : Word) : (s.setCmd w).err = s.err := rfl
@[simp] theorem setCmd_errInfo (w : Word) : (s.setCmd w).errInfo = s.errInfo := rfl
@[simp] theorem setCmd_writer (w : Word) : (s.setCmd w).writer = s.writer := rfl
@[simp] theorem setCmd_reader (w : Word) : (s.setCmd w).reader = s.reader := rfl
@[simp] theorem setCmd_root (w : Word) : (s.setCmd w).root = s.root := rfl
@[simp] theorem setCmd_ncnt (w : Word) : (s.setCmd w).ncnt = s.ncnt := rfl
@[simp] theorem setCmd_tree (w : Word) : (s.setCmd w).tree = s.tree := rfl
@[simp] theorem setCmd_code (w : Word) : (s.setCmd w).code = s.code := rfl
@[simp] theorem setCmd_ports (w : Word) : (s.setCmd w).ports = s.ports := rfl
@[simp] theorem setCmd_agenda (w : Word) : (s.setCmd w).agenda = s.agenda := rfl
@[simp] theorem setCmd_reads (w : Word) : (s.setCmd w).reads = s.reads := rfl
@[simp] theorem setCmd_sawIdle (w : Word) : (s.setCmd w).sawIdle = s.sawIdle := rfl
@[simp] theorem setCmd_draws (w : Word) : (s.setCmd w).draws = s.draws := rfl
@[simp] theorem setCmd_cap (w : Word) : (s.setCmd w).cap = s.cap := rfl

@[simp] theorem setArg_params (w : Word) : (s.setArg w).params = s.params := rfl
@[simp] theorem setArg_cmd (w : Word) : (s.setArg w).cmd = s.cmd := rfl
@[simp] theorem setArg_arg (w : Word) : (s.setArg w).arg = w := rfl
@[simp] theorem setArg_result (w : Word) : (s.setArg w).result = s.result := rfl
@[simp] theorem setArg_busy (w : Word) : (s.setArg w).busy = s.busy := rfl
@[simp] theorem setArg_eos (w : Word) : (s.setArg w).eos = s.eos := rfl
@[simp] theorem setArg_overrun (w : Word) : (s.setArg w).overrun = s.overrun := rfl
@[simp] theorem setArg_err (w : Word) : (s.setArg w).err = s.err := rfl
@[simp] theorem setArg_errInfo (w : Word) : (s.setArg w).errInfo = s.errInfo := rfl
@[simp] theorem setArg_writer (w : Word) : (s.setArg w).writer = s.writer := rfl
@[simp] theorem setArg_reader (w : Word) : (s.setArg w).reader = s.reader := rfl
@[simp] theorem setArg_root (w : Word) : (s.setArg w).root = s.root := rfl
@[simp] theorem setArg_ncnt (w : Word) : (s.setArg w).ncnt = s.ncnt := rfl
@[simp] theorem setArg_tree (w : Word) : (s.setArg w).tree = s.tree := rfl
@[simp] theorem setArg_code (w : Word) : (s.setArg w).code = s.code := rfl
@[simp] theorem setArg_ports (w : Word) : (s.setArg w).ports = s.ports := rfl
@[simp] theorem setArg_agenda (w : Word) : (s.setArg w).agenda = s.agenda := rfl
@[simp] theorem setArg_reads (w : Word) : (s.setArg w).reads = s.reads := rfl
@[simp] theorem setArg_sawIdle (w : Word) : (s.setArg w).sawIdle = s.sawIdle := rfl
@[simp] theorem setArg_draws (w : Word) : (s.setArg w).draws = s.draws := rfl
@[simp] theorem setArg_cap (w : Word) : (s.setArg w).cap = s.cap := rfl

@[simp] theorem setResult_params (w : Word) : (s.setResult w).params = s.params := rfl
@[simp] theorem setResult_cmd (w : Word) : (s.setResult w).cmd = s.cmd := rfl
@[simp] theorem setResult_arg (w : Word) : (s.setResult w).arg = s.arg := rfl
@[simp] theorem setResult_result (w : Word) : (s.setResult w).result = w := rfl
@[simp] theorem setResult_busy (w : Word) : (s.setResult w).busy = s.busy := rfl
@[simp] theorem setResult_eos (w : Word) : (s.setResult w).eos = s.eos := rfl
@[simp] theorem setResult_overrun (w : Word) : (s.setResult w).overrun = s.overrun := rfl
@[simp] theorem setResult_err (w : Word) : (s.setResult w).err = s.err := rfl
@[simp] theorem setResult_errInfo (w : Word) : (s.setResult w).errInfo = s.errInfo := rfl
@[simp] theorem setResult_writer (w : Word) : (s.setResult w).writer = s.writer := rfl
@[simp] theorem setResult_reader (w : Word) : (s.setResult w).reader = s.reader := rfl
@[simp] theorem setResult_root (w : Word) : (s.setResult w).root = s.root := rfl
@[simp] theorem setResult_ncnt (w : Word) : (s.setResult w).ncnt = s.ncnt := rfl
@[simp] theorem setResult_tree (w : Word) : (s.setResult w).tree = s.tree := rfl
@[simp] theorem setResult_code (w : Word) : (s.setResult w).code = s.code := rfl
@[simp] theorem setResult_ports (w : Word) : (s.setResult w).ports = s.ports := rfl
@[simp] theorem setResult_agenda (w : Word) : (s.setResult w).agenda = s.agenda := rfl
@[simp] theorem setResult_reads (w : Word) : (s.setResult w).reads = s.reads := rfl
@[simp] theorem setResult_sawIdle (w : Word) : (s.setResult w).sawIdle = s.sawIdle := rfl
@[simp] theorem setResult_draws (w : Word) : (s.setResult w).draws = s.draws := rfl
@[simp] theorem setResult_cap (w : Word) : (s.setResult w).cap = s.cap := rfl

@[simp] theorem setEos_params (b : Bool) : (s.setEos b).params = s.params := rfl
@[simp] theorem setEos_cmd (b : Bool) : (s.setEos b).cmd = s.cmd := rfl
@[simp] theorem setEos_arg (b : Bool) : (s.setEos b).arg = s.arg := rfl
@[simp] theorem setEos_result (b : Bool) : (s.setEos b).result = s.result := rfl
@[simp] theorem setEos_busy (b : Bool) : (s.setEos b).busy = s.busy := rfl
@[simp] theorem setEos_eos (b : Bool) : (s.setEos b).eos = b := rfl
@[simp] theorem setEos_overrun (b : Bool) : (s.setEos b).overrun = s.overrun := rfl
@[simp] theorem setEos_err (b : Bool) : (s.setEos b).err = s.err := rfl
@[simp] theorem setEos_errInfo (b : Bool) : (s.setEos b).errInfo = s.errInfo := rfl
@[simp] theorem setEos_writer (b : Bool) : (s.setEos b).writer = s.writer := rfl
@[simp] theorem setEos_reader (b : Bool) : (s.setEos b).reader = s.reader := rfl
@[simp] theorem setEos_root (b : Bool) : (s.setEos b).root = s.root := rfl
@[simp] theorem setEos_ncnt (b : Bool) : (s.setEos b).ncnt = s.ncnt := rfl
@[simp] theorem setEos_tree (b : Bool) : (s.setEos b).tree = s.tree := rfl
@[simp] theorem setEos_code (b : Bool) : (s.setEos b).code = s.code := rfl
@[simp] theorem setEos_ports (b : Bool) : (s.setEos b).ports = s.ports := rfl
@[simp] theorem setEos_agenda (b : Bool) : (s.setEos b).agenda = s.agenda := rfl
@[simp] theorem setEos_reads (b : Bool) : (s.setEos b).reads = s.reads := rfl
@[simp] theorem setEos_sawIdle (b : Bool) : (s.setEos b).sawIdle = s.sawIdle := rfl
@[simp] theorem setEos_draws (b : Bool) : (s.setEos b).draws = s.draws := rfl
@[simp] theorem setEos_cap (b : Bool) : (s.setEos b).cap = s.cap := rfl

@[simp] theorem setOverrun_params : (s.setOverrun).params = s.params := rfl
@[simp] theorem setOverrun_cmd : (s.setOverrun).cmd = s.cmd := rfl
@[simp] theorem setOverrun_arg : (s.setOverrun).arg = s.arg := rfl
@[simp] theorem setOverrun_result : (s.setOverrun).result = s.result := rfl
@[simp] theorem setOverrun_busy : (s.setOverrun).busy = s.busy := rfl
@[simp] theorem setOverrun_eos : (s.setOverrun).eos = s.eos := rfl
@[simp] theorem setOverrun_overrun : (s.setOverrun).overrun = true := rfl
@[simp] theorem setOverrun_err : (s.setOverrun).err = s.err := rfl
@[simp] theorem setOverrun_errInfo : (s.setOverrun).errInfo = s.errInfo := rfl
@[simp] theorem setOverrun_writer : (s.setOverrun).writer = s.writer := rfl
@[simp] theorem setOverrun_reader : (s.setOverrun).reader = s.reader := rfl
@[simp] theorem setOverrun_root : (s.setOverrun).root = s.root := rfl
@[simp] theorem setOverrun_ncnt : (s.setOverrun).ncnt = s.ncnt := rfl
@[simp] theorem setOverrun_tree : (s.setOverrun).tree = s.tree := rfl
@[simp] theorem setOverrun_code : (s.setOverrun).code = s.code := rfl
@[simp] theorem setOverrun_ports : (s.setOverrun).ports = s.ports := rfl
@[simp] theorem setOverrun_agenda : (s.setOverrun).agenda = s.agenda := rfl
@[simp] theorem setOverrun_reads : (s.setOverrun).reads = s.reads := rfl
@[simp] theorem setOverrun_sawIdle : (s.setOverrun).sawIdle = s.sawIdle := rfl
@[simp] theorem setOverrun_draws : (s.setOverrun).draws = s.draws := rfl
@[simp] theorem setOverrun_cap : (s.setOverrun).cap = s.cap := rfl

@[simp] theorem setWriter_params (w : Writer) : (s.setWriter w).params = s.params := rfl
@[simp] theorem setWriter_cmd (w : Writer) : (s.setWriter w).cmd = s.cmd := rfl
@[simp] theorem setWriter_arg (w : Writer) : (s.setWriter w).arg = s.arg := rfl
@[simp] theorem setWriter_result (w : Writer) : (s.setWriter w).result = s.result := rfl
@[simp] theorem setWriter_busy (w : Writer) : (s.setWriter w).busy = s.busy := rfl
@[simp] theorem setWriter_eos (w : Writer) : (s.setWriter w).eos = s.eos := rfl
@[simp] theorem setWriter_overrun (w : Writer) : (s.setWriter w).overrun = s.overrun := rfl
@[simp] theorem setWriter_err (w : Writer) : (s.setWriter w).err = s.err := rfl
@[simp] theorem setWriter_errInfo (w : Writer) : (s.setWriter w).errInfo = s.errInfo := rfl
@[simp] theorem setWriter_writer (w : Writer) : (s.setWriter w).writer = w := rfl
@[simp] theorem setWriter_reader (w : Writer) : (s.setWriter w).reader = s.reader := rfl
@[simp] theorem setWriter_root (w : Writer) : (s.setWriter w).root = s.root := rfl
@[simp] theorem setWriter_ncnt (w : Writer) : (s.setWriter w).ncnt = s.ncnt := rfl
@[simp] theorem setWriter_tree (w : Writer) : (s.setWriter w).tree = s.tree := rfl
@[simp] theorem setWriter_code (w : Writer) : (s.setWriter w).code = s.code := rfl
@[simp] theorem setWriter_ports (w : Writer) : (s.setWriter w).ports = s.ports := rfl
@[simp] theorem setWriter_agenda (w : Writer) : (s.setWriter w).agenda = s.agenda := rfl
@[simp] theorem setWriter_reads (w : Writer) : (s.setWriter w).reads = s.reads := rfl
@[simp] theorem setWriter_sawIdle (w : Writer) : (s.setWriter w).sawIdle = s.sawIdle := rfl
@[simp] theorem setWriter_draws (w : Writer) : (s.setWriter w).draws = s.draws := rfl
@[simp] theorem setWriter_cap (w : Writer) : (s.setWriter w).cap = s.cap := rfl

@[simp] theorem setReader_params (r : Reader) : (s.setReader r).params = s.params := rfl
@[simp] theorem setReader_cmd (r : Reader) : (s.setReader r).cmd = s.cmd := rfl
@[simp] theorem setReader_arg (r : Reader) : (s.setReader r).arg = s.arg := rfl
@[simp] theorem setReader_result (r : Reader) : (s.setReader r).result = s.result := rfl
@[simp] theorem setReader_busy (r : Reader) : (s.setReader r).busy = s.busy := rfl
@[simp] theorem setReader_eos (r : Reader) : (s.setReader r).eos = s.eos := rfl
@[simp] theorem setReader_overrun (r : Reader) : (s.setReader r).overrun = s.overrun := rfl
@[simp] theorem setReader_err (r : Reader) : (s.setReader r).err = s.err := rfl
@[simp] theorem setReader_errInfo (r : Reader) : (s.setReader r).errInfo = s.errInfo := rfl
@[simp] theorem setReader_writer (r : Reader) : (s.setReader r).writer = s.writer := rfl
@[simp] theorem setReader_reader (r : Reader) : (s.setReader r).reader = r := rfl
@[simp] theorem setReader_root (r : Reader) : (s.setReader r).root = s.root := rfl
@[simp] theorem setReader_ncnt (r : Reader) : (s.setReader r).ncnt = s.ncnt := rfl
@[simp] theorem setReader_tree (r : Reader) : (s.setReader r).tree = s.tree := rfl
@[simp] theorem setReader_code (r : Reader) : (s.setReader r).code = s.code := rfl
@[simp] theorem setReader_ports (r : Reader) : (s.setReader r).ports = s.ports := rfl
@[simp] theorem setReader_agenda (r : Reader) : (s.setReader r).agenda = s.agenda := rfl
@[simp] theorem setReader_reads (r : Reader) : (s.setReader r).reads = s.reads := rfl
@[simp] theorem setReader_sawIdle (r : Reader) : (s.setReader r).sawIdle = s.sawIdle := rfl
@[simp] theorem setReader_draws (r : Reader) : (s.setReader r).draws = s.draws := rfl
@[simp] theorem setReader_cap (r : Reader) : (s.setReader r).cap = s.cap := rfl

@[simp] theorem setRoot_params (r : Root) : (s.setRoot r).params = s.params := rfl
@[simp] theorem setRoot_cmd (r : Root) : (s.setRoot r).cmd = s.cmd := rfl
@[simp] theorem setRoot_arg (r : Root) : (s.setRoot r).arg = s.arg := rfl
@[simp] theorem setRoot_result (r : Root) : (s.setRoot r).result = s.result := rfl
@[simp] theorem setRoot_busy (r : Root) : (s.setRoot r).busy = s.busy := rfl
@[simp] theorem setRoot_eos (r : Root) : (s.setRoot r).eos = s.eos := rfl
@[simp] theorem setRoot_overrun (r : Root) : (s.setRoot r).overrun = s.overrun := rfl
@[simp] theorem setRoot_err (r : Root) : (s.setRoot r).err = s.err := rfl
@[simp] theorem setRoot_errInfo (r : Root) : (s.setRoot r).errInfo = s.errInfo := rfl
@[simp] theorem setRoot_writer (r : Root) : (s.setRoot r).writer = s.writer := rfl
@[simp] theorem setRoot_reader (r : Root) : (s.setRoot r).reader = s.reader := rfl
@[simp] theorem setRoot_root (r : Root) : (s.setRoot r).root = r := rfl
@[simp] theorem setRoot_ncnt (r : Root) : (s.setRoot r).ncnt = s.ncnt := rfl
@[simp] theorem setRoot_tree (r : Root) : (s.setRoot r).tree = s.tree := rfl
@[simp] theorem setRoot_code (r : Root) : (s.setRoot r).code = s.code := rfl
@[simp] theorem setRoot_ports (r : Root) : (s.setRoot r).ports = s.ports := rfl
@[simp] theorem setRoot_agenda (r : Root) : (s.setRoot r).agenda = s.agenda := rfl
@[simp] theorem setRoot_reads (r : Root) : (s.setRoot r).reads = s.reads := rfl
@[simp] theorem setRoot_sawIdle (r : Root) : (s.setRoot r).sawIdle = s.sawIdle := rfl
@[simp] theorem setRoot_draws (r : Root) : (s.setRoot r).draws = s.draws := rfl
@[simp] theorem setRoot_cap (r : Root) : (s.setRoot r).cap = s.cap := rfl

@[simp] theorem setNcnt_params (n : BitVec 11) : (s.setNcnt n).params = s.params := rfl
@[simp] theorem setNcnt_cmd (n : BitVec 11) : (s.setNcnt n).cmd = s.cmd := rfl
@[simp] theorem setNcnt_arg (n : BitVec 11) : (s.setNcnt n).arg = s.arg := rfl
@[simp] theorem setNcnt_result (n : BitVec 11) : (s.setNcnt n).result = s.result := rfl
@[simp] theorem setNcnt_busy (n : BitVec 11) : (s.setNcnt n).busy = s.busy := rfl
@[simp] theorem setNcnt_eos (n : BitVec 11) : (s.setNcnt n).eos = s.eos := rfl
@[simp] theorem setNcnt_overrun (n : BitVec 11) : (s.setNcnt n).overrun = s.overrun := rfl
@[simp] theorem setNcnt_err (n : BitVec 11) : (s.setNcnt n).err = s.err := rfl
@[simp] theorem setNcnt_errInfo (n : BitVec 11) : (s.setNcnt n).errInfo = s.errInfo := rfl
@[simp] theorem setNcnt_writer (n : BitVec 11) : (s.setNcnt n).writer = s.writer := rfl
@[simp] theorem setNcnt_reader (n : BitVec 11) : (s.setNcnt n).reader = s.reader := rfl
@[simp] theorem setNcnt_root (n : BitVec 11) : (s.setNcnt n).root = s.root := rfl
@[simp] theorem setNcnt_ncnt (n : BitVec 11) : (s.setNcnt n).ncnt = n := rfl
@[simp] theorem setNcnt_tree (n : BitVec 11) : (s.setNcnt n).tree = s.tree := rfl
@[simp] theorem setNcnt_code (n : BitVec 11) : (s.setNcnt n).code = s.code := rfl
@[simp] theorem setNcnt_ports (n : BitVec 11) : (s.setNcnt n).ports = s.ports := rfl
@[simp] theorem setNcnt_agenda (n : BitVec 11) : (s.setNcnt n).agenda = s.agenda := rfl
@[simp] theorem setNcnt_reads (n : BitVec 11) : (s.setNcnt n).reads = s.reads := rfl
@[simp] theorem setNcnt_sawIdle (n : BitVec 11) : (s.setNcnt n).sawIdle = s.sawIdle := rfl
@[simp] theorem setNcnt_draws (n : BitVec 11) : (s.setNcnt n).draws = s.draws := rfl
@[simp] theorem setNcnt_cap (n : BitVec 11) : (s.setNcnt n).cap = s.cap := rfl

@[simp] theorem setTree_params (m : Memory Node) : (s.setTree m).params = s.params := rfl
@[simp] theorem setTree_cmd (m : Memory Node) : (s.setTree m).cmd = s.cmd := rfl
@[simp] theorem setTree_arg (m : Memory Node) : (s.setTree m).arg = s.arg := rfl
@[simp] theorem setTree_result (m : Memory Node) : (s.setTree m).result = s.result := rfl
@[simp] theorem setTree_busy (m : Memory Node) : (s.setTree m).busy = s.busy := rfl
@[simp] theorem setTree_eos (m : Memory Node) : (s.setTree m).eos = s.eos := rfl
@[simp] theorem setTree_overrun (m : Memory Node) : (s.setTree m).overrun = s.overrun := rfl
@[simp] theorem setTree_err (m : Memory Node) : (s.setTree m).err = s.err := rfl
@[simp] theorem setTree_errInfo (m : Memory Node) : (s.setTree m).errInfo = s.errInfo := rfl
@[simp] theorem setTree_writer (m : Memory Node) : (s.setTree m).writer = s.writer := rfl
@[simp] theorem setTree_reader (m : Memory Node) : (s.setTree m).reader = s.reader := rfl
@[simp] theorem setTree_root (m : Memory Node) : (s.setTree m).root = s.root := rfl
@[simp] theorem setTree_ncnt (m : Memory Node) : (s.setTree m).ncnt = s.ncnt := rfl
@[simp] theorem setTree_tree (m : Memory Node) : (s.setTree m).tree = m := rfl
@[simp] theorem setTree_code (m : Memory Node) : (s.setTree m).code = s.code := rfl
@[simp] theorem setTree_ports (m : Memory Node) : (s.setTree m).ports = s.ports := rfl
@[simp] theorem setTree_agenda (m : Memory Node) : (s.setTree m).agenda = s.agenda := rfl
@[simp] theorem setTree_reads (m : Memory Node) : (s.setTree m).reads = s.reads := rfl
@[simp] theorem setTree_sawIdle (m : Memory Node) : (s.setTree m).sawIdle = s.sawIdle := rfl
@[simp] theorem setTree_draws (m : Memory Node) : (s.setTree m).draws = s.draws := rfl
@[simp] theorem setTree_cap (m : Memory Node) : (s.setTree m).cap = s.cap := rfl

@[simp] theorem setCode_params (m : Memory CodeEntry) : (s.setCode m).params = s.params := rfl
@[simp] theorem setCode_cmd (m : Memory CodeEntry) : (s.setCode m).cmd = s.cmd := rfl
@[simp] theorem setCode_arg (m : Memory CodeEntry) : (s.setCode m).arg = s.arg := rfl
@[simp] theorem setCode_result (m : Memory CodeEntry) : (s.setCode m).result = s.result := rfl
@[simp] theorem setCode_busy (m : Memory CodeEntry) : (s.setCode m).busy = s.busy := rfl
@[simp] theorem setCode_eos (m : Memory CodeEntry) : (s.setCode m).eos = s.eos := rfl
@[simp] theorem setCode_overrun (m : Memory CodeEntry) : (s.setCode m).overrun = s.overrun := rfl
@[simp] theorem setCode_err (m : Memory CodeEntry) : (s.setCode m).err = s.err := rfl
@[simp] theorem setCode_errInfo (m : Memory CodeEntry) : (s.setCode m).errInfo = s.errInfo := rfl
@[simp] theorem setCode_writer (m : Memory CodeEntry) : (s.setCode m).writer = s.writer := rfl
@[simp] theorem setCode_reader (m : Memory CodeEntry) : (s.setCode m).reader = s.reader := rfl
@[simp] theorem setCode_root (m : Memory CodeEntry) : (s.setCode m).root = s.root := rfl
@[simp] theorem setCode_ncnt (m : Memory CodeEntry) : (s.setCode m).ncnt = s.ncnt := rfl
@[simp] theorem setCode_tree (m : Memory CodeEntry) : (s.setCode m).tree = s.tree := rfl
@[simp] theorem setCode_code (m : Memory CodeEntry) : (s.setCode m).code = m := rfl
@[simp] theorem setCode_ports (m : Memory CodeEntry) : (s.setCode m).ports = s.ports := rfl
@[simp] theorem setCode_agenda (m : Memory CodeEntry) : (s.setCode m).agenda = s.agenda := rfl
@[simp] theorem setCode_reads (m : Memory CodeEntry) : (s.setCode m).reads = s.reads := rfl
@[simp] theorem setCode_sawIdle (m : Memory CodeEntry) : (s.setCode m).sawIdle = s.sawIdle := rfl
@[simp] theorem setCode_draws (m : Memory CodeEntry) : (s.setCode m).draws = s.draws := rfl
@[simp] theorem setCode_cap (m : Memory CodeEntry) : (s.setCode m).cap = s.cap := rfl

@[simp] theorem setPorts_params (p : Ports) : (s.setPorts p).params = s.params := rfl
@[simp] theorem setPorts_cmd (p : Ports) : (s.setPorts p).cmd = s.cmd := rfl
@[simp] theorem setPorts_arg (p : Ports) : (s.setPorts p).arg = s.arg := rfl
@[simp] theorem setPorts_result (p : Ports) : (s.setPorts p).result = s.result := rfl
@[simp] theorem setPorts_busy (p : Ports) : (s.setPorts p).busy = s.busy := rfl
@[simp] theorem setPorts_eos (p : Ports) : (s.setPorts p).eos = s.eos := rfl
@[simp] theorem setPorts_overrun (p : Ports) : (s.setPorts p).overrun = s.overrun := rfl
@[simp] theorem setPorts_err (p : Ports) : (s.setPorts p).err = s.err := rfl
@[simp] theorem setPorts_errInfo (p : Ports) : (s.setPorts p).errInfo = s.errInfo := rfl
@[simp] theorem setPorts_writer (p : Ports) : (s.setPorts p).writer = s.writer := rfl
@[simp] theorem setPorts_reader (p : Ports) : (s.setPorts p).reader = s.reader := rfl
@[simp] theorem setPorts_root (p : Ports) : (s.setPorts p).root = s.root := rfl
@[simp] theorem setPorts_ncnt (p : Ports) : (s.setPorts p).ncnt = s.ncnt := rfl
@[simp] theorem setPorts_tree (p : Ports) : (s.setPorts p).tree = s.tree := rfl
@[simp] theorem setPorts_code (p : Ports) : (s.setPorts p).code = s.code := rfl
@[simp] theorem setPorts_ports (p : Ports) : (s.setPorts p).ports = p := rfl
@[simp] theorem setPorts_agenda (p : Ports) : (s.setPorts p).agenda = s.agenda := rfl
@[simp] theorem setPorts_reads (p : Ports) : (s.setPorts p).reads = s.reads := rfl
@[simp] theorem setPorts_sawIdle (p : Ports) : (s.setPorts p).sawIdle = s.sawIdle := rfl
@[simp] theorem setPorts_draws (p : Ports) : (s.setPorts p).draws = s.draws := rfl
@[simp] theorem setPorts_cap (p : Ports) : (s.setPorts p).cap = s.cap := rfl

@[simp] theorem setAgenda_params (l : List Event) : (s.setAgenda l).params = s.params := rfl
@[simp] theorem setAgenda_cmd (l : List Event) : (s.setAgenda l).cmd = s.cmd := rfl
@[simp] theorem setAgenda_arg (l : List Event) : (s.setAgenda l).arg = s.arg := rfl
@[simp] theorem setAgenda_result (l : List Event) : (s.setAgenda l).result = s.result := rfl
@[simp] theorem setAgenda_busy (l : List Event) : (s.setAgenda l).busy = s.busy := rfl
@[simp] theorem setAgenda_eos (l : List Event) : (s.setAgenda l).eos = s.eos := rfl
@[simp] theorem setAgenda_overrun (l : List Event) : (s.setAgenda l).overrun = s.overrun := rfl
@[simp] theorem setAgenda_err (l : List Event) : (s.setAgenda l).err = s.err := rfl
@[simp] theorem setAgenda_errInfo (l : List Event) : (s.setAgenda l).errInfo = s.errInfo := rfl
@[simp] theorem setAgenda_writer (l : List Event) : (s.setAgenda l).writer = s.writer := rfl
@[simp] theorem setAgenda_reader (l : List Event) : (s.setAgenda l).reader = s.reader := rfl
@[simp] theorem setAgenda_root (l : List Event) : (s.setAgenda l).root = s.root := rfl
@[simp] theorem setAgenda_ncnt (l : List Event) : (s.setAgenda l).ncnt = s.ncnt := rfl
@[simp] theorem setAgenda_tree (l : List Event) : (s.setAgenda l).tree = s.tree := rfl
@[simp] theorem setAgenda_code (l : List Event) : (s.setAgenda l).code = s.code := rfl
@[simp] theorem setAgenda_ports (l : List Event) : (s.setAgenda l).ports = s.ports := rfl
@[simp] theorem setAgenda_agenda (l : List Event) : (s.setAgenda l).agenda = l := rfl
@[simp] theorem setAgenda_reads (l : List Event) : (s.setAgenda l).reads = s.reads := rfl
@[simp] theorem setAgenda_sawIdle (l : List Event) : (s.setAgenda l).sawIdle = s.sawIdle := rfl
@[simp] theorem setAgenda_draws (l : List Event) : (s.setAgenda l).draws = s.draws := rfl
@[simp] theorem setAgenda_cap (l : List Event) : (s.setAgenda l).cap = s.cap := rfl

@[simp] theorem setSawIdle_params (b : Bool) : (s.setSawIdle b).params = s.params := rfl
@[simp] theorem setSawIdle_cmd (b : Bool) : (s.setSawIdle b).cmd = s.cmd := rfl
@[simp] theorem setSawIdle_arg (b : Bool) : (s.setSawIdle b).arg = s.arg := rfl
@[simp] theorem setSawIdle_result (b : Bool) : (s.setSawIdle b).result = s.result := rfl
@[simp] theorem setSawIdle_busy (b : Bool) : (s.setSawIdle b).busy = s.busy := rfl
@[simp] theorem setSawIdle_eos (b : Bool) : (s.setSawIdle b).eos = s.eos := rfl
@[simp] theorem setSawIdle_overrun (b : Bool) : (s.setSawIdle b).overrun = s.overrun := rfl
@[simp] theorem setSawIdle_err (b : Bool) : (s.setSawIdle b).err = s.err := rfl
@[simp] theorem setSawIdle_errInfo (b : Bool) : (s.setSawIdle b).errInfo = s.errInfo := rfl
@[simp] theorem setSawIdle_writer (b : Bool) : (s.setSawIdle b).writer = s.writer := rfl
@[simp] theorem setSawIdle_reader (b : Bool) : (s.setSawIdle b).reader = s.reader := rfl
@[simp] theorem setSawIdle_root (b : Bool) : (s.setSawIdle b).root = s.root := rfl
@[simp] theorem setSawIdle_ncnt (b : Bool) : (s.setSawIdle b).ncnt = s.ncnt := rfl
@[simp] theorem setSawIdle_tree (b : Bool) : (s.setSawIdle b).tree = s.tree := rfl
@[simp] theorem setSawIdle_code (b : Bool) : (s.setSawIdle b).code = s.code := rfl
@[simp] theorem setSawIdle_ports (b : Bool) : (s.setSawIdle b).ports = s.ports := rfl
@[simp] theorem setSawIdle_agenda (b : Bool) : (s.setSawIdle b).agenda = s.agenda := rfl
@[simp] theorem setSawIdle_reads (b : Bool) : (s.setSawIdle b).reads = s.reads := rfl
@[simp] theorem setSawIdle_sawIdle (b : Bool) : (s.setSawIdle b).sawIdle = b := rfl
@[simp] theorem setSawIdle_draws (b : Bool) : (s.setSawIdle b).draws = s.draws := rfl
@[simp] theorem setSawIdle_cap (b : Bool) : (s.setSawIdle b).cap = s.cap := rfl

end Sys2Proof.Machine.State
end

