-- ==== Sys2Proof/Laws/Ops.lean ====
section
/-! SUPPORT. What the shared operations do, once each: sequencing, the port primitives, how an engine step ends, fault
entry, reset; and the law of the ports that every piece of pseudocode obeys. -/

namespace Sys2Proof.Machine

/-! ### Sequencing -/

section Bind
variable {α β γ : Type}

@[simp] theorem Res.ok_bind (a : α) (s : State) (f : α → State → Res β) : (Res.ok a s).bind f = f a s := rfl
@[simp] theorem Res.raise_bind (e : ErrorKind) (i : BitVec 10) (s : State) (f : α → State → Res β) :
    (Res.raise e i s : Res α).bind f = .raise e i s := rfl
@[simp] theorem Res.held_bind (s : State) (f : α → State → Res β) : (Res.held s : Res α).bind f = .held s := rfl
@[simp] theorem Res.uninit_bind (i : Slot) (s : State) (f : α → State → Res β) :
    (Res.uninit i s : Res α).bind f = .uninit i s := rfl

theorem Res.bind_ok (r : Res α) : r.bind .ok = r := by cases r <;> rfl

theorem Res.bind_assoc (r : Res α) (f : α → State → Res β) (g : β → State → Res γ) :
    (r.bind f).bind g = r.bind fun a s => (f a s).bind g := by
  cases r <;> rfl

theorem Res.bind_eq_ok {r : Res α} {f : α → State → Res β} {b : β} {t : State} :
    r.bind f = .ok b t ↔ ∃ a s, r = .ok a s ∧ f a s = .ok b t := by
  cases r <;> simp

end Bind

/-! ### How a piece of pseudocode relates its first and last state, however it ends -/

/-- The piece of pseudocode r, begun in s, ends in a state related to s by P. -/
def Res.Ends {α : Type} (P : State → State → Prop) (s : State) (r : Res α) : Prop := P s r.state

/-- A relation that pieces of pseudocode may be chained under. -/
structure Chains (P : State → State → Prop) : Prop where
  refl : ∀ s, P s s
  trans : ∀ s t u, P s t → P t u → P s u

theorem Res.Ends.bind {α β : Type} {P : State → State → Prop} (hP : Chains P) {s : State} {r : Res α}
    {f : α → State → Res β} (hr : r.Ends P s) (hf : ∀ a t, (f a t).Ends P t) : (r.bind f).Ends P s := by
  cases r with
  | ok a t => exact hP.trans _ _ _ hr (hf a t)
  | raise e i t => exact hr
  | held t => exact hr
  | uninit i t => exact hr

theorem Res.Ends.weaken {α : Type} {P Q : State → State → Prop} (h : ∀ s t, P s t → Q s t) {s : State} {r : Res α}
    (hr : r.Ends P s) : r.Ends Q s := h _ _ hr

/-! ### The law of the ports (20_memory R52, R53, R61) -/

/-- Between s and t some port transactions were performed, in order: tokens come off the front of what IN offered, answers
off the front of what the sink had, and the log grows by exactly those transactions. -/
def PortLaw (s t : State) : Prop :=
  ∃ ops, t.ports.log = s.ports.log ++ ops ∧
    s.ports.offered = ops.filterMap PortOp.token ++ t.ports.offered ∧
    s.ports.answers = ops.filterMap PortOp.answered ++ t.ports.answers

theorem portLaw_chains : Chains PortLaw where
  refl s := ⟨[], by simp⟩
  trans s t u := by
    rintro ⟨o1, h1, h2, h3⟩ ⟨o2, g1, g2, g3⟩
    exact ⟨o1 ++ o2, by simp [g1, h1], by simp [h2, g2], by simp [h3, g3]⟩

/-- A change that leaves the ports alone. -/
theorem portLaw_of_eq {s t : State} (h : t.ports = s.ports) : PortLaw s t := ⟨[], by simp [h]⟩

theorem PortLaw.ports_eq {s t : State} (h : PortLaw s t) :
    ∃ ops, t.ports = s.ports.perform ops ∧ s.ports.offered = ops.filterMap PortOp.token ++ t.ports.offered ∧
      s.ports.answers = ops.filterMap PortOp.answered ++ t.ports.answers := by
  obtain ⟨ops, h1, h2, h3⟩ := h
  refine ⟨ops, ?_, h2, h3⟩
  have ho : t.ports.offered = s.ports.offered.drop (ops.filterMap PortOp.token).length := by simp [h2]
  have ha : t.ports.answers = s.ports.answers.drop (ops.filterMap PortOp.answered).length := by simp [h3]
  rw [show t.ports = ⟨t.ports.offered, t.ports.answers, t.ports.log⟩ from rfl, h1, ho, ha]
  rfl

/-- Performing two runs of transactions is performing their concatenation. -/
theorem Ports.perform_append (p : Ports) (a b : List PortOp) : (p.perform a).perform b = p.perform (a ++ b) := by
  simp [Ports.perform, List.drop_drop]

@[simp] theorem Ports.perform_nil (p : Ports) : p.perform [] = p := by
  simp [Ports.perform]

theorem inToken_portLaw (s : State) : (inToken s).Ends PortLaw s := by
  unfold inToken
  split
  · exact portLaw_chains.refl s
  · rename_i t rest h
    exact ⟨[.took t], by simp [Res.state, PortOp.token, PortOp.answered, h]⟩

theorem outByte_portLaw (b : Byte) (s : State) : (outByte b s).Ends PortLaw s := by
  unfold outByte
  split
  · exact portLaw_chains.refl s
  · rename_i rest h
    exact ⟨[.sent b .accept], by simp [Res.state, PortOp.token, PortOp.answered, h]⟩
  · rename_i rest h
    exact ⟨[.sent b .reject], by simp [Res.state, PortOp.token, PortOp.answered, h]⟩

/-! ### How an engine step ends -/

/-- The four ends of an engine step. -/
theorem complete_cases {body : State → Res Unit} {s : State} {o : Host.Outcome State Fault Refusal}
    (h : complete body s = o) :
    (∃ t, body s = .ok () t ∧ o = .next (t.setBusy false)) ∨
    (∃ e i t, body s = .raise e i t ∧ o = .next (faultEntry e i t)) ∨
    (∃ t, body s = .held t ∧ o = .next s) ∨
    (∃ i t, body s = .uninit i t ∧ o = .fault (.uninit i)) := by
  subst h
  unfold complete
  cases hb : body s with
  | ok a t => exact .inl ⟨t, rfl, rfl⟩
  | raise e i t => exact .inr (.inl ⟨e, i, t, rfl, rfl⟩)
  | held t => exact .inr (.inr (.inl ⟨t, rfl, rfl⟩))
  | uninit i t => exact .inr (.inr (.inr ⟨i, t, rfl, rfl⟩))

theorem complete_ok {body : State → Res Unit} {s t : State} (h : body s = .ok () t) :
    complete body s = .next (t.setBusy false) := by simp [complete, h]
theorem complete_raise {body : State → Res Unit} {s t : State} {e : ErrorKind} {i : BitVec 10}
    (h : body s = .raise e i t) : complete body s = .next (faultEntry e i t) := by simp [complete, h]
theorem complete_held {body : State → Res Unit} {s t : State} (h : body s = .held t) :
    complete body s = .next s := by simp [complete, h]
theorem complete_uninit {body : State → Res Unit} {s t : State} {i : Slot} (h : body s = .uninit i t) :
    complete body s = .fault (.uninit i) := by simp [complete, h]

/-! ### Fault entry and reset -/

section FaultEntry
variable (e : ErrorKind) (i : BitVec 10) (s : State)

@[simp] theorem faultEntry_params : (faultEntry e i s).params = s.params := rfl
@[simp] theorem faultEntry_cap : (faultEntry e i s).cap = s.cap := rfl
@[simp] theorem faultEntry_cmd : (faultEntry e i s).cmd = s.cmd := rfl
@[simp] theorem faultEntry_arg : (faultEntry e i s).arg = s.arg := rfl
@[simp] theorem faultEntry_busy : (faultEntry e i s).busy = false := rfl
@[simp] theorem faultEntry_overrun : (faultEntry e i s).overrun = s.overrun := rfl
@[simp] theorem faultEntry_err : (faultEntry e i s).err = some e := rfl
@[simp] theorem faultEntry_errInfo : (faultEntry e i s).errInfo = i := rfl
@[simp] theorem faultEntry_ports : (faultEntry e i s).ports = s.ports := rfl
@[simp] theorem faultEntry_agenda : (faultEntry e i s).agenda = s.agenda := rfl
@[simp] theorem faultEntry_reads : (faultEntry e i s).reads = s.reads := rfl
@[simp] theorem faultEntry_sawIdle : (faultEntry e i s).sawIdle = s.sawIdle := rfl
@[simp] theorem faultEntry_tree : (faultEntry e i s).tree = Memory.tabulate s.cap (Config.havocNode s.draws) := rfl
@[simp] theorem faultEntry_code :
    (faultEntry e i s).code = Memory.tabulate codeEntries (Config.havocCode s.draws) := by
  simp only [faultEntry]

/-- NCNT after a fault is within its range (60_exceptions R168). -/
theorem faultEntry_ncnt_le : (faultEntry e i s).ncnt.toNat ≤ s.cap := by
  have h := s.params.nodeCap.upper
  have h2 : Config.havocNcnt s.draws % (s.cap + 1) < s.cap + 1 := Nat.mod_lt _ (Nat.succ_pos _)
  change (BitVec.ofNat 11 (Config.havocNcnt s.draws % (s.cap + 1))).toNat ≤ s.cap
  rw [BitVec.toNat_ofNat, Nat.mod_eq_of_lt]
  · omega
  · have : s.cap = s.params.nodeCap.val := rfl
    omega

end FaultEntry

/-- Fault entry forgets every register and RAM a command can change: two states that differ there only enter alike. -/
theorem faultEntry_congr {e : ErrorKind} {i : BitVec 10} {s t : State} (h1 : t.params = s.params) (h2 : t.cmd = s.cmd)
    (h3 : t.arg = s.arg) (h4 : t.overrun = s.overrun) (h5 : t.ports = s.ports) (h6 : t.agenda = s.agenda)
    (h7 : t.reads = s.reads) (h8 : t.draws = s.draws)
    (h9 : t.sawIdle = s.sawIdle) : faultEntry e i t = faultEntry e i s := by
  simp [faultEntry, State.cap, h1, h2, h3, h4, h5, h6, h7, h8, h9]

section ResetBlock
variable (s : State)

@[simp] theorem resetBlock_params : (resetBlock s).params = s.params := rfl
@[simp] theorem resetBlock_cap : (resetBlock s).cap = s.cap := rfl
@[simp] theorem resetBlock_busy : (resetBlock s).busy = false := rfl
@[simp] theorem resetBlock_err : (resetBlock s).err = none := rfl
@[simp] theorem resetBlock_ports : (resetBlock s).ports = s.ports := rfl
@[simp] theorem resetBlock_agenda : (resetBlock s).agenda = s.agenda := rfl
@[simp] theorem resetBlock_reads : (resetBlock s).reads = s.reads := rfl
@[simp] theorem resetBlock_sawIdle : (resetBlock s).sawIdle = s.sawIdle := rfl
@[simp] theorem resetBlock_draws : (resetBlock s).draws = s.draws := rfl

end ResetBlock

/-! ### The bookkeeping a command never touches -/

/-- t is s but for what a command's pseudocode may change (60_exceptions R166, R168 name the rest). -/
def BodyFrame (s t : State) : Prop :=
  t = { s with
    result := t.result, eos := t.eos, writer := t.writer, reader := t.reader, root := t.root, ncnt := t.ncnt
    tree := t.tree, code := t.code, ports := t.ports }

theorem bodyFrame_chains : Chains BodyFrame where
  refl _ := rfl
  trans s t u h1 h2 := by
    cases s; cases t; cases u
    simp_all [BodyFrame]

theorem BodyFrame.faultEntry_eq {s t : State} (h : BodyFrame s t) (e : ErrorKind) (i : BitVec 10) :
    faultEntry e i t = faultEntry e i { s with ports := t.ports } := by
  refine faultEntry_congr ?_ ?_ ?_ ?_ rfl ?_ ?_ ?_ ?_ <;> rw [h]

section
variable {s t : State} (h : BodyFrame s t)
include h
theorem BodyFrame.params : t.params = s.params := by rw [h]
theorem BodyFrame.cmd : t.cmd = s.cmd := by rw [h]
theorem BodyFrame.arg : t.arg = s.arg := by rw [h]
theorem BodyFrame.busy : t.busy = s.busy := by rw [h]
theorem BodyFrame.overrun : t.overrun = s.overrun := by rw [h]
theorem BodyFrame.err : t.err = s.err := by rw [h]
theorem BodyFrame.errInfo : t.errInfo = s.errInfo := by rw [h]
theorem BodyFrame.agenda : t.agenda = s.agenda := by rw [h]
theorem BodyFrame.reads : t.reads = s.reads := by rw [h]
theorem BodyFrame.sawIdle : t.sawIdle = s.sawIdle := by rw [h]
theorem BodyFrame.draws : t.draws = s.draws := by rw [h]
end

end Sys2Proof.Machine
end

