-- ==== Sys2Proof/Laws/Frames.lean ====
section
/-! SUPPORT. What every piece of pseudocode keeps, however it ends: the bookkeeping it never touches, the law of the ports, a
clean writer, the RAMs' canonical form, whole code entries, NCNT's range; and, family by family, what else it leaves
unchanged. -/

namespace Sys2Proof.Machine

/-- Every valid entry is whole (10_state R43). -/
def CodeWhole (s : State) : Prop :=
  ∀ sym e, s.validCode sym = some e → 1 ≤ e.len.toNat ∧ e.len.toNat ≤ 32 ∧ e.pat.toNat < 2 ^ e.len.toNat

/-- The tree RAM is canonical and NCNT in range. -/
def TreeSound (s : State) : Prop := s.tree.wf s.cap ∧ s.ncnt.toNat ≤ s.cap

/-- What every piece of pseudocode keeps. -/
structure BodyLaw (s t : State) : Prop where
  frame : BodyFrame s t
  ports : PortLaw s t
  clean : s.writer.clean → t.writer.clean
  tree : TreeSound s → TreeSound t
  codeWf : s.code.wf codeEntries → t.code.wf codeEntries
  codeWhole : CodeWhole s → CodeWhole t

theorem bodyLaw_chains : Chains BodyLaw where
  refl s := ⟨bodyFrame_chains.refl s, portLaw_chains.refl s, id, id, id, id⟩
  trans s t u h g :=
    ⟨bodyFrame_chains.trans s t u h.frame g.frame, portLaw_chains.trans s t u h.ports g.ports, g.clean ∘ h.clean,
      g.tree ∘ h.tree, g.codeWf ∘ h.codeWf, g.codeWhole ∘ h.codeWhole⟩

/-- Changing RESULT, EOS, the reader or ROOT keeps the law. -/
theorem bodyLaw_setResult (s : State) (w : Word) : BodyLaw s (s.setResult w) :=
  ⟨rfl, portLaw_of_eq rfl, id, id, id, id⟩
theorem bodyLaw_setEos (s : State) (b : Bool) : BodyLaw s (s.setEos b) :=
  ⟨rfl, portLaw_of_eq rfl, id, id, id, id⟩
theorem bodyLaw_setReader (s : State) (r : Reader) : BodyLaw s (s.setReader r) :=
  ⟨rfl, portLaw_of_eq rfl, id, id, id, id⟩
theorem bodyLaw_setRoot (s : State) (r : Root) : BodyLaw s (s.setRoot r) :=
  ⟨rfl, portLaw_of_eq rfl, id, id, id, id⟩

theorem clean_empty : Writer.clean { buf := 0#8, cnt := 0 } := by
  intro k _; simp

/-- Emptying the writer keeps the law. -/
theorem bodyLaw_setWriter {s : State} {w : Writer} (h : s.writer.clean → w.clean) : BodyLaw s (s.setWriter w) :=
  ⟨rfl, portLaw_of_eq rfl, h, id, id, id⟩

/-- Changing only the ports, lawfully, keeps the law. -/
theorem bodyLaw_setPorts {s : State} {p : Ports} (h : PortLaw s (s.setPorts p)) : BodyLaw s (s.setPorts p) :=
  ⟨rfl, h, id, id, id, id⟩

theorem inToken_law (s : State) : (inToken s).Ends BodyLaw s := by
  have h := inToken_portLaw s
  revert h
  unfold inToken
  split
  · exact fun _ => bodyLaw_chains.refl s
  · exact fun h => bodyLaw_setPorts h

theorem outByte_law (b : Byte) (s : State) : (outByte b s).Ends BodyLaw s := by
  have h := outByte_portLaw b s
  revert h
  unfold outByte
  split
  · exact fun _ => bodyLaw_chains.refl s
  · exact fun h => bodyLaw_setPorts h
  · exact fun h => bodyLaw_setPorts h

/-! ### Bit-level primitives -/

/-- The bit set is the bit read back; the others are as before. -/
theorem setByteBit_get (w : Byte) {k j : Nat} (b : Bool) (hk : k < 8) :
    (setByteBit w k b).getLsbD j = if j = k then b else w.getLsbD j := by
  unfold setByteBit
  by_cases hj : j < 8
  · have hj' : j < 8 := hj
    interval_cases k <;> interval_cases j <;> cases b <;> simp
  · have : j ≠ k := by omega
    simp only [this, if_false]
    rw [BitVec.getLsbD_of_ge _ _ (by omega), BitVec.getLsbD_of_ge _ _ (by omega)]

theorem writeBit_law (b : Bool) (s : State) : (writeBit b s).Ends BodyLaw s := by
  unfold writeBit
  simp only
  split
  · exact (outByte_law _ s).bind bodyLaw_chains fun _ t => bodyLaw_setWriter fun _ => clean_empty
  · rename_i h
    refine bodyLaw_setWriter fun hc k hk => ?_
    have h7 : s.writer.cnt.val < 7 := by
      have := s.writer.cnt.isLt
      have h' : s.writer.cnt.val ≠ 7 := fun he => h (Fin.ext he)
      omega
    have hv : (s.writer.cnt + 1).val = s.writer.cnt.val + 1 := by
      rw [Fin.val_add, Nat.mod_eq_of_lt] <;> simp; omega
    simp only [hv] at hk
    rw [setByteBit_get _ _ (by omega), if_neg (by omega)]
    exact hc k (by omega)

theorem writeBits_law (n : Nat) (v : Word) (s : State) : (writeBits n v s).Ends BodyLaw s := by
  induction n generalizing s with
  | zero => exact bodyLaw_chains.refl s
  | succ n ih => exact (writeBit_law _ s).bind bodyLaw_chains fun _ t => ih t

theorem closeWriter_law (s : State) : (closeWriter s).Ends BodyLaw s := by
  unfold closeWriter
  split
  · exact bodyLaw_chains.refl s
  · exact (outByte_law _ s).bind bodyLaw_chains fun _ t => bodyLaw_setWriter fun _ => clean_empty

theorem refill_law (s : State) : (refill s).Ends BodyLaw s := by
  unfold refill
  split
  · refine (inToken_law s).bind bodyLaw_chains fun t u => ?_
    cases t
    · exact bodyLaw_setReader _ _
    · exact bodyLaw_chains.refl u
    · exact bodyLaw_chains.refl u
  · exact bodyLaw_chains.refl s

theorem readBit_law (s : State) : (readBit s).Ends BodyLaw s :=
  (refill_law s).bind bodyLaw_chains fun _ t => bodyLaw_setReader t _

theorem readBitsFrom_law (n : Nat) (acc : Word) (s : State) : (readBitsFrom n acc s).Ends BodyLaw s := by
  induction n generalizing s acc with
  | zero => exact bodyLaw_chains.refl s
  | succ n ih => exact (readBit_law s).bind bodyLaw_chains fun _ t => ih _ t

theorem readBits_law (n : Nat) (s : State) : (readBits n s).Ends BodyLaw s := readBitsFrom_law n _ s

/-! ### Traversals -/

theorem requireRoot_law (s : State) : (requireRoot s).Ends BodyLaw s := by
  unfold requireRoot
  split <;> exact bodyLaw_chains.refl s

theorem visit_law (i : Slot) (v : Nat) (s : State) : (visit i v s).Ends BodyLaw s := by
  unfold visit node
  split
  · exact bodyLaw_chains.refl s
  · split
    · exact bodyLaw_chains.refl s
    · split <;> exact bodyLaw_chains.refl s

theorem validCode_writeCode (s : State) (sym sym' : Symbol) (e : CodeEntry) :
    (s.writeCode sym e).validCode sym' = if sym' = sym then (if e.valid then some e else none) else s.validCode sym' := by
  unfold State.validCode State.writeCode
  simp only [State.setCode_code, Memory.read_write]
  by_cases h : sym' = sym
  · simp [h]
  · have : sym'.toNat ≠ sym.toNat := fun he => h (BitVec.eq_of_toNat_eq he)
    simp [h, this]

/-- A whole entry written keeps the law. -/
theorem bodyLaw_writeCode {s : State} (sym : Symbol) {e : CodeEntry} (h1 : 1 ≤ e.len.toNat) (h2 : e.len.toNat ≤ 32)
    (h3 : e.pat.toNat < 2 ^ e.len.toNat) : BodyLaw s (s.writeCode sym e) := by
  refine ⟨rfl, portLaw_of_eq rfl, id, id, fun h => Memory.wf_write _ h sym.isLt, fun h sym' e' he => ?_⟩
  rw [validCode_writeCode] at he
  split at he
  · split at he
    · cases he; exact ⟨h1, h2, h3⟩
    · cases he
  · exact h _ _ he

theorem enterLeaf_law (i : Slot) (sym : Symbol) {d pat : Nat} (hp : pat < 2 ^ d) (s : State) :
    (enterLeaf i sym d pat s).Ends BodyLaw s := by
  unfold enterLeaf
  simp only
  split
  · exact bodyLaw_chains.refl s
  · rename_i hlen
    split
    · exact bodyLaw_chains.refl s
    · have hc : 1 ≤ (leafCode d pat).1 ∧ (leafCode d pat).2 < 2 ^ (leafCode d pat).1 := by
        unfold leafCode
        split
        · simp
        · exact ⟨by omega, hp⟩
      simp only [maxLen] at hlen
      have hl : (BitVec.ofNat 6 (leafCode d pat).1).toNat = (leafCode d pat).1 := by
        rw [BitVec.toNat_ofNat, Nat.mod_eq_of_lt]; omega
      refine bodyLaw_writeCode sym ?_ ?_ ?_
      · rw [hl]; exact hc.1
      · rw [hl]; omega
      · rw [hl, BitVec.toNat_ofNat]
        exact Nat.lt_of_le_of_lt (Nat.mod_le _ _) hc.2

theorem gen_law (fuel : Nat) (i : Slot) {d pat : Nat} (hp : pat < 2 ^ d) (v : Nat) (s : State) :
    (gen fuel i d pat v s).Ends BodyLaw s := by
  induction fuel generalizing i d pat v s with
  | zero => exact bodyLaw_chains.refl s
  | succ fuel ih =>
    refine (visit_law i v s).bind bodyLaw_chains fun nv t => ?_
    split
    · exact (enterLeaf_law i _ hp t).bind bodyLaw_chains fun _ u => bodyLaw_chains.refl u
    · have h1 : pat * 2 < 2 ^ (d + 1) := by rw [Nat.pow_succ]; omega
      have h2 : pat * 2 + 1 < 2 ^ (d + 1) := by rw [Nat.pow_succ]; omega
      exact (ih _ h1 _ t).bind bodyLaw_chains fun w u => ih _ h2 _ u

theorem bodyLaw_clearValid (s : State) : BodyLaw s (s.setCode (clearValid s.code)) := by
  refine ⟨rfl, portLaw_of_eq rfl, id, id, Memory.wf_clearValid, fun _ sym e he => ?_⟩
  simp only [State.validCode, State.setCode_code, Memory.read_clearValid] at he
  cases h : s.code.read sym.toNat <;> simp [h] at he

theorem genCodesBody_law (s : State) : (genCodesBody s).Ends BodyLaw s := by
  refine (requireRoot_law s).bind bodyLaw_chains fun _ t => ?_
  refine Res.Ends.bind (s := t) bodyLaw_chains ?_ fun _ u => bodyLaw_chains.refl u
  exact bodyLaw_chains.trans _ _ _ (bodyLaw_clearValid t) (gen_law _ _ (by simp) _ _)

theorem ser_law (fuel : Nat) (i : Slot) (v : Nat) (s : State) : (ser fuel i v s).Ends BodyLaw s := by
  induction fuel generalizing i v s with
  | zero => exact bodyLaw_chains.refl s
  | succ fuel ih =>
    refine (visit_law i v s).bind bodyLaw_chains fun nv t => ?_
    split
    · exact (writeBit_law _ t).bind bodyLaw_chains fun _ u =>
        (writeBits_law _ _ u).bind bodyLaw_chains fun _ w => bodyLaw_chains.refl w
    · exact (writeBit_law _ t).bind bodyLaw_chains fun _ u => (ih _ _ u).bind bodyLaw_chains fun w x => ih _ _ x

theorem writeHeaderBody_law (s : State) : (writeHeaderBody s).Ends BodyLaw s :=
  (requireRoot_law s).bind bodyLaw_chains fun _ t =>
    (ser_law _ _ _ t).bind bodyLaw_chains fun _ u => bodyLaw_chains.refl u

/-- The parameters never change, so the RAM's size does not. -/
theorem BodyLaw.cap_eq {s t : State} (h : BodyLaw s t) : t.cap = s.cap := by
  have := congrArg State.params h.frame
  exact congrArg (fun p : Params => p.nodeCap.val) this

theorem State.cap_le (s : State) : s.cap ≤ 1024 := s.params.nodeCap.upper
theorem State.le_cap (s : State) : 513 ≤ s.cap := s.params.nodeCap.lower

/-- A node written inside the RAM keeps the law. -/
theorem BodyLaw.writeTree {s t : State} (h : BodyLaw s t) {i : Nat} (n : Node) (hi : TreeSound s → i < s.cap) :
    BodyLaw s (t.writeTree i n) := by
  refine ⟨bodyFrame_chains.trans s t _ h.frame rfl, portLaw_chains.trans s t _ h.ports (portLaw_of_eq rfl), h.clean,
    fun hs => ⟨Memory.wf_write n (h.tree hs).1 ?_, (h.tree hs).2⟩, h.codeWf, h.codeWhole⟩
  change i < t.cap
  rw [h.cap_eq]
  exact hi hs

/-- A bind whose continuation may use how its start came from s. -/
theorem Res.Ends.bindFrom {α β : Type} {P : State → State → Prop} {s : State} {r : Res α} {f : α → State → Res β}
    (hr : r.Ends P s) (hf : ∀ a t, P s t → (f a t).Ends P s) : (r.bind f).Ends P s := by
  cases r with
  | ok a t => exact hf a t hr
  | raise e i t => exact hr
  | held t => exact hr
  | uninit i t => exact hr

/-- Allocating a slot (42_header R121) keeps NCNT in range. -/
theorem bodyLaw_allocate {s : State} (h : s.ncnt.toNat ≠ s.cap) : BodyLaw s (s.setNcnt (s.ncnt + 1#11)) := by
  refine ⟨rfl, portLaw_of_eq rfl, id, fun hs => ⟨hs.1, ?_⟩, id, id⟩
  have h1 := hs.2
  have h2 := s.cap_le
  simp only [State.setNcnt_ncnt, State.setNcnt_cap, BitVec.toNat_add, BitVec.toNat_ofNat]
  omega

theorem parse_law (fuel : Nat) (s : State) : (parse fuel s).Ends BodyLaw s := by
  induction fuel generalizing s with
  | zero => exact bodyLaw_chains.refl s
  | succ fuel ih =>
    unfold parse
    split
    · exact bodyLaw_chains.refl s
    · rename_i hne
      have hi : TreeSound s → (s.ncnt.setWidth 10).toNat < s.cap := fun hs => by
        have h1 := hs.2
        have h2 := s.cap_le
        rw [BitVec.toNat_setWidth]
        exact Nat.lt_of_le_of_lt (Nat.mod_le _ _) (by omega)
      have hread : (readBit (s.setNcnt (s.ncnt + 1#11))).Ends BodyLaw s :=
        bodyLaw_chains.trans _ _ _ (bodyLaw_allocate hne) (readBit_law _)
      refine hread.bindFrom fun tag t ht => ?_
      split
      · exact Res.Ends.bindFrom (bodyLaw_chains.trans _ _ _ ht (readBits_law 9 t)) fun _ u hu => hu.writeTree _ hi
      · exact Res.Ends.bindFrom (bodyLaw_chains.trans _ _ _ ht (ih t)) fun _ u hu =>
          Res.Ends.bindFrom (bodyLaw_chains.trans _ _ _ hu (ih u)) fun _ w hw => hw.writeTree _ hi

theorem readHeaderBody_law (s : State) : (readHeaderBody s).Ends BodyLaw s := by
  have h0 : BodyLaw s ((s.setNcnt 0#11).setRoot { s.root with valid := false }) :=
    ⟨rfl, portLaw_of_eq rfl, id, fun hs => ⟨hs.1, Nat.zero_le _⟩, id, id⟩
  exact Res.Ends.bindFrom (bodyLaw_chains.trans _ _ _ h0 (parse_law _ _)) fun _ t ht =>
    bodyLaw_chains.trans _ _ _ ht (bodyLaw_setRoot _ _)

/-! ### The stream codec -/

theorem encodeSym_law (sym : Symbol) (s : State) : (encodeSym sym s).Ends BodyLaw s := by
  unfold encodeSym
  split
  · exact bodyLaw_chains.refl s
  · exact writeBits_law _ _ s

theorem walkFrom_law (fuel : Nat) (l r : Slot) (v : Nat) (s : State) : (walkFrom fuel l r v s).Ends BodyLaw s := by
  induction fuel generalizing l r v s with
  | zero => exact bodyLaw_chains.refl s
  | succ fuel ih =>
    refine (readBit_law s).bind bodyLaw_chains fun b t => (visit_law _ _ t).bind bodyLaw_chains fun nv u => ?_
    split
    · exact bodyLaw_chains.refl u
    · exact ih _ _ _ u

theorem walk_law (s : State) : (walk s).Ends BodyLaw s := by
  refine (requireRoot_law s).bind bodyLaw_chains fun _ t => (visit_law _ _ t).bind bodyLaw_chains fun nv u => ?_
  split
  · exact (readBit_law u).bind bodyLaw_chains fun _ w => bodyLaw_chains.refl w
  · exact walkFrom_law _ _ _ _ u

theorem encodeLoop_law (fuel : Nat) (c : Word) (s : State) : (encodeLoop fuel c s).Ends BodyLaw s := by
  induction fuel generalizing c s with
  | zero => exact bodyLaw_chains.refl s
  | succ fuel ih =>
    refine (inToken_law s).bind bodyLaw_chains fun t u => ?_
    cases t
    · exact (encodeSym_law _ u).bind bodyLaw_chains fun _ w => ih _ w
    · exact bodyLaw_chains.refl u
    · exact bodyLaw_chains.refl u

theorem decodeLoop_law (fuel : Nat) (c : Word) (s : State) : (decodeLoop fuel c s).Ends BodyLaw s := by
  induction fuel generalizing c s with
  | zero => exact bodyLaw_chains.refl s
  | succ fuel ih =>
    refine (walk_law s).bind bodyLaw_chains fun sym t => ?_
    split
    · exact bodyLaw_chains.trans _ _ _ (bodyLaw_setEos t true) (bodyLaw_setReader _ _)
    · split
      · exact bodyLaw_chains.refl t
      · exact (outByte_law _ t).bind bodyLaw_chains fun _ u => ih _ u

/-- Every command's pseudocode keeps the law, however it ends. -/
theorem commandBody_law (i : Instr) (s : State) : (commandBody i s).Ends BodyLaw s := by
  cases i with
  | nop => exact bodyLaw_chains.refl s
  | writeBits n =>
    change (writeBitsBody n s).Ends BodyLaw s
    unfold writeBitsBody
    split
    · exact writeBits_law _ _ s
    · exact bodyLaw_chains.refl s
  | closeWriter => exact closeWriter_law s
  | readBits n =>
    change (readBitsBody n s).Ends BodyLaw s
    unfold readBitsBody
    split
    · exact (readBits_law n s).bind bodyLaw_chains fun v t => bodyLaw_setResult t v
    · exact bodyLaw_chains.refl s
  | readerAlign => exact bodyLaw_setReader s _
  | genCodes => exact genCodesBody_law s
  | writeHeader => exact writeHeaderBody_law s
  | readHeader => exact readHeaderBody_law s
  | encodeSymbol => exact encodeSym_law _ s
  | encodeStream =>
    exact (encodeLoop_law _ _ s).bind bodyLaw_chains fun c t => (encodeSym_law _ t).bind bodyLaw_chains fun _ u =>
      (closeWriter_law u).bind bodyLaw_chains fun _ w => bodyLaw_setResult w c
  | decodeSymbol =>
    exact (walk_law s).bind bodyLaw_chains fun sym t =>
      bodyLaw_chains.trans _ _ _ (bodyLaw_setResult t _) (bodyLaw_setEos _ _)
  | decodeStream =>
    refine Res.Ends.bind (s := s) bodyLaw_chains ?_ fun c t => bodyLaw_setResult t c
    exact bodyLaw_chains.trans _ _ _ (bodyLaw_setEos s false) (decodeLoop_law _ _ _)
  | reset => exact bodyLaw_chains.refl s

/-- Every arm of exec but RESET's is one engine step over its pseudocode. -/
theorem exec_eq_complete {i : Instr} (h : i ≠ .reset) (s : State) : exec i s = complete (commandBody i) s := by
  cases i <;> first | rfl | exact absurd rfl h

/-- What an engine step can end in: success, fault entry, hold, or UNINIT, each with the law of its pseudocode. -/
theorem exec_cases {i : Instr} (hi : i ≠ .reset) (s : State) :
    (∃ t, BodyLaw s t ∧ exec i s = .next (t.setBusy false)) ∨
    (∃ e info t, BodyLaw s t ∧ exec i s = .next (faultEntry e info t)) ∨
    exec i s = .next s ∨ (∃ k, exec i s = .fault (.uninit k)) := by
  rw [exec_eq_complete hi]
  have hl := commandBody_law i s
  unfold Res.Ends at hl
  rcases complete_cases (rfl : complete (commandBody i) s = _) with h | h | h | h
  · obtain ⟨t, hb, ho⟩ := h
    exact .inl ⟨t, by rw [hb] at hl; exact hl, ho⟩
  · obtain ⟨e, info, t, hb, ho⟩ := h
    exact .inr (.inl ⟨e, info, t, by rw [hb] at hl; exact hl, ho⟩)
  · obtain ⟨t, hb, ho⟩ := h
    exact .inr (.inr (.inl ho))
  · obtain ⟨k, t, hb, ho⟩ := h
    exact .inr (.inr (.inr ⟨k, ho⟩))

/-- A command whose pseudocode succeeds. -/
theorem exec_of_ok {i : Instr} (hi : i ≠ .reset) {s t : State} (h : commandBody i s = .ok () t) :
    exec i s = .next (t.setBusy false) := by
  rw [exec_eq_complete hi, complete_ok h]

/-- A command whose pseudocode raises: fault entry, in which only the port transactions are left of what it did. -/
theorem exec_of_raise {i : Instr} (hi : i ≠ .reset) {s t : State} {e : ErrorKind} {info : BitVec 10}
    (h : commandBody i s = .raise e info t) : exec i s = .next (faultEntry e info { s with ports := t.ports }) := by
  have hl := commandBody_law i s
  unfold Res.Ends at hl
  rw [h] at hl
  have hf : BodyFrame s t := hl.frame
  rw [exec_eq_complete hi, complete_raise h, hf.faultEntry_eq]

/-- A command that is held. -/
theorem exec_of_held {i : Instr} (hi : i ≠ .reset) {s t : State} (h : commandBody i s = .held t) : exec i s = .next s := by
  rw [exec_eq_complete hi, complete_held h]

/-- A command that meets UNINIT. -/
theorem exec_of_uninit {i : Instr} (hi : i ≠ .reset) {s t : State} {k : Slot} (h : commandBody i s = .uninit k t) :
    exec i s = .fault (.uninit k) := by
  rw [exec_eq_complete hi, complete_uninit h]

/-- The next state of a command, by how its pseudocode ended. -/
theorem exec_next_cases {i : Instr} (hi : i ≠ .reset) {s t : State} (h : exec i s = .next t) :
    (∃ u, commandBody i s = .ok () u ∧ BodyLaw s u ∧ t = u.setBusy false) ∨
    (∃ e info u, commandBody i s = .raise e info u ∧ BodyLaw s u ∧ t = faultEntry e info { s with ports := u.ports }) ∨
    ((∃ u, commandBody i s = .held u) ∧ t = s) := by
  have hl := commandBody_law i s
  unfold Res.Ends at hl
  cases hb : commandBody i s with
  | ok a u =>
    rw [hb] at hl
    rw [exec_of_ok hi hb] at h
    exact .inl ⟨u, rfl, hl, (Host.Outcome.next.inj h).symm⟩
  | raise e info u =>
    rw [hb] at hl
    rw [exec_of_raise hi hb] at h
    exact .inr (.inl ⟨e, info, u, rfl, hl, (Host.Outcome.next.inj h).symm⟩)
  | held u =>
    rw [exec_of_held hi hb] at h
    exact .inr (.inr ⟨⟨u, rfl⟩, (Host.Outcome.next.inj h).symm⟩)
  | uninit k u =>
    rw [exec_of_uninit hi hb] at h
    cases h

end Sys2Proof.Machine
end

