-- ==== Sys2Proof/Laws/BitStream.lean ====
section
/-! SUPPORT. The exact laws of the bit writer and the bit reader (40_bitstream R95 to R99): what they do in terms of bits in
stream order. The command laws cite these and never unfold the primitives. -/

namespace Sys2Proof.Machine

/-! ### Bits in stream order -/

@[simp] theorem msbFirst_length (n : Nat) (f : Nat → Bool) : (msbFirst n f).length = n := by
  induction n with
  | zero => rfl
  | succ n ih => simp [msbFirst, ih]

@[simp] theorem byteBits_length (b : Byte) : (byteBits b).length = 8 := msbFirst_length 8 _

@[simp] theorem fieldBits_length (n : Nat) (v : Word) : (fieldBits n v).length = n := msbFirst_length n _

@[simp] theorem streamBits_nil : streamBits [] = [] := rfl
@[simp] theorem streamBits_cons (b : Byte) (bs : List Byte) : streamBits (b :: bs) = byteBits b ++ streamBits bs := rfl
@[simp] theorem streamBits_append (a b : List Byte) : streamBits (a ++ b) = streamBits a ++ streamBits b := by
  simp [streamBits]

@[simp] theorem streamBits_length (bs : List Byte) : (streamBits bs).length = 8 * bs.length := by
  induction bs with
  | nil => rfl
  | cons b bs ih => simp [ih]; omega

theorem pending_length (w : Writer) : w.pending.length = w.cnt.val := by
  have := w.cnt.isLt
  rw [Writer.pending, List.length_take, byteBits_length]
  omega

theorem unread_length (r : Reader) : r.unread.length = r.cnt.val := msbFirst_length _ _

theorem bitsValue_append (l : List Bool) (b : Bool) : bitsValue (l ++ [b]) = bitsValue l * 2 + b.toNat := by
  simp [bitsValue]

theorem bitsValue_lt (l : List Bool) : bitsValue l < 2 ^ l.length := by
  induction l using List.reverseRecOn with
  | nil => simp [bitsValue]
  | append_singleton l b ih =>
    rw [bitsValue_append, List.length_append, List.length_singleton, Nat.pow_succ]
    have := Bool.toNat_lt b
    omega

/-- A number's low bits, most significant first, read back as the number. -/
theorem bitsValue_msbFirst (n x : Nat) : bitsValue (msbFirst n x.testBit) = x % 2 ^ n := by
  have gen : ∀ (n acc : Nat), (msbFirst n x.testBit).foldl (fun a b => a * 2 + b.toNat) acc = acc * 2 ^ n + x % 2 ^ n := by
    intro n
    induction n with
    | zero => intro acc; simp [msbFirst, Nat.mod_one]
    | succ n ih =>
      intro acc
      have hm : x % 2 ^ (n + 1) = x % 2 ^ n + 2 ^ n * (x.testBit n).toNat := by
        rw [Nat.mod_pow_succ, Nat.testBit_eq_decide_div_mod_eq]
        rcases Nat.mod_two_eq_zero_or_one (x / 2 ^ n) with h | h <;> simp [h]
      simp only [msbFirst, List.foldl_cons, ih, hm]
      rw [Nat.pow_succ]
      ring
  simpa [bitsValue] using gen n 0

theorem msbFirst_congr {n : Nat} {f g : Nat → Bool} (h : ∀ k, k < n → f k = g k) : msbFirst n f = msbFirst n g := by
  induction n with
  | zero => rfl
  | succ n ih => simp [msbFirst, h n (Nat.lt_succ_self n), ih fun k hk => h k (Nat.lt_succ_of_lt hk)]

theorem msbFirst_succ_last (n : Nat) (f : Nat → Bool) : msbFirst (n + 1) f = msbFirst n (fun k => f (k + 1)) ++ [f 0] := by
  induction n with
  | zero => rfl
  | succ n ih =>
    calc msbFirst (n + 1 + 1) f = f (n + 1) :: msbFirst (n + 1) f := rfl
      _ = f (n + 1) :: (msbFirst n (fun k => f (k + 1)) ++ [f 0]) := by rw [ih]
      _ = msbFirst (n + 1) (fun k => f (k + 1)) ++ [f 0] := rfl

/-- The bits of the number a list of bits reads as. -/
theorem msbFirst_bitsValue (l : List Bool) : msbFirst l.length (bitsValue l).testBit = l := by
  induction l using List.reverseRecOn with
  | nil => rfl
  | append_singleton l b ih =>
    rw [List.length_append, List.length_singleton, msbFirst_succ_last, bitsValue_append]
    have h1 : (fun k => (bitsValue l * 2 + b.toNat).testBit (k + 1)) = (bitsValue l).testBit := by
      funext k
      have hb := Bool.toNat_lt b
      rw [Nat.testBit_succ]
      congr 1
      omega
    have h0 : (bitsValue l * 2 + b.toNat).testBit 0 = b := by
      cases b <;> simp [Nat.testBit_zero]
    rw [h1, h0, ih]

/-- The bits of a word that holds the number a list of at most 32 bits reads as. -/
theorem fieldBits_bitsValue (l : List Bool) (h : l.length ≤ 32) :
    fieldBits l.length (BitVec.ofNat 32 (bitsValue l)) = l := by
  refine Eq.trans (msbFirst_congr fun k hk => ?_) (msbFirst_bitsValue l)
  rw [BitVec.getLsbD_ofNat]
  simp; omega

/-! ### The writer -/

/-- The pseudocode between s and t appended the bits `bits` to the output stream (40_bitstream R95, R96): the bytes the
sink accepted and the bits now pending are the bits pending before and then `bits`; nothing else changed. -/
def Emits (s t : State) (bits : List Bool) : Prop :=
  ∃ bs w, t = { s with writer := w, ports := s.ports.perform (sentAll bs) } ∧
    streamBits bs ++ w.pending = s.writer.pending ++ bits ∧ (s.writer.clean → w.clean)

theorem emits_refl (s : State) : Emits s s [] := ⟨[], s.writer, by simp [sentAll], by simp, id⟩

theorem sentAll_append (a b : List Byte) : sentAll (a ++ b) = sentAll a ++ sentAll b := by simp [sentAll]

theorem Emits.trans {s t u : State} {a b : List Bool} (h : Emits s t a) (g : Emits t u b) : Emits s u (a ++ b) := by
  obtain ⟨b1, w1, rfl, h1, c1⟩ := h
  obtain ⟨b2, w2, rfl, h2, c2⟩ := g
  refine ⟨b1 ++ b2, w2, ?_, ?_, c2 ∘ c1⟩
  · simp [Ports.perform_append, sentAll_append]
  · simp only at h2
    rw [streamBits_append, List.append_assoc, h2, ← List.append_assoc, h1, List.append_assoc]

@[simp] theorem sentAll_tokens (bs : List Byte) : (sentAll bs).filterMap PortOp.token = [] := by
  simp [sentAll, PortOp.token, List.filterMap_map, Function.comp_def]
@[simp] theorem sentAll_answered (bs : List Byte) :
    (sentAll bs).filterMap PortOp.answered = List.replicate bs.length .accept := by
  induction bs with
  | nil => rfl
  | cons b bs ih => simp [sentAll, PortOp.answered, List.replicate_succ] at ih ⊢; exact ih
@[simp] theorem sentAll_accepted (bs : List Byte) : (sentAll bs).filterMap PortOp.accepted = bs := by
  induction bs with
  | nil => rfl
  | cons b bs ih => simp [sentAll, PortOp.accepted] at ih ⊢; exact ih

@[simp] theorem perform_sentAll_answers (p : Ports) (bs : List Byte) :
    (p.perform (sentAll bs)).answers = p.answers.drop bs.length := by simp [Ports.perform]
@[simp] theorem perform_sentAll_offered (p : Ports) (bs : List Byte) :
    (p.perform (sentAll bs)).offered = p.offered := by simp [Ports.perform]

/-- How many bytes an emission sends, and how many bits it leaves pending. -/
theorem emits_count {w w' : Writer} {bs : List Byte} {bits : List Bool}
    (h : streamBits bs ++ w'.pending = w.pending ++ bits) :
    bs.length = (w.cnt.val + bits.length) / 8 ∧ w'.cnt.val = (w.cnt.val + bits.length) % 8 := by
  have hl := congrArg List.length h
  simp only [List.length_append, streamBits_length, pending_length] at hl
  have := w'.cnt.isLt
  omega

theorem sinkAccepts_mono {s : State} {n m : Nat} (h : s.sinkAccepts n) (hm : m ≤ n) : s.sinkAccepts m := by
  obtain ⟨r, hr⟩ := h
  exact ⟨List.replicate (n - m) .accept ++ r, by
    rw [← hr, ← List.append_assoc, List.replicate_append_replicate]; congr 2; omega⟩

theorem sinkAccepts_drop {s t : State} {n k : Nat} (h : s.sinkAccepts n) (ht : t.ports.answers = s.ports.answers.drop k) :
    t.sinkAccepts (n - k) := by
  obtain ⟨r, hr⟩ := h
  by_cases hk : k ≤ n
  · refine ⟨r, ?_⟩
    rw [ht, ← hr, List.drop_append_of_le_length (by simpa using hk), List.drop_replicate]
  · rw [Nat.sub_eq_zero_of_le (by omega)]; exact List.nil_prefix

/-- After an emission the sink still accepts what it has not used. -/
theorem Emits.sinkAccepts {s t : State} {bits : List Bool} (h : Emits s t bits) {m : Nat}
    (hs : s.sinkAccepts ((s.writer.cnt.val + bits.length + m) / 8)) : t.sinkAccepts ((t.writer.cnt.val + m) / 8) := by
  obtain ⟨bs, w, rfl, hb, -⟩ := h
  obtain ⟨h1, h2⟩ := emits_count hb
  refine sinkAccepts_mono (sinkAccepts_drop (k := bs.length) hs (by simp)) ?_
  simp only [h1, h2]
  omega

theorem outByte_accept {b : Byte} {s : State} (h : s.sinkAccepts 1) :
    outByte b s = .ok () { s with ports := s.ports.perform (sentAll [b]) } := by
  obtain ⟨r, hr⟩ := h
  have ha : s.ports.answers = .accept :: r := by simpa using hr.symm
  unfold outByte
  rw [ha]
  simp [State.setPorts, Ports.perform, sentAll, PortOp.token, PortOp.answered, ha, List.filterMap_cons]

theorem byteBits_setBit (w : Byte) {c : Nat} (hc : c < 8) (b : Bool) :
    (byteBits (setByteBit w (7 - c) b)).take (c + 1) = (byteBits w).take c ++ [b] := by
  have hg : ∀ j, (setByteBit w (7 - c) b).getLsbD j = if j = 7 - c then b else w.getLsbD j :=
    fun j => setByteBit_get w b (by omega)
  simp only [byteBits, msbFirst, hg]
  interval_cases c <;> rfl

theorem writeBit_emits {b : Bool} {s : State} (h : s.sinkAccepts ((s.writer.cnt.val + 1) / 8)) :
    ∃ t, writeBit b s = .ok () t ∧ Emits s t [b] := by
  have hbits := byteBits_setBit s.writer.buf s.writer.cnt.isLt b
  have hlaw := writeBit_law b s
  by_cases h7 : s.writer.cnt = 7
  · have hv : s.writer.cnt.val = 7 := by rw [h7]; rfl
    rw [hv] at h hbits
    have heq : writeBit b s = (outByte (setByteBit s.writer.buf (7 - 7) b) s).bind fun _ s =>
        .ok () (s.setWriter { buf := 0#8, cnt := 0 }) := by
      unfold writeBit
      simp only [h7, if_true]
      rfl
    rw [heq, outByte_accept h]
    refine ⟨_, rfl, [_], { buf := 0#8, cnt := 0 }, rfl, ?_, fun _ => clean_empty⟩
    rw [List.take_of_length_le (by simp)] at hbits
    simp [Writer.pending, hv]
    exact hbits
  · have hlt : s.writer.cnt.val < 7 := by
      have := s.writer.cnt.isLt
      have h' : s.writer.cnt.val ≠ 7 := fun he => h7 (Fin.ext he)
      omega
    have hv : (s.writer.cnt + 1).val = s.writer.cnt.val + 1 := by
      rw [Fin.val_add, Nat.mod_eq_of_lt] <;> simp; omega
    have heq : writeBit b s = .ok () (s.setWriter
        { buf := setByteBit s.writer.buf (7 - s.writer.cnt.val) b, cnt := s.writer.cnt + 1 }) := by
      unfold writeBit
      simp only [h7, if_false]
    rw [heq] at hlaw ⊢
    refine ⟨_, rfl, [], { buf := setByteBit s.writer.buf (7 - s.writer.cnt.val) b, cnt := s.writer.cnt + 1 },
      by simp [sentAll, State.setWriter], ?_, hlaw.clean⟩
    simp only [Writer.pending, hv, hbits]
    simp

theorem writeBits_emits (n : Nat) (v : Word) {s : State} (h : s.sinkAccepts ((s.writer.cnt.val + n) / 8)) :
    ∃ t, writeBits n v s = .ok () t ∧ Emits s t (fieldBits n v) := by
  induction n generalizing s with
  | zero => exact ⟨s, rfl, emits_refl s⟩
  | succ n ih =>
    obtain ⟨t, ht, he⟩ := writeBit_emits (b := v.getLsbD n) (s := s) (sinkAccepts_mono h (by omega))
    obtain ⟨u, hu, hf⟩ := ih (he.sinkAccepts (m := n) (by simpa [Nat.add_assoc, Nat.add_comm 1 n] using h))
    refine ⟨u, ?_, he.trans hf⟩
    rw [writeBits, ht]
    exact hu

/-- A clean writer's byte: the pending bits, then zeros. -/
theorem byteBits_of_clean {w : Writer} (h : w.clean) : byteBits w.buf = w.pending ++ List.replicate (8 - w.cnt.val) false := by
  obtain ⟨buf, ⟨c, hc⟩⟩ := w
  have hz : ∀ k, k < 8 - c → buf.getLsbD k = false := fun k hk => h ⟨k, by omega⟩ hk
  change byteBits buf = (byteBits buf).take c ++ List.replicate (8 - c) false
  clear h
  unfold byteBits
  generalize buf.getLsbD = f at hz ⊢
  interval_cases c <;> simp [msbFirst, hz]

/-- `CloseWriter()` (40_bitstream R97) on a clean writer: the pending bits go out padded with zeros to a whole byte. -/
theorem closeWriter_emits {s : State} (hc : s.writer.clean) (h : s.sinkAccepts ((s.writer.cnt.val + 7) / 8)) :
    ∃ bs k, closeWriter s = .ok () { s with writer := { buf := 0#8, cnt := 0 }, ports := s.ports.perform (sentAll bs) } ∧
      k < 8 ∧ streamBits bs = s.writer.pending ++ List.replicate k false := by
  have hb := byteBits_of_clean hc
  by_cases h0 : s.writer.cnt = 0
  · have hv : s.writer.cnt.val = 0 := by rw [h0]; rfl
    have hbuf : s.writer.buf = 0#8 := by
      refine BitVec.eq_of_getLsbD_eq fun k hk => ?_
      rw [hc ⟨k, hk⟩ (by simp [hv]; omega)]
      simp
    have hw : s.writer = { buf := 0#8, cnt := 0 } := by
      rw [show s.writer = ⟨s.writer.buf, s.writer.cnt⟩ from rfl, hbuf, h0]
    refine ⟨[], 0, ?_, by omega, by simp [hw, Writer.pending]⟩
    simp [closeWriter, h0, sentAll, ← hw]
  · have hlt := s.writer.cnt.isLt
    have hne : s.writer.cnt.val ≠ 0 := fun he => h0 (Fin.ext he)
    refine ⟨[s.writer.buf], 8 - s.writer.cnt.val, ?_, by omega, by simpa using hb⟩
    unfold closeWriter
    rw [if_neg h0, outByte_accept (sinkAccepts_mono h (by omega))]
    rfl

/-! ### The reader -/

@[simp] theorem tookAll_tokens (ts : List Token) : (tookAll ts).filterMap PortOp.token = ts := by
  induction ts with
  | nil => rfl
  | cons t ts ih => simp [tookAll, PortOp.token] at ih ⊢; exact ih
@[simp] theorem tookAll_answered (ts : List Token) : (tookAll ts).filterMap PortOp.answered = [] := by
  induction ts with
  | nil => rfl
  | cons t ts ih => simp [tookAll, PortOp.answered] at ih ⊢
@[simp] theorem tookAll_accepted (ts : List Token) : (tookAll ts).filterMap PortOp.accepted = [] := by
  induction ts with
  | nil => rfl
  | cons t ts ih => simp [tookAll, PortOp.accepted] at ih ⊢

theorem tookAll_append (a b : List Token) : tookAll (a ++ b) = tookAll a ++ tookAll b := by simp [tookAll]

@[simp] theorem perform_tookAll_offered (p : Ports) (ts : List Token) :
    (p.perform (tookAll ts)).offered = p.offered.drop ts.length := by simp [Ports.perform]
@[simp] theorem perform_tookAll_answers (p : Ports) (ts : List Token) :
    (p.perform (tookAll ts)).answers = p.answers := by simp [Ports.perform]

/-- Consuming the token at the head of IN. -/
theorem perform_took_one {p : Ports} {t : Token} {rest : List Token} (h : p.offered = t :: rest) :
    p.perform (tookAll [t]) = { p with offered := rest, log := p.log ++ [.took t] } := by
  simp only [Ports.perform, tookAll_tokens, tookAll_answered, h]
  rfl

/-- The pseudocode between s and t took the bits `bits` from the input stream (40_bitstream R98, R99), consuming k tokens
and no more than it needs (20_memory R61); RBUF is the last byte taken (10_state R36); nothing else changed. -/
def Takes (s t : State) (bits : List Bool) : Prop :=
  ∃ r k, t = { s with reader := r, ports := s.ports.perform (tookAll (s.ports.offered.take k)) } ∧
    k = tokensFor s.reader.cnt.val bits.length ∧ k ≤ s.ports.offered.length ∧
    s.inBits = bits ++ readableBits r (s.ports.offered.drop k) ∧
    r.cnt.val + bits.length = s.reader.cnt.val + 8 * k ∧
    (k = 0 → r.buf = s.reader.buf) ∧ (0 < k → s.ports.offered[k - 1]? = some (.byte r.buf))

theorem takes_refl (s : State) : Takes s s [] :=
  ⟨s.reader, 0, by simp [tookAll], by simp [tokensFor], by simp, by simp [State.inBits], by simp, fun _ => rfl, by simp⟩

/-- The bits after a take. -/
theorem Takes.inBits {s t : State} {bits : List Bool} (h : Takes s t bits) : s.inBits = bits ++ t.inBits := by
  obtain ⟨r, k, rfl, -, hle, hb, -⟩ := h
  simpa [State.inBits, hle] using hb

theorem Takes.trans {s t u : State} {a b : List Bool} (h : Takes s t a) (g : Takes t u b) : Takes s u (a ++ b) := by
  have hin := h.inBits
  obtain ⟨r1, k1, rfl, e1, l1, i1, c1, z1, p1⟩ := h
  obtain ⟨r2, k2, rfl, e2, l2, i2, c2, z2, p2⟩ := g
  simp only [perform_tookAll_offered, List.length_take, Nat.min_eq_left l1] at *
  rw [List.length_drop] at l2
  refine ⟨r2, k1 + k2, ?_, ?_, by omega, ?_, ?_, ?_, ?_⟩
  · simp [Ports.perform_append, ← tookAll_append, List.take_add]
  · simp only [tokensFor, List.length_append] at *
    omega
  · rw [hin, i2, List.append_assoc, List.drop_drop]
  · simp only [List.length_append]; omega
  · intro h0
    rw [z2 (by omega), z1 (by omega)]
  · intro hp
    by_cases hk : k2 = 0
    · subst hk
      rw [z2 rfl]
      exact p1 (by omega)
    · have := p2 (by omega)
      rw [List.getElem?_drop] at this
      rw [← this]
      congr 1
      omega

theorem readBit_takes {s : State} {b : Bool} {rest : List Bool} (h : s.inBits = b :: rest) :
    ∃ t, readBit s = .ok b t ∧ Takes s t [b] := by
  by_cases h0 : s.reader.cnt = 0
  · have hv : s.reader.cnt.val = 0 := by rw [h0]; rfl
    have hin : s.inBits = streamBits (leadingBytes s.ports.offered) := by
      simp [State.inBits, readableBits, Reader.unread, hv, msbFirst]
    cases ho : s.ports.offered with
    | nil => simp [hin, ho, leadingBytes] at h
    | cons tok toks =>
      cases tok with
      | byte x =>
        rw [hin, ho] at h
        have hb : byteBits x = x.getLsbD 7 :: msbFirst 7 x.getLsbD := rfl
        have h7 : x.getLsbD 7 = b := by
          rw [leadingBytes, streamBits_cons, hb] at h
          exact (List.cons.inj h).1
        refine ⟨{ s with reader := { buf := x, cnt := 7 }, ports := s.ports.perform (tookAll [.byte x]) }, ?_,
          { buf := x, cnt := 7 }, 1, by simp [ho], by simp [tokensFor, hv], by simp [ho], ?_, by simp [hv], by simp,
          by simp [ho]⟩
        · rw [perform_took_one ho]
          simp [readBit, refill, h0, inToken, ho, takeBit, State.setPorts, State.setReader]
          exact h7
        · rw [hin, ho, leadingBytes, streamBits_cons, hb, h7]
          rfl
      | endOfStream => simp [hin, ho, leadingBytes] at h
      | error => simp [hin, ho, leadingBytes] at h
  · have hpos : 0 < s.reader.cnt.val := Nat.pos_of_ne_zero fun he => h0 (Fin.ext he)
    obtain ⟨c, hc⟩ : ∃ c, s.reader.cnt.val = c + 1 := ⟨s.reader.cnt.val - 1, by omega⟩
    have hlt := s.reader.cnt.isLt
    have hun : s.reader.unread = s.reader.buf.getLsbD c :: msbFirst c s.reader.buf.getLsbD := by
      rw [Reader.unread, hc, msbFirst]
    have hb : s.reader.buf.getLsbD c = b := by
      rw [State.inBits, readableBits, hun] at h
      exact (List.cons.inj h).1
    refine ⟨{ s with reader := { buf := s.reader.buf, cnt := ⟨c, by omega⟩ } }, ?_,
      { buf := s.reader.buf, cnt := ⟨c, by omega⟩ }, 0, by simp [tookAll], by simp [tokensFor, hc], by omega, ?_,
      by simp [hc], fun _ => rfl, by simp⟩
    · simp [readBit, refill, h0, takeBit, hc, State.setReader, hb]
    · rw [State.inBits, readableBits, hun, hb]
      rfl

theorem bitsValue_cons (b : Bool) (l : List Bool) : bitsValue (b :: l) = b.toNat * 2 ^ l.length + bitsValue l := by
  induction l using List.reverseRecOn with
  | nil => simp [bitsValue]
  | append_singleton l c ih =>
    rw [← List.cons_append, bitsValue_append, ih, bitsValue_append, List.length_append, List.length_singleton,
      Nat.pow_succ]
    ring

/-- `(acc << 1) | b` on 32 bits. -/
theorem shiftIn_eq (acc : Word) (b : Bool) :
    (acc <<< 1) ||| (BitVec.ofBool b).setWidth 32 = BitVec.ofNat 32 (acc.toNat * 2 + b.toNat) := by
  refine BitVec.eq_of_getLsbD_eq fun k hk => ?_
  rw [BitVec.getLsbD_ofNat]
  have hb := Bool.toNat_lt b
  cases k with
  | zero =>
    cases b <;> simp [Nat.testBit_zero]
  | succ k =>
    rw [Nat.testBit_succ, show (acc.toNat * 2 + b.toNat) / 2 = acc.toNat by omega]
    simp [BitVec.testBit_toNat]

theorem readBitsFrom_takes (n : Nat) (acc : Word) {s : State} (h : n ≤ s.inBits.length) :
    ∃ t, readBitsFrom n acc s =
        .ok (BitVec.ofNat 32 (acc.toNat * 2 ^ n + bitsValue (s.inBits.take n))) t ∧ Takes s t (s.inBits.take n) := by
  induction n generalizing s acc with
  | zero => exact ⟨s, by simp [readBitsFrom, bitsValue], by simpa using takes_refl s⟩
  | succ n ih =>
    cases hb : s.inBits with
    | nil => simp [hb] at h
    | cons b rest =>
      obtain ⟨t, ht, hk⟩ := readBit_takes hb
      have hrest : t.inBits = rest := by
        have := hk.inBits
        rw [hb] at this
        simpa using this.symm
      obtain ⟨u, hu, hk2⟩ := ih ((acc <<< 1) ||| (BitVec.ofBool b).setWidth 32) (s := t) (by rw [hrest]; simp [hb] at h; exact h)
      refine ⟨u, ?_, ?_⟩
      · have hlen : (rest.take n).length = n := by
          simp [hb] at h
          simp [h]
        rw [List.take_succ_cons, bitsValue_cons, hlen, readBitsFrom, ht, Res.ok_bind, hu, hrest, shiftIn_eq]
        congr 1
        refine BitVec.eq_of_toNat_eq ?_
        simp only [BitVec.toNat_ofNat]
        refine (((Nat.mod_modEq _ _).mul_right _).add_right _).trans ?_
        have : (acc.toNat * 2 + b.toNat) * 2 ^ n + bitsValue (rest.take n) =
            acc.toNat * 2 ^ (n + 1) + (b.toNat * 2 ^ n + bitsValue (rest.take n)) := by ring
        rw [this]
      · simpa [hrest] using hk.trans hk2

theorem readBits_takes {n : Nat} {s : State} (h : n ≤ s.inBits.length) :
    ∃ t, readBits n s = .ok (BitVec.ofNat 32 (bitsValue (s.inBits.take n))) t ∧ Takes s t (s.inBits.take n) := by
  simpa [readBits] using readBitsFrom_takes n 0#32 h

/-! ### Running out of input -/

/-- What taking a bit beyond the last readable one does (40_bitstream R98): held while IN offers nothing; End raises
TRUNCATED_STREAM, Error raises SOURCE_UNREADABLE. Every readable byte and the offending token have been consumed. -/
def RunsOut {α : Type} (s : State) (r : Res α) : Prop :=
  let n := (leadingBytes s.ports.offered).length
  match s.ports.offered.drop n with
  | [] => ∃ t, r = .held t
  | .byte _ :: _ => False
  | .endOfStream :: _ => ∃ t, r = .raise .truncatedStream 0#10 t ∧
      t.ports = s.ports.perform (tookAll (s.ports.offered.take (n + 1)))
  | .error :: _ => ∃ t, r = .raise .sourceUnreadable 0#10 t ∧
      t.ports = s.ports.perform (tookAll (s.ports.offered.take (n + 1)))

theorem RunsOut.bind {α β : Type} {s : State} {r : Res α} (h : RunsOut s r) (f : α → State → Res β) :
    RunsOut s (r.bind f) := by
  unfold RunsOut at h ⊢
  simp only at h ⊢
  split at h
  · obtain ⟨t, rfl⟩ := h; exact ⟨t, rfl⟩
  · exact h.elim
  · obtain ⟨t, rfl, ht⟩ := h; exact ⟨t, rfl, ht⟩
  · obtain ⟨t, rfl, ht⟩ := h; exact ⟨t, rfl, ht⟩

theorem leadingBytes_length_le (l : List Token) : (leadingBytes l).length ≤ l.length := by
  induction l with
  | nil => simp [leadingBytes]
  | cons t l ih => cases t <;> simp [leadingBytes]; exact ih

theorem leadingBytes_drop (l : List Token) {k : Nat} (h : k ≤ (leadingBytes l).length) :
    leadingBytes (l.drop k) = (leadingBytes l).drop k := by
  induction l generalizing k with
  | nil => simp [leadingBytes]
  | cons t l ih =>
    cases k with
    | zero => simp
    | succ k =>
      cases t with
      | byte b => simpa [leadingBytes] using ih (by simpa [leadingBytes] using h)
      | endOfStream => simp [leadingBytes] at h
      | error => simp [leadingBytes] at h

/-- A take consumes only bytes. -/
theorem Takes.le_leading {s t : State} {bits : List Bool} (h : Takes s t bits) {k : Nat}
    (hk : k = tokensFor s.reader.cnt.val bits.length) : k ≤ (leadingBytes s.ports.offered).length := by
  have hl := congrArg List.length h.inBits
  simp only [State.inBits, readableBits, List.length_append, unread_length, streamBits_length] at hl
  simp only [tokensFor] at hk
  omega

/-- Running out after a take is running out from the start. -/
theorem RunsOut.after {α : Type} {s t : State} {bits : List Bool} (h : Takes s t bits) {r : Res α} (g : RunsOut t r) :
    RunsOut s r := by
  obtain ⟨rd, k, rfl, hk, hle, hb, -⟩ := id h
  have hkl := h.le_leading hk
  unfold RunsOut at g ⊢
  simp only [perform_tookAll_offered, List.length_take, Nat.min_eq_left hle, leadingBytes_drop _ hkl, List.length_drop,
    List.drop_drop] at g
  have e : k + ((leadingBytes s.ports.offered).length - k) = (leadingBytes s.ports.offered).length := by omega
  have e2 : k + ((leadingBytes s.ports.offered).length - k + 1) = (leadingBytes s.ports.offered).length + 1 := by omega
  rw [e] at g
  simp only
  have hp : (s.ports.perform (tookAll (s.ports.offered.take k))).perform
      (tookAll ((s.ports.offered.drop k).take ((leadingBytes s.ports.offered).length - k + 1))) =
      s.ports.perform (tookAll (s.ports.offered.take ((leadingBytes s.ports.offered).length + 1))) := by
    rw [Ports.perform_append, ← tookAll_append, ← List.take_add, e2]
  rw [hp] at g
  exact g

theorem readBit_runsOut {s : State} (h : s.inBits = []) : RunsOut s (readBit s) := by
  have hl := congrArg List.length h
  simp only [State.inBits, readableBits, List.length_append, unread_length, streamBits_length, List.length_nil] at hl
  have h0 : s.reader.cnt = 0 := Fin.ext (by simp; omega)
  have hn : (leadingBytes s.ports.offered).length = 0 := by omega
  unfold RunsOut
  simp only [hn, List.drop_zero]
  cases ho : s.ports.offered with
  | nil => exact ⟨s, by simp [readBit, refill, h0, inToken, ho]⟩
  | cons t l =>
    cases t with
    | byte b => simp [ho, leadingBytes] at hn
    | endOfStream =>
      exact ⟨_, by simp [readBit, refill, h0, inToken, ho]; rfl, by
        rw [List.take_succ_cons, List.take_zero, perform_took_one ho]; simp⟩
    | error =>
      exact ⟨_, by simp [readBit, refill, h0, inToken, ho]; rfl, by
        rw [List.take_succ_cons, List.take_zero, perform_took_one ho]; simp⟩

theorem readBitsFrom_runsOut (n : Nat) (acc : Word) {s : State} (h : s.inBits.length < n) :
    RunsOut s (readBitsFrom n acc s) := by
  induction n generalizing s acc with
  | zero => omega
  | succ n ih =>
    cases hb : s.inBits with
    | nil => exact (readBit_runsOut hb).bind _
    | cons b rest =>
      obtain ⟨t, ht, hk⟩ := readBit_takes hb
      have hrest : t.inBits = rest := by
        have := hk.inBits
        rw [hb] at this
        simpa using this.symm
      rw [readBitsFrom, ht, Res.ok_bind]
      exact RunsOut.after hk (ih _ (by rw [hrest]; simp [hb] at h; omega))

theorem readBits_runsOut {n : Nat} {s : State} (h : s.inBits.length < n) : RunsOut s (readBits n s) :=
  readBitsFrom_runsOut n _ h

/-! ### Bytes and bits -/

theorem byteBits_inj {a b : Byte} (h : byteBits a = byteBits b) : a = b := by
  refine BitVec.eq_of_getLsbD_eq fun k hk => ?_
  simp only [byteBits, msbFirst, List.cons.injEq, and_true] at h
  obtain ⟨h7, h6, h5, h4, h3, h2, h1, h0⟩ := h
  interval_cases k <;> assumption

/-- Bytes are determined by their bits. -/
theorem streamBits_inj {a b : List Byte} (h : streamBits a = streamBits b) : a = b := by
  induction a generalizing b with
  | nil =>
    cases b with
    | nil => rfl
    | cons x b => simp [streamBits, byteBits, msbFirst] at h
  | cons x a ih =>
    cases b with
    | nil => simp [streamBits, byteBits, msbFirst] at h
    | cons y b =>
      simp only [streamBits, List.flatMap_cons] at h
      obtain ⟨h1, h2⟩ := List.append_inj h (by simp [byteBits])
      rw [byteBits_inj h1, ih h2]

/-- Any bits, padded with fewer than eight zeros, are the bits of some bytes. -/
theorem exists_padded (bits : List Bool) : ∃ bs pad, pad < 8 ∧ streamBits bs = bits ++ List.replicate pad false := by
  obtain ⟨n, hn⟩ : ∃ n, bits.length ≤ n := ⟨_, Nat.le_refl _⟩
  induction n generalizing bits with
  | zero => exact ⟨[], 0, by omega, by simp [List.length_eq_zero_iff.1 (Nat.le_zero.1 hn), streamBits]⟩
  | succ n ih =>
    have mk : ∀ l : List Bool, l.length = 8 → ∃ b : Byte, byteBits b = l := by
      intro l hl
      match l, hl with
      | [a,b,c,d,e,f,g,h], _ =>
        refine ⟨BitVec.ofFnLE (fun k : Fin 8 => [h,g,f,e,d,c,b,a][k.val]!), ?_⟩
        cases a <;> cases b <;> cases c <;> cases d <;> cases e <;> cases f <;> cases g <;> cases h <;> rfl
    by_cases hlt : bits.length < 8
    · by_cases h0 : bits.length = 0
      · exact ⟨[], 0, by omega, by simp [List.length_eq_zero_iff.1 h0, streamBits]⟩
      · obtain ⟨b, hb⟩ := mk (bits ++ List.replicate (8 - bits.length) false) (by simp; omega)
        exact ⟨[b], 8 - bits.length, by omega, by simp [streamBits, hb]⟩
    · obtain ⟨b, hb⟩ := mk (bits.take 8) (by simp; omega)
      obtain ⟨bs, pad, hp, hs⟩ := ih (bits.drop 8) (by simp; omega)
      refine ⟨b :: bs, pad, hp, ?_⟩
      simp only [streamBits, List.flatMap_cons, hb] at hs ⊢
      rw [hs, ← List.append_assoc, List.take_append_drop]

end Sys2Proof.Machine
end

