-- ==== Sys2Proof/Laws/Traversal.lean ====
section
/-! SUPPORT. The exact laws of the traversals on a tree that stands in the tree RAM (41_codetable R110, R111, 42_header R120): one
visit, GEN_CODES as the list of its leaves, WRITE_HEADER as the header grammar. -/

namespace Sys2Proof.Machine

theorem HTree.size_pos (t : HTree) : 0 < t.size := by cases t <;> simp [HTree.size]

/-! ### One visit -/

theorem visit_eq {s : State} {i : Slot} {n : Node} {v : Nat} (hi : i.toNat < s.cap) (hr : s.tree.read i.toNat = some n)
    (hv : v < s.cap) : visit i v s = .ok (n, v + 1) s := by
  unfold visit node
  rw [if_neg (by omega), if_neg (by omega), hr]
  rfl

/-- A visit past the bound raises TREE_INVALID at the slot visited. -/
theorem visit_bound {s : State} {i : Slot} {v : Nat} (hv : s.cap ≤ v) : visit i v s = .raise .treeInvalid i s := by
  unfold visit
  split
  · rfl
  · rw [if_pos (by omega)]

theorem slotAlong_cons {cap : Nat} {m : Memory Node} {i l r : Slot} (hi : i.toNat < cap)
    (hr : m.read i.toNat = some (.internal l r)) (b : Bool) (p : List Bool) :
    slotAlong cap m i (b :: p) = slotAlong cap m (if b then r else l) p := by
  rw [slotAlong, if_pos hi, hr]

/-- A descent's first step, from its result. -/
theorem slotAlong_cons_some {cap : Nat} {m : Memory Node} {i j : Slot} {b : Bool} {p : List Bool}
    (h : slotAlong cap m i (b :: p) = some j) :
    ∃ l r, i.toNat < cap ∧ m.read i.toNat = some (.internal l r) ∧ slotAlong cap m (if b then r else l) p = some j := by
  unfold slotAlong at h
  by_cases hi : i.toNat < cap
  · rw [if_pos hi] at h
    cases hr : m.read i.toNat with
    | none => rw [hr] at h; cases h
    | some n =>
      rw [hr] at h
      cases n with
      | leaf sym => cases h
      | internal l r => exact ⟨l, r, hi, rfl, h⟩
  · rw [if_neg hi] at h
    cases h

/-! ### GEN_CODES -/

/-- Entering leaves one after the other, below the path q. -/
def enterSeq (q : List Bool) : List (Slot × List Bool × Symbol) → State → Res Unit
  | [], s => .ok () s
  | e :: l, s =>
    (enterLeaf e.1 e.2.2 (q.length + e.2.1.length) (bitsValue (q ++ e.2.1)) s).bind fun _ s => enterSeq q l s

theorem enterLeaf_ok {i : Slot} {sym : Symbol} {d p : Nat} {s t : State} (h : enterLeaf i sym d p s = .ok () t) :
    ∃ m, t = s.setCode m := by
  unfold enterLeaf at h
  simp only at h
  split at h
  · cases h
  · split at h
    · cases h
    · cases h; exact ⟨_, rfl⟩

theorem enterSeq_ok {q : List Bool} {l : List (Slot × List Bool × Symbol)} {s t : State} (h : enterSeq q l s = .ok () t) :
    ∃ m, t = s.setCode m := by
  induction l generalizing s with
  | nil =>
    obtain rfl : s = t := by cases h; rfl
    exact ⟨s.code, rfl⟩
  | cons e l ih =>
    obtain ⟨_, u, h1, h2⟩ := Res.bind_eq_ok.1 h
    obtain ⟨m, rfl⟩ := enterLeaf_ok h1
    obtain ⟨m', rfl⟩ := ih h2
    exact ⟨m', rfl⟩

theorem enterSeq_append (q : List Bool) (l1 l2 : List (Slot × List Bool × Symbol)) (s : State) :
    enterSeq q (l1 ++ l2) s = (enterSeq q l1 s).bind fun _ s => enterSeq q l2 s := by
  induction l1 generalizing s with
  | nil => rfl
  | cons e l ih => simp only [List.cons_append, enterSeq, Res.bind_assoc, ih]

theorem enterSeq_shift (q : List Bool) (b : Bool) (l : List (Slot × List Bool × Symbol)) (s : State) :
    enterSeq q (l.map fun e => (e.1, b :: e.2.1, e.2.2)) s = enterSeq (q ++ [b]) l s := by
  induction l generalizing s with
  | nil => rfl
  | cons e l ih =>
    simp only [List.map_cons, enterSeq, ih]
    congr 2
    · simp; omega
    · simp

theorem Res.bind_const_congr {α : Type} {r : Res Unit} {v : α} {β : Type} (f : α → State → Res β) :
    ((r.bind fun _ s => .ok v s).bind f) = r.bind fun _ s => f v s := by
  rw [Res.bind_assoc]; rfl

theorem Res.bind_congr_ok {α β : Type} {r : Res α} {f g : α → State → Res β} (h : ∀ a t, r = .ok a t → f a t = g a t) :
    r.bind f = r.bind g := by
  cases r with
  | ok a t => exact h a t rfl
  | raise e i t => rfl
  | held t => rfl
  | uninit i t => rfl

/-- GEN_CODES on a tree enters its leaves in pre-order, and counts its nodes. -/
theorem gen_eq_enterSeq {cap : Nat} {m : Memory Node} (T : HTree) {i : Slot} (hT : treeAt cap m i T) :
    ∃ L : List (Slot × List Bool × Symbol), L.map Prod.snd = T.paths ∧
      ∀ (s : State) (q : List Bool) (v fuel : Nat), s.cap = cap → s.tree = m → v + T.size ≤ cap → T.size ≤ fuel →
        gen fuel i q.length (bitsValue q) v s = (enterSeq q L s).bind fun _ s => .ok (v + T.size) s := by
  induction T generalizing i with
  | leaf sym =>
    obtain ⟨hi, hr⟩ := hT
    refine ⟨[(i, [], sym)], rfl, fun s q v fuel hc hm hv hf => ?_⟩
    subst hc hm
    obtain ⟨f, rfl⟩ : ∃ f, fuel = f + 1 := ⟨fuel - 1, by simp [HTree.size] at hf; omega⟩
    simp only [HTree.size] at hv
    simp only [gen, visit_eq hi hr (show v < s.cap by omega), Res.ok_bind, enterSeq, List.length_nil, Nat.add_zero,
      List.append_nil, HTree.size, Res.bind_assoc]
  | node l r ihl ihr =>
    obtain ⟨hi, a, b, hr, hl, hrr⟩ := hT
    obtain ⟨L1, p1, g1⟩ := ihl hl
    obtain ⟨L2, p2, g2⟩ := ihr hrr
    refine ⟨(L1.map fun e => (e.1, false :: e.2.1, e.2.2)) ++ L2.map fun e => (e.1, true :: e.2.1, e.2.2), ?_, ?_⟩
    · simp [HTree.paths, ← p1, ← p2, Function.comp_def]
    · intro s q v fuel hc hm hv hf
      subst hc hm
      simp only [HTree.size] at hv hf ⊢
      obtain ⟨f, rfl⟩ : ∃ f, fuel = f + 1 := ⟨fuel - 1, by omega⟩
      have h1 := g1 s (q ++ [false]) (v + 1) f rfl rfl (by omega) (by omega)
      rw [List.length_append, List.length_singleton, bitsValue_append] at h1
      simp only [Bool.toNat_false, Nat.add_zero] at h1
      simp only [gen, visit_eq hi hr (show v < s.cap by omega), Res.ok_bind]
      rw [h1, Res.bind_const_congr, enterSeq_append, enterSeq_shift, Res.bind_assoc]
      refine Res.bind_congr_ok fun _ t ht => ?_
      obtain ⟨m', rfl⟩ := enterSeq_ok ht
      have h2 := g2 (s.setCode m') (q ++ [true]) (v + 1 + l.size) f rfl rfl (by omega) (by omega)
      rw [List.length_append, List.length_singleton, bitsValue_append] at h2
      simp only [Bool.toNat_true] at h2
      rw [h2, enterSeq_shift]
      have e : v + 1 + l.size + r.size = v + (1 + l.size + r.size) := by omega
      rw [e]

/-- The code table after entering codes one after the other. -/
def enterAll (m : Memory CodeEntry) (l : List (List Bool × Symbol)) : Memory CodeEntry :=
  l.foldl (fun m c => m.write c.2.toNat (entryOf c.1)) m

theorem enterAll_cons (m : Memory CodeEntry) (c : List Bool × Symbol) (l : List (List Bool × Symbol)) :
    enterAll m (c :: l) = enterAll (m.write c.2.toNat (entryOf c.1)) l := rfl

theorem read_enterAll_other (l : List (List Bool × Symbol)) (m : Memory CodeEntry) {sym : Symbol}
    (h : sym ∉ l.map Prod.snd) : (enterAll m l).read sym.toNat = m.read sym.toNat := by
  induction l generalizing m with
  | nil => rfl
  | cons c l ih =>
    simp only [List.map_cons, List.mem_cons, not_or] at h
    rw [enterAll_cons, ih _ h.2, Memory.read_write_other]
    exact fun he => h.1 (BitVec.eq_of_toNat_eq he)

theorem read_enterAll_mem (l : List (List Bool × Symbol)) (m : Memory CodeEntry) (hn : (l.map Prod.snd).Nodup)
    {c : List Bool × Symbol} (h : c ∈ l) : (enterAll m l).read c.2.toNat = some (entryOf c.1) := by
  induction l generalizing m with
  | nil => simp at h
  | cons d l ih =>
    simp only [List.map_cons, List.nodup_cons] at hn
    rcases List.mem_cons.1 h with rfl | h
    · rw [enterAll_cons, read_enterAll_other _ _ hn.1, Memory.read_write_same]
    · rw [enterAll_cons, ih _ hn.2 h]

theorem entryOf_valid (c : List Bool) : (entryOf c).valid = true := rfl

/-- A leaf at depth 1..32 whose symbol has no entry yet gets one. -/
theorem enterLeaf_eq {i : Slot} {sym : Symbol} {c : List Bool} {s : State} (h1 : 1 ≤ c.length) (h2 : c.length ≤ 32)
    (hv : s.validCode sym = none) :
    enterLeaf i sym c.length (bitsValue c) s = .ok () (s.writeCode sym (entryOf c)) := by
  have hl : leafCode c.length (bitsValue c) = (c.length, bitsValue c) := by
    unfold leafCode; rw [if_neg (by omega)]
  unfold enterLeaf
  simp only [hl, hv, maxLen]
  rw [if_neg (by omega)]
  rfl

/-- Entering leaves that all fit and whose symbols are new and distinct. -/
theorem enterSeq_eq {q : List Bool} {L : List (Slot × List Bool × Symbol)} {s : State}
    (hlen : ∀ e ∈ L, 1 ≤ (q ++ e.2.1).length ∧ (q ++ e.2.1).length ≤ 32)
    (hnew : ∀ e ∈ L, s.validCode e.2.2 = none) (hd : (L.map fun e => e.2.2).Nodup) :
    enterSeq q L s = .ok () (s.setCode (enterAll s.code (L.map fun e => (q ++ e.2.1, e.2.2)))) := by
  induction L generalizing s with
  | nil => rfl
  | cons e L ih =>
    simp only [List.map_cons, List.nodup_cons] at hd
    have he := hlen e (by simp)
    have hq : q.length + e.2.1.length = (q ++ e.2.1).length := by simp
    rw [enterSeq, hq, enterLeaf_eq he.1 he.2 (hnew e (by simp)), Res.ok_bind, ih]
    · rfl
    · exact fun e' he' => hlen e' (by simp [he'])
    · intro e' he'
      rw [validCode_writeCode, if_neg, hnew e' (by simp [he'])]
      intro heq
      exact hd.1 (List.mem_map.2 ⟨e', he', heq⟩)
    · exact hd.2

/-- The table GEN_CODES builds: VALID cleared everywhere, then the tree's codes entered. -/
def generated (m : Memory CodeEntry) (T : HTree) : Memory CodeEntry := enterAll (clearValid m) T.codes

theorem requireRoot_ok {s : State} (h : s.root.valid = true) : requireRoot s = .ok () s := by
  simp [requireRoot, h]

theorem validCode_cleared (s : State) (sym : Symbol) : (s.setCode (clearValid s.code)).validCode sym = none := by
  simp only [State.validCode, State.setCode_code, Memory.read_clearValid]
  cases s.code.read sym.toNat <;> simp

/-- GEN_CODES (41_codetable R111) on a loaded tree whose codes fit and whose symbols are distinct. -/
theorem genCodesBody_eq {s : State} {T : HTree} (hT : s.hasTree T) (hlen : ∀ c ∈ T.codes, c.1.length ≤ 32)
    (hd : T.symbols.Nodup) : genCodesBody s = .ok () (s.setCode (generated s.code T)) := by
  obtain ⟨hv, ht, hs⟩ := hT
  unfold genCodesBody
  rw [requireRoot_ok hv, Res.ok_bind]
  obtain ⟨L, hp, hg⟩ := gen_eq_enterSeq T ht
  have hgen := hg (s.setCode (clearValid s.code)) [] 0 (s.cap + 1) rfl rfl (by omega) (by omega)
  simp only [List.length_nil] at hgen
  rw [show bitsValue [] = 0 from rfl] at hgen
  rw [hgen]
  have hsyms : (L.map fun e => e.2.2) = T.symbols := by
    rw [HTree.symbols, ← hp, List.map_map]; rfl
  cases T with
  | leaf sym =>
    have : ∃ i, L = [(i, [], sym)] := by
      cases L with
      | nil => simp [HTree.paths] at hp
      | cons e L =>
        simp only [HTree.paths, List.map_cons, List.cons.injEq, List.map_eq_nil_iff] at hp
        exact ⟨e.1, by rw [hp.2, ← hp.1]⟩
    obtain ⟨i, rfl⟩ := this
    simp only [enterSeq, enterLeaf, List.length_nil, List.append_nil, leafCode, maxLen, validCode_cleared]
    rfl
  | node l r =>
    rw [enterSeq_eq]
    · simp only [Res.ok_bind, List.nil_append, State.setCode_code]
      rw [show (L.map fun e => (e.2.1, e.2.2)) = (HTree.node l r).codes from hp]
      rfl
    · intro e he
      have hmem : e.2 ∈ (HTree.node l r).paths := hp ▸ List.mem_map_of_mem he
      refine ⟨?_, hlen _ hmem⟩
      simp only [HTree.paths, List.mem_append, List.mem_map] at hmem
      rcases hmem with ⟨c, -, hc⟩ | ⟨c, -, hc⟩ <;> rw [← hc] <;> simp
    · exact fun e _ => validCode_cleared s _
    · rw [hsyms]; exact hd

/-! ### WRITE_HEADER -/

theorem Emits.tree_eq {s t : State} {bits : List Bool} (h : Emits s t bits) : t.tree = s.tree ∧ t.cap = s.cap := by
  obtain ⟨bs, w, rfl, -⟩ := h
  exact ⟨rfl, rfl⟩

/-- WRITE_HEADER on a tree emits its header (42_header R120, 30_encoding R80). -/
theorem ser_emits (T : HTree) {cap : Nat} {m : Memory Node} {i : Slot} (hT : treeAt cap m i T) {s : State} {v fuel : Nat}
    (hc : s.cap = cap) (hm : s.tree = m) (hv : v + T.size ≤ cap) (hf : T.size ≤ fuel)
    (ha : s.sinkAccepts ((s.writer.cnt.val + T.header.length) / 8)) :
    ∃ t, ser fuel i v s = .ok (v + T.size) t ∧ Emits s t T.header := by
  induction T generalizing i s v fuel with
  | leaf sym =>
    obtain ⟨hi, hr⟩ := hT
    subst hc hm
    simp only [HTree.size] at hv hf
    obtain ⟨f, rfl⟩ : ∃ f, fuel = f + 1 := ⟨fuel - 1, by omega⟩
    have hlen : (HTree.leaf sym).header.length = 10 := by simp [HTree.header]
    rw [hlen] at ha
    obtain ⟨t, ht, he⟩ := writeBit_emits (b := true) (s := s) (sinkAccepts_mono ha (by omega))
    obtain ⟨u, hu, hf⟩ := writeBits_emits 9 (sym.setWidth 32) (s := t)
      (he.sinkAccepts (m := 9) (by simpa [Nat.add_assoc] using ha))
    refine ⟨u, ?_, ?_⟩
    · simp only [ser, visit_eq hi hr (show v < s.cap by omega), Res.ok_bind, ht, hu, HTree.size]
    · have : (HTree.leaf sym).header = [true] ++ fieldBits 9 (sym.setWidth 32) := by
        simp only [HTree.header, fieldBits, List.singleton_append, List.cons.injEq, true_and]
        exact msbFirst_congr fun k hk => by rw [BitVec.getLsbD_setWidth]; simp; omega
      rw [this]
      exact he.trans hf
  | node l r ihl ihr =>
    obtain ⟨hi, a, b, hr, hl, hrr⟩ := hT
    subst hc hm
    simp only [HTree.size] at hv hf
    obtain ⟨f, rfl⟩ : ∃ f, fuel = f + 1 := ⟨fuel - 1, by omega⟩
    have hlen : (HTree.node l r).header.length = 1 + (l.header.length + r.header.length) := by
      simp [HTree.header]; omega
    rw [hlen] at ha
    obtain ⟨t, ht, he⟩ := writeBit_emits (b := false) (s := s) (sinkAccepts_mono ha (by omega))
    have ha1 := he.sinkAccepts (m := l.header.length + r.header.length) (by simpa [Nat.add_assoc] using ha)
    obtain ⟨u, hu, hfl⟩ := ihl hl (s := t) (v := v + 1) (fuel := f) he.tree_eq.2 he.tree_eq.1 (by omega) (by omega)
      (sinkAccepts_mono ha1 (by omega))
    have ha2 := hfl.sinkAccepts (m := r.header.length) (by simpa [Nat.add_assoc] using ha1)
    obtain ⟨w, hw, hfr⟩ := ihr hrr (s := u) (v := v + 1 + l.size) (fuel := f) (hfl.tree_eq.2.trans he.tree_eq.2)
      (hfl.tree_eq.1.trans he.tree_eq.1) (by omega) (by omega) ha2
    refine ⟨w, ?_, ?_⟩
    · simp only [ser, visit_eq hi hr (show v < s.cap by omega), Res.ok_bind, ht, hu, hw, HTree.size]
      congr 1
      omega
    · exact he.trans (hfl.trans hfr)

/-- A header of L leaves is 11·L − 1 bits long (42_header R123). -/
theorem header_length (T : HTree) : T.header.length + 1 = 11 * T.leaves := by
  induction T with
  | leaf sym => simp [HTree.header, HTree.leaves]
  | node l r ihl ihr => simp [HTree.header, HTree.leaves]; omega

end Sys2Proof.Machine
end

