-- ==== Sys2Proof/Laws/SinkStops.lean ====
section
/-! SUPPORT. What the appending procedures do when the OUT sink gives no answer or rejects (20_memory R53): held, or
SINK_UNWRITABLE with the accepted bytes and the rejected one as their only transactions. -/

namespace Sys2Proof.Machine

/-- The piece of pseudocode r, which would append `bits`, stops at the sink: `more` are the answers after the k it accepts. -/
def StopsAtSink {α : Type} (s : State) (bits : List Bool) (k : Nat) (more : List Answer) (r : Res α) : Prop :=
  match more with
  | [] => ∃ t, r = .held t
  | .reject :: _ => ∃ t bs b, r = .raise .sinkUnwritable 0#10 t ∧
      t.ports = s.ports.perform (sentAll bs ++ [.sent b .reject]) ∧ bs.length = k ∧
      streamBits (bs ++ [b]) <+: s.writer.pending ++ bits
  | .accept :: _ => True

section
variable {α β : Type} {s t : State} {a b : List Bool} {k : Nat} {more : List Answer}

theorem StopsAtSink.bind {r : Res α} (h : StopsAtSink s a k more r) (f : α → State → Res β) :
    StopsAtSink s a k more (r.bind f) := by
  unfold StopsAtSink at h ⊢
  split
  · obtain ⟨t, rfl⟩ := h; exact ⟨t, rfl⟩
  · obtain ⟨t, bs, x, rfl, h⟩ := h; exact ⟨t, bs, x, rfl, h⟩
  · trivial

theorem StopsAtSink.mono {r : Res α} (h : StopsAtSink s a k more r) (hab : a <+: b) : StopsAtSink s b k more r := by
  unfold StopsAtSink at h ⊢
  split
  · exact h
  · obtain ⟨t, bs, x, h1, h2, h3, h4⟩ := h
    obtain ⟨c, rfl⟩ := hab
    exact ⟨t, bs, x, h1, h2, h3, h4.trans ⟨c, by simp⟩⟩
  · trivial

/-- Stopping after an emission is stopping from the start. -/
theorem StopsAtSink.after {r : Res α} {bs : List Byte} {w : Writer}
    (ht : t = { s with writer := w, ports := s.ports.perform (sentAll bs) })
    (hb : streamBits bs ++ w.pending = s.writer.pending ++ a) (h : StopsAtSink t b k more r) :
    StopsAtSink s (a ++ b) (bs.length + k) more r := by
  unfold StopsAtSink at h ⊢
  split
  · exact h
  · obtain ⟨u, cs, x, h1, h2, h3, h4⟩ := h
    subst ht
    refine ⟨u, bs ++ cs, x, h1, ?_, by simp [h3], ?_⟩
    · rw [h2]
      simp [Ports.perform_append, sentAll_append]
    · rw [← List.append_assoc s.writer.pending, ← hb, List.append_assoc (streamBits bs), List.append_assoc bs,
        streamBits_append bs]
      exact (List.prefix_append_right_inj _).2 h4
  · trivial

/-- The two-step law: either the first piece stops, or it emits and the second stops. -/
theorem StopsAtSink.seq {r : Res α} {f : α → State → Res β} (hans : s.ports.answers = List.replicate k .accept ++ more)
    (hk : k < (s.writer.cnt.val + (a ++ b).length) / 8)
    (h1 : k < (s.writer.cnt.val + a.length) / 8 → StopsAtSink s a k more r)
    (h2 : s.sinkAccepts ((s.writer.cnt.val + a.length) / 8) → ∃ v t, r = .ok v t ∧ Emits s t a ∧
      ∀ k', t.ports.answers = List.replicate k' .accept ++ more → k' < (t.writer.cnt.val + b.length) / 8 →
        StopsAtSink t b k' more (f v t)) :
    StopsAtSink s (a ++ b) k more (r.bind f) := by
  by_cases h : k < (s.writer.cnt.val + a.length) / 8
  · exact ((h1 h).bind f).mono ⟨b, rfl⟩
  · have hacc : s.sinkAccepts k := ⟨more, hans.symm⟩
    obtain ⟨v, t, rfl, he, hf⟩ := h2 (sinkAccepts_mono hacc (by omega))
    obtain ⟨bs, w, ht, hb, -⟩ := id he
    obtain ⟨c1, c2⟩ := emits_count hb
    have hk' : k = bs.length + (k - bs.length) := by omega
    rw [hk']
    refine StopsAtSink.after ht hb (hf _ ?_ ?_)
    · rw [ht]
      simp only [perform_sentAll_answers]
      rw [hans, List.drop_append_of_le_length (by simp; omega), List.drop_replicate]
    · rw [ht]
      simp only [List.length_append] at hk
      simp only
      omega

end

theorem writeBit_stops {s : State} {bit : Bool} {k : Nat} {more : List Answer}
    (hans : s.ports.answers = List.replicate k .accept ++ more) (hk : k < (s.writer.cnt.val + 1) / 8) :
    StopsAtSink s [bit] k more (writeBit bit s) := by
  have hlt := s.writer.cnt.isLt
  have hv : s.writer.cnt.val = 7 := by omega
  have h7 : s.writer.cnt = 7 := Fin.ext hv
  obtain rfl : k = 0 := by omega
  simp only [List.replicate_zero, List.nil_append] at hans
  have hbits := byteBits_setBit s.writer.buf s.writer.cnt.isLt bit
  rw [hv, List.take_of_length_le (by simp)] at hbits
  have heq : writeBit bit s = (outByte (setByteBit s.writer.buf (7 - 7) bit) s).bind fun _ s =>
      .ok () (s.setWriter { buf := 0#8, cnt := 0 }) := by
    unfold writeBit
    simp only [h7, if_true]
    rfl
  rw [heq]
  refine StopsAtSink.bind ?_ _
  unfold StopsAtSink outByte
  rw [hans]
  split
  · exact ⟨s, rfl⟩
  · rename_i rest
    refine ⟨_, [], setByteBit s.writer.buf (7 - 7) bit, rfl, ?_, rfl, ?_⟩
    · simp [State.setPorts, Ports.perform, sentAll, PortOp.token, PortOp.answered, hans, List.filterMap_cons]
    · rw [List.nil_append, streamBits_cons, streamBits_nil, List.append_nil, hbits, Writer.pending, hv]
  · trivial

theorem writeBits_stops (n : Nat) (v : Word) {s : State} {k : Nat} {more : List Answer}
    (hans : s.ports.answers = List.replicate k .accept ++ more) (hk : k < (s.writer.cnt.val + n) / 8) :
    StopsAtSink s (fieldBits n v) k more (writeBits n v s) := by
  induction n generalizing s k with
  | zero => have := s.writer.cnt.isLt; omega
  | succ n ih =>
    have hf : fieldBits (n + 1) v = [v.getLsbD n] ++ fieldBits n v := rfl
    rw [hf, writeBits]
    refine StopsAtSink.seq hans (by simpa [Nat.add_assoc, Nat.add_comm 1 n] using hk)
      (fun h => writeBit_stops hans h) fun h => ?_
    obtain ⟨t, ht, he⟩ := writeBit_emits h
    exact ⟨(), t, ht, he, fun k' ha' hk' => ih ha' (by simpa using hk')⟩

/-- `CloseWriter()` (40_bitstream R97) on a clean writer: the padded byte is the one that stops. -/
theorem closeWriter_stops {s : State} {more : List Answer} (hc : s.writer.clean) (h0 : s.writer.cnt.val ≠ 0)
    (hans : s.ports.answers = more) : StopsAtSink s (List.replicate (8 - s.writer.cnt.val) false) 0 more (closeWriter s) := by
  have hne : s.writer.cnt ≠ 0 := fun h => h0 (by rw [h]; rfl)
  unfold closeWriter
  rw [if_neg hne]
  refine StopsAtSink.bind ?_ _
  unfold StopsAtSink outByte
  rw [hans]
  split
  · exact ⟨s, rfl⟩
  · refine ⟨_, [], s.writer.buf, rfl, ?_, rfl, ?_⟩
    · simp [State.setPorts, Ports.perform, sentAll, PortOp.token, PortOp.answered, hans, List.filterMap_cons]
    · rw [List.nil_append, streamBits_cons, streamBits_nil, List.append_nil, byteBits_of_clean hc]
  · trivial

theorem ser_stops (T : HTree) {cap : Nat} {m : Memory Node} {i : Slot} (hT : treeAt cap m i T) {s : State} {v fuel k : Nat}
    {more : List Answer} (hc : s.cap = cap) (hm : s.tree = m) (hv : v + T.size ≤ cap) (hf : T.size ≤ fuel)
    (hans : s.ports.answers = List.replicate k .accept ++ more) (hk : k < (s.writer.cnt.val + T.header.length) / 8) :
    StopsAtSink s T.header k more (ser fuel i v s) := by
  induction T generalizing i s v fuel k with
  | leaf sym =>
    obtain ⟨hi, hr⟩ := hT
    subst hc hm
    simp only [HTree.size] at hv hf
    obtain ⟨f, rfl⟩ : ∃ f, fuel = f + 1 := ⟨fuel - 1, by omega⟩
    have hh : (HTree.leaf sym).header = [true] ++ fieldBits 9 (sym.setWidth 32) := by
      simp only [HTree.header, fieldBits, List.singleton_append, List.cons.injEq, true_and]
      exact msbFirst_congr fun k hk => by rw [BitVec.getLsbD_setWidth]; simp; omega
    rw [hh] at hk ⊢
    simp only [ser, visit_eq hi hr (show v < s.cap by omega), Res.ok_bind]
    refine StopsAtSink.seq hans hk (fun h => writeBit_stops hans h) fun h => ?_
    obtain ⟨t, ht, he⟩ := writeBit_emits h
    exact ⟨(), t, ht, he, fun k' ha' hk' => (writeBits_stops 9 _ ha' (by simpa using hk')).bind _⟩
  | node l r ihl ihr =>
    obtain ⟨hi, a, b, hr, hl, hrr⟩ := hT
    subst hc hm
    simp only [HTree.size] at hv hf
    obtain ⟨f, rfl⟩ : ∃ f, fuel = f + 1 := ⟨fuel - 1, by omega⟩
    have hh : (HTree.node l r).header = [false] ++ (l.header ++ r.header) := rfl
    rw [hh] at hk ⊢
    simp only [ser, visit_eq hi hr (show v < s.cap by omega), Res.ok_bind]
    refine StopsAtSink.seq hans hk (fun h => writeBit_stops hans h) fun h => ?_
    obtain ⟨t, ht, he⟩ := writeBit_emits h
    refine ⟨(), t, ht, he, fun k' ha' hk' => ?_⟩
    have ht1 := he.tree_eq
    refine StopsAtSink.seq ha' hk' (fun h => ihl hl ht1.2 ht1.1 (by omega) (by omega) ha' h) fun h => ?_
    obtain ⟨u, hu, hg⟩ := ser_emits l hl (s := t) (v := v + 1) (fuel := f) ht1.2 ht1.1 (by omega) (by omega) h
    have ht2 := hg.tree_eq
    exact ⟨_, u, hu, hg, fun k' ha' hk' => ihr hrr (ht2.2.trans ht1.2) (ht2.1.trans ht1.1) (by omega) (by omega) ha' hk'⟩

end Sys2Proof.Machine
end

