-- ==== Sys2Proof/Laws/Encoding.lean ====
section
/-! SUPPORT. The exact laws of the encoder (43_stream R135, R138): one symbol, and the byte loop of ENCODE_STREAM. -/

namespace Sys2Proof.Machine

theorem codeOf_some {s : State} {sym : Symbol} {c : List Bool} (h : s.codeOf sym = some c) :
    ∃ e, s.validCode sym = some e ∧ c = fieldBits e.len.toNat e.pat := by
  unfold State.codeOf at h
  cases hv : s.validCode sym with
  | none => simp [hv] at h
  | some e => exact ⟨e, rfl, by simp [hv] at h; exact h.symm⟩

theorem codeOf_none {s : State} {sym : Symbol} (h : s.codeOf sym = none) : s.validCode sym = none := by
  unfold State.codeOf at h
  cases hv : s.validCode sym with
  | none => rfl
  | some e => simp [hv] at h

theorem encodeSym_emits {s : State} {sym : Symbol} {c : List Bool} (h : s.codeOf sym = some c)
    (ha : s.sinkAccepts ((s.writer.cnt.val + c.length) / 8)) : ∃ t, encodeSym sym s = .ok () t ∧ Emits s t c := by
  obtain ⟨e, he, rfl⟩ := codeOf_some h
  unfold encodeSym
  rw [he]
  exact writeBits_emits _ _ (by simpa using ha)

theorem encodeSym_stops {s : State} {sym : Symbol} {c : List Bool} (h : s.codeOf sym = some c) {k : Nat} {more : List Answer}
    (hans : s.ports.answers = List.replicate k .accept ++ more) (hk : k < (s.writer.cnt.val + c.length) / 8) :
    StopsAtSink s c k more (encodeSym sym s) := by
  obtain ⟨e, he, rfl⟩ := codeOf_some h
  unfold encodeSym
  rw [he]
  exact writeBits_stops _ _ hans (by simpa using hk)

theorem encodeSym_noCode {s : State} {sym : Symbol} (h : s.codeOf sym = none) :
    encodeSym sym s = .raise .noCode (sym.setWidth 10) s := by
  unfold encodeSym
  rw [codeOf_none h]

/-- From s to t the engine consumed the tokens `toks` raw and appended `bits`, in some interleaving; nothing else changed. -/
def Pipes (s t : State) (toks : List Token) (bits : List Bool) : Prop :=
  ∃ ops bs w, t = { s with writer := w, ports := s.ports.perform ops } ∧
    ops.filterMap PortOp.token = toks ∧ ops.filterMap PortOp.accepted = bs ∧
    ops.filterMap PortOp.answered = List.replicate bs.length .accept ∧
    streamBits bs ++ w.pending = s.writer.pending ++ bits ∧ (s.writer.clean → w.clean)

theorem pipes_refl (s : State) : Pipes s s [] [] := ⟨[], [], s.writer, by simp⟩

theorem Pipes.trans {s t u : State} {x y : List Token} {a b : List Bool} (h : Pipes s t x a) (g : Pipes t u y b) :
    Pipes s u (x ++ y) (a ++ b) := by
  obtain ⟨o1, b1, w1, rfl, h1, h2, h3, h4, h5⟩ := h
  obtain ⟨o2, b2, w2, rfl, g1, g2, g3, g4, g5⟩ := g
  refine ⟨o1 ++ o2, b1 ++ b2, w2, by simp [Ports.perform_append], by simp [h1, g1], by simp [h2, g2], ?_, ?_, g5 ∘ h5⟩
  · simp [h3, g3, List.replicate_append_replicate]
  · simp only at g4
    rw [streamBits_append, List.append_assoc, g4, ← List.append_assoc, h4, List.append_assoc]

theorem Emits.pipes {s t : State} {bits : List Bool} (h : Emits s t bits) : Pipes s t [] bits := by
  obtain ⟨bs, w, rfl, h1, h2⟩ := h
  exact ⟨sentAll bs, bs, w, rfl, by simp, by simp, by simp, h1, h2⟩

/-- A raw token (20_memory R52, R62). -/
theorem inToken_pipes {s : State} {t : Token} {rest : List Token} (h : s.ports.offered = t :: rest) :
    ∃ u, inToken s = .ok t u ∧ Pipes s u [t] [] ∧ u.ports.offered = rest ∧ u.ports.answers = s.ports.answers ∧
      u.writer = s.writer := by
  refine ⟨s.setPorts { s.ports with offered := rest, log := s.ports.log ++ [.took t] }, by simp [inToken, h],
    ⟨[.took t], [], s.writer, ?_, ?_⟩, rfl, rfl, rfl⟩
  · simp [State.setPorts, Ports.perform, PortOp.token, PortOp.answered, h, List.filterMap_cons]
  · simp [PortOp.token, PortOp.answered, PortOp.accepted]

theorem Pipes.code_eq {s t : State} {x : List Token} {a : List Bool} (h : Pipes s t x a) : t.code = s.code := by
  obtain ⟨ops, bs, w, rfl, -⟩ := h
  rfl

theorem codeOf_congr {s t : State} (h : t.code = s.code) (sym : Symbol) : t.codeOf sym = s.codeOf sym := by
  simp [State.codeOf, State.validCode, h]

theorem encodeAll_congr {s t : State} (h : t.code = s.code) (l : List Symbol) : t.encodeAll l = s.encodeAll l := by
  induction l with
  | nil => rfl
  | cons sym l ih => simp only [State.encodeAll, codeOf_congr h, ih]

theorem encodeAll_cons {s : State} {sym : Symbol} {l : List Symbol} {bits : List Bool}
    (h : s.encodeAll (sym :: l) = some bits) :
    ∃ c cs, s.codeOf sym = some c ∧ s.encodeAll l = some cs ∧ bits = c ++ cs := by
  unfold State.encodeAll at h
  split at h
  · rename_i c cs hc hcs
    exact ⟨c, cs, hc, hcs, (Option.some.inj h).symm⟩
  · exact absurd h (by simp)

theorem encodeAll_append {s : State} {l1 l2 : List Symbol} {bits : List Bool} (h : s.encodeAll (l1 ++ l2) = some bits) :
    ∃ a b, s.encodeAll l1 = some a ∧ s.encodeAll l2 = some b ∧ bits = a ++ b := by
  induction l1 generalizing bits with
  | nil => exact ⟨[], bits, rfl, h, rfl⟩
  | cons sym l1 ih =>
    obtain ⟨c, cs, h1, h2, rfl⟩ := encodeAll_cons h
    obtain ⟨a, b, ha, hb, rfl⟩ := ih h2
    exact ⟨c ++ a, b, by simp [State.encodeAll, h1, ha], hb, by simp⟩

theorem encodeAll_singleton {s : State} {sym : Symbol} {b : List Bool} (h : s.encodeAll [sym] = some b) :
    s.codeOf sym = some b := by
  obtain ⟨c, cs, h1, h2, rfl⟩ := encodeAll_cons h
  obtain rfl : [] = cs := by simpa [State.encodeAll] using h2
  simpa using h1

/-- How many bytes a piping sends, and how many bits it leaves pending. -/
theorem Pipes.sinkAccepts {s t : State} {x : List Token} {bits : List Bool} (h : Pipes s t x bits) {m : Nat}
    (hs : s.sinkAccepts ((s.writer.cnt.val + bits.length + m) / 8)) : t.sinkAccepts ((t.writer.cnt.val + m) / 8) := by
  obtain ⟨ops, bs, w, rfl, h1, h2, h3, hb, -⟩ := h
  obtain ⟨c1, c2⟩ := emits_count hb
  refine sinkAccepts_mono (sinkAccepts_drop (k := bs.length) hs ?_) ?_
  · simp [Ports.perform, h3]
  · simp only [c1, c2]
    omega

/-- The byte loop of ENCODE_STREAM over bytes that all have codes, up to the token after them (43_stream R138). -/
theorem encodeLoop_bytes (bytes : List Byte) {s : State} {more : List Token} {bits : List Bool} {c : Word} {fuel : Nat}
    (ho : s.ports.offered = bytes.map .byte ++ more) (he : s.encodeAll (bytes.map byteSymbol) = some bits)
    (ha : s.sinkAccepts ((s.writer.cnt.val + bits.length) / 8)) :
    ∃ t, encodeLoop (bytes.length + fuel) c s = encodeLoop fuel (c + BitVec.ofNat 32 bytes.length) t ∧
      Pipes s t (bytes.map .byte) bits ∧ t.ports.offered = more := by
  induction bytes generalizing s bits c with
  | nil =>
    obtain rfl : [] = bits := by simpa [State.encodeAll] using he
    exact ⟨s, by simp, pipes_refl s, by simpa using ho⟩
  | cons b bytes ih =>
    obtain ⟨cd, cs, h1, h2, rfl⟩ := encodeAll_cons (by simpa using he)
    obtain ⟨t, ht, hp, hto, hta, htw⟩ := inToken_pipes (s := s) (t := .byte b) (rest := bytes.map .byte ++ more) (by simpa using ho)
    simp only [List.length_append] at ha
    obtain ⟨u, hu, hem⟩ := encodeSym_emits (s := t) (sym := byteSymbol b) (c := cd) (by rw [codeOf_congr hp.code_eq]; exact h1)
      (by rw [htw]; unfold State.sinkAccepts; rw [hta]; exact sinkAccepts_mono ha (by omega))
    have hsu : Pipes s u [.byte b] cd := by simpa using hp.trans hem.pipes
    have huo : u.ports.offered = bytes.map .byte ++ more := by
      obtain ⟨bs, w, rfl, -⟩ := hem
      simpa using hto
    obtain ⟨v, hv, hpv, hvo⟩ := ih (s := u) (c := c + 1#32) huo (by rw [encodeAll_congr hsu.code_eq]; exact h2)
      (hsu.sinkAccepts (by simpa [Nat.add_assoc] using ha))
    refine ⟨v, ?_, by simpa using hsu.trans hpv, hvo⟩
    rw [show (b :: bytes).length + fuel = (bytes.length + fuel) + 1 by simp; omega, encodeLoop, ht, Res.ok_bind]
    simp only [hu, Res.ok_bind, hv]
    congr 1
    rw [List.length_cons, BitVec.ofNat_add, BitVec.add_assoc, BitVec.add_comm (1#32)]

/-! ### Stopping at the sink -/

/-- The piece of pseudocode r, which would consume the tokens `toks` and append `bits`, stops at the sink after k accepted
bytes: `StopsAtSink` with tokens consumed on the way. -/
def PipesStop {α : Type} (s : State) (toks : List Token) (bits : List Bool) (k : Nat) (more : List Answer) (r : Res α) : Prop :=
  match more with
  | [] => ∃ t, r = .held t
  | .reject :: _ => ∃ t ops bs b, r = .raise .sinkUnwritable 0#10 t ∧ t.ports = s.ports.perform (ops ++ [.sent b .reject]) ∧
      ops.filterMap PortOp.token = toks ∧ ops.filterMap PortOp.accepted = bs ∧
      ops.filterMap PortOp.answered = List.replicate k .accept ∧ bs.length = k ∧
      streamBits (bs ++ [b]) <+: s.writer.pending ++ bits
  | .accept :: _ => True

/-- Stopping after a piping is stopping from the start. -/
theorem Pipes.thenStops {α : Type} {s t : State} {toks : List Token} {a b : List Bool} {k : Nat} {more : List Answer} {r : Res α}
    (h : Pipes s t toks a) (hans : s.ports.answers = List.replicate k .accept ++ more)
    (hk : (s.writer.cnt.val + a.length) / 8 ≤ k)
    (g : ∀ k', t.ports.answers = List.replicate k' .accept ++ more →
      8 * k' + (s.writer.cnt.val + a.length) = 8 * k + t.writer.cnt.val → StopsAtSink t b k' more r) : PipesStop s toks (a ++ b) k more r := by
  obtain ⟨ops, bs, w, rfl, h1, h2, h3, h4, h5⟩ := h
  obtain ⟨c1, c2⟩ := emits_count h4
  have hg := g (k - bs.length) (by
    simp only [Ports.perform, h3, hans]
    rw [List.drop_append_of_le_length (by simp; omega), List.drop_replicate]
    simp) (by simp only; omega)
  unfold StopsAtSink at hg
  unfold PipesStop
  split
  · exact hg
  · obtain ⟨u, cs, x, e1, e2, e3, e4⟩ := hg
    refine ⟨u, ops ++ sentAll cs, bs ++ cs, x, e1, ?_, by simp [h1], by simp [h2], ?_, by simp [e3]; omega, ?_⟩
    · rw [e2, Ports.perform_append, List.append_assoc]
    · rw [List.filterMap_append, h3, sentAll_answered, e3, List.replicate_append_replicate]
      congr 1
      omega
    · simp only at e4
      rw [← List.append_assoc s.writer.pending, ← h4, List.append_assoc (streamBits bs), List.append_assoc bs,
        streamBits_append bs]
      exact (List.prefix_append_right_inj _).2 e4
  · trivial

/-- The end of ENCODE_STREAM at the token x: what it encodes and pads there. -/
theorem encodeStreamBody_stops {s : State} {bytes : List Byte} {bits code : List Bool} {x : Token} {rest : List Token} {pad k : Nat}
    {more : List Answer} (ho : s.ports.offered = bytes.map .byte ++ x :: rest)
    (he : s.encodeAll (bytes.map byteSymbol) = some bits)
    (hx : (∃ b, x = .byte b ∧ s.codeOf (byteSymbol b) = some code ∧ pad = 0) ∨
      (x = .endOfStream ∧ s.codeOf eofSymbol = some code ∧ s.writer.clean ∧
        pad = (8 - (s.writer.cnt.val + bits.length + code.length) % 8) % 8))
    (hans : s.ports.answers = List.replicate k .accept ++ more) (h1 : (s.writer.cnt.val + bits.length) / 8 ≤ k)
    (h2 : k < (s.writer.cnt.val + bits.length + code.length + pad) / 8) :
    PipesStop s (bytes.map .byte ++ [x]) (bits ++ code ++ List.replicate pad false) k more (encodeStreamBody s) := by
  have hacc : s.sinkAccepts k := ⟨more, hans.symm⟩
  obtain ⟨t, ht, hp, hto⟩ := encodeLoop_bytes bytes (c := 0#32) (fuel := rest.length + 2) ho he (sinkAccepts_mono hacc h1)
  obtain ⟨u, hu, hpu, -⟩ := inToken_pipes hto
  have hsu : Pipes s u (bytes.map .byte ++ [x]) bits := by simpa using hp.trans hpu
  have hcode := codeOf_congr hsu.code_eq
  have hfuel : s.ports.offered.length + 1 = bytes.length + (rest.length + 2) := by rw [ho]; simp; omega
  unfold encodeStreamBody
  rw [hfuel, ht, encodeLoop, hu, Res.ok_bind]
  rcases hx with ⟨b, rfl, hb, rfl⟩ | ⟨rfl, hb, hcl, rfl⟩
  · simp only [List.replicate_zero, List.append_nil]
    refine hsu.thenStops hans h1 fun k' ha' hk' => ?_
    exact ((encodeSym_stops (by rw [hcode]; exact hb) ha' (by omega)).bind _).bind _
  · by_cases hk : k < (s.writer.cnt.val + bits.length + code.length) / 8
    · rw [List.append_assoc]
      refine hsu.thenStops hans h1 fun k' ha' hk' => ?_
      exact ((encodeSym_stops (by rw [hcode]; exact hb) ha' (by omega)).mono ⟨_, rfl⟩).bind _
    · obtain ⟨w, hw, hem⟩ := encodeSym_emits (s := u) (sym := eofSymbol) (c := code) (by rw [hcode]; exact hb)
        (hsu.sinkAccepts (sinkAccepts_mono hacc (by omega)))
      have hsw : Pipes s w (bytes.map .byte ++ [.endOfStream]) (bits ++ code) := by simpa using hsu.trans hem.pipes
      refine hsw.thenStops hans (by simp only [List.length_append]; omega) fun k' ha' hk' => ?_
      simp only [Res.ok_bind, hw]
      simp only [List.length_append] at hk'
      have hwc := w.writer.cnt.isLt
      obtain rfl : k' = 0 := by omega
      obtain ⟨ops, bs, wr, rfl, -, -, -, -, h5⟩ := hsw
      simp only at hk' hwc
      rw [show (8 - (s.writer.cnt.val + bits.length + code.length) % 8) % 8 = 8 - wr.cnt.val by omega]
      exact (closeWriter_stops (h5 hcl) (by simp only; omega) (by simpa using ha')).bind _

end Sys2Proof.Machine
end

