-- ==== Sys2Proof/Laws/GeneratedTable.lean ====
section
/-! SUPPORT. The properties of the table GEN_CODES builds (41_codetable R112): prefix-freedom and the Kraft sum. -/

namespace Sys2Proof.Machine

/-! ### The table's properties -/

theorem paths_prefixFree (T : HTree) {p q : List Bool} {a b : Symbol} (hp : (p, a) ∈ T.paths) (hq : (q, b) ∈ T.paths)
    (h : p <+: q) : p = q ∧ a = b := by
  induction T generalizing p q with
  | leaf sym =>
    simp only [HTree.paths, List.mem_singleton, Prod.mk.injEq] at hp hq
    exact ⟨hp.1.trans hq.1.symm, hp.2.trans hq.2.symm⟩
  | node l r ihl ihr =>
    simp only [HTree.paths, List.mem_append, List.mem_map, Prod.mk.injEq, Prod.exists] at hp hq
    rcases hp with ⟨p', a', hp', rfl, rfl⟩ | ⟨p', a', hp', rfl, rfl⟩ <;>
      rcases hq with ⟨q', b', hq', rfl, rfl⟩ | ⟨q', b', hq', rfl, rfl⟩
    · obtain ⟨h1, h2⟩ := ihl hp' hq' (List.cons_prefix_cons.1 h).2
      exact ⟨by rw [h1], h2⟩
    · exact absurd (List.cons_prefix_cons.1 h).1 (by simp)
    · exact absurd (List.cons_prefix_cons.1 h).1 (by simp)
    · obtain ⟨h1, h2⟩ := ihr hp' hq' (List.cons_prefix_cons.1 h).2
      exact ⟨by rw [h1], h2⟩

/-- 2^(D - depth) summed over the leaves of a tree no deeper than D is 2^D: the Kraft sum of a full tree is 1. -/
theorem paths_kraft (T : HTree) (D : Nat) (h : ∀ c ∈ T.paths, c.1.length ≤ D) :
    (T.paths.map fun c => 2 ^ (D - c.1.length)).sum = 2 ^ D := by
  induction T generalizing D with
  | leaf sym => simp [HTree.paths]
  | node l r ihl ihr =>
    obtain ⟨D', rfl⟩ : ∃ D', D = D' + 1 := by
      have hne : ∃ c, c ∈ l.paths := by
        cases hl : l.paths with
        | nil =>
          have : ∀ t : HTree, t.paths ≠ [] := by
            intro t
            induction t with
            | leaf _ => simp [HTree.paths]
            | node a b iha ihb => simp [HTree.paths, iha]
          exact absurd hl (this l)
        | cons c _ => exact ⟨c, by simp⟩
      obtain ⟨c, hc⟩ := hne
      have := h (false :: c.1, c.2) (by simp only [HTree.paths, List.mem_append, List.mem_map]; exact .inl ⟨c, hc, rfl⟩)
      simp only [List.length_cons] at this
      exact ⟨D - 1, by omega⟩
    have hl := ihl D' fun c hc => by
      have := h (false :: c.1, c.2) (by simp only [HTree.paths, List.mem_append, List.mem_map]; exact .inl ⟨c, hc, rfl⟩)
      simpa using this
    have hr := ihr D' fun c hc => by
      have := h (true :: c.1, c.2) (by simp only [HTree.paths, List.mem_append, List.mem_map]; exact .inr ⟨c, hc, rfl⟩)
      simpa using this
    simp only [HTree.paths, List.map_append, List.map_map, Function.comp_def, List.length_cons, Nat.add_sub_add_right,
      List.sum_append, hl, hr]
    rw [Nat.pow_succ]
    omega

theorem leaves_eq_paths (T : HTree) : T.leaves = T.paths.length := by
  induction T with
  | leaf sym => rfl
  | node l r ihl ihr => simp [HTree.leaves, HTree.paths, ihl, ihr]

/-- A sum over all indices of a table that lists each symbol at most once is the sum over the list. -/
theorem sum_over_symbols {N : Nat} (L : List (List Bool × Symbol)) (f : List Bool → Nat) (g : Nat → Nat)
    (hd : (L.map Prod.snd).Nodup) (hN : ∀ c ∈ L, c.2.toNat < N) (hin : ∀ c ∈ L, g c.2.toNat = f c.1)
    (hout : ∀ k, k < N → (∀ c ∈ L, c.2.toNat ≠ k) → g k = 0) :
    ((List.range N).map g).sum = (L.map fun c => f c.1).sum := by
  have hnd : (L.map fun c => c.2.toNat).Nodup := by
    have : (L.map fun c => c.2.toNat) = (L.map Prod.snd).map BitVec.toNat := by simp [Function.comp_def]
    rw [this]
    exact hd.map (fun a b h => BitVec.eq_of_toNat_eq h)
  have h1 : ((List.range N).map g).sum = ∑ k ∈ (List.range N).toFinset, g k :=
    (List.sum_toFinset g List.nodup_range).symm
  have h2 : (L.map fun c => f c.1).sum = ∑ k ∈ (L.map fun c => c.2.toNat).toFinset, g k := by
    rw [List.sum_toFinset _ hnd, List.map_map]
    congr 1
    refine List.map_congr_left fun c hc => ?_
    simp [hin c hc]
  rw [h1, h2]
  refine (Finset.sum_subset ?_ ?_).symm
  · intro k hk
    simp only [List.mem_toFinset, List.mem_map] at hk
    obtain ⟨c, hc, rfl⟩ := hk
    simpa using hN c hc
  · intro k hk hn
    refine hout k (by simpa using hk) fun c hc he => hn ?_
    simp only [List.mem_toFinset, List.mem_map]
    exact ⟨c, hc, he⟩

/-- The codes and the paths name the same symbols, in the same order. -/
theorem codes_symbols (T : HTree) : T.codes.map Prod.snd = T.symbols := by
  cases T <;> rfl

/-- The bits of a code's entry are the code (30_encoding R78). -/
theorem entryBits_entryOf {c : List Bool} (h : c.length ≤ 32) : entryBits (entryOf c) = c := by
  unfold entryBits entryOf
  simp only
  rw [BitVec.toNat_ofNat, Nat.mod_eq_of_lt (by omega)]
  exact fieldBits_bitsValue c h

end Sys2Proof.Machine
end

