-- ==== Sys2Proof/Laws/Reading.lean ====
section
/-! SUPPORT. The exact laws of what reads the input stream: READ_HEADER on a header (42_header R121), the tree walk (43_stream
R136), and both when the input runs out. -/

namespace Sys2Proof.Machine

/-- As far as the reader and the ports go, t comes from s by taking the bits `bits`. -/
def TakesPorts (s t : State) (bits : List Bool) : Prop := Takes s { s with reader := t.reader, ports := t.ports } bits

theorem Takes.toPorts {s t : State} {bits : List Bool} (h : Takes s t bits) : TakesPorts s t bits := by
  obtain ⟨r, k, rfl, h⟩ := h
  exact ⟨r, k, rfl, h⟩

/-- A take is the same whatever the rest of the state is. -/
theorem TakesPorts.congr {s t s' t' : State} {bits : List Bool} (h : TakesPorts s t bits) (h1 : s'.reader = s.reader)
    (h2 : s'.ports = s.ports) (h3 : t'.reader = t.reader) (h4 : t'.ports = t.ports) : TakesPorts s' t' bits := by
  obtain ⟨r, k, he, h⟩ := h
  have hr : t.reader = r := congrArg State.reader he
  have hp : t.ports = s.ports.perform (tookAll (s.ports.offered.take k)) := congrArg State.ports he
  refine ⟨r, k, ?_, ?_⟩
  · rw [h3, h4, hr, hp, h2]
  · simpa [State.inBits, h1, h2] using h

theorem TakesPorts.trans {s t u : State} {a b : List Bool} (h : TakesPorts s t a) (g : TakesPorts t u b) :
    TakesPorts s u (a ++ b) := by
  have g' : TakesPorts { s with reader := t.reader, ports := t.ports } u b := g.congr rfl rfl rfl rfl
  exact Takes.trans h g'

theorem takesPorts_refl {s t : State} (h1 : t.reader = s.reader) (h2 : t.ports = s.ports) : TakesPorts s t [] := by
  unfold TakesPorts
  rw [h1, h2]
  exact takes_refl s

theorem TakesPorts.inBits {s t : State} {bits : List Bool} (h : TakesPorts s t bits) : s.inBits = bits ++ t.inBits := by
  have h' : Takes s { s with reader := t.reader, ports := t.ports } bits := h
  exact h'.inBits

theorem RunsOut.congr {α : Type} {s t : State} {r : Res α} (h : RunsOut s r) (hp : t.ports = s.ports) : RunsOut t r := by
  unfold RunsOut at h ⊢
  rw [hp]
  exact h

theorem RunsOut.afterPorts {α : Type} {s t : State} {bits : List Bool} (h : TakesPorts s t bits) {r : Res α}
    (g : RunsOut t r) : RunsOut s r :=
  RunsOut.after h (g.congr rfl)

/-! ### READ_HEADER -/

/-- The parse between s and t read the tree T at slot NCNT (42_header R121): its nodes stand in pre-order from there, NCNT has
grown by their number, every other slot is as before, and exactly the header's bits were taken. -/
def Parsed (s t : State) (T : HTree) : Prop :=
  t = { s with reader := t.reader, ports := t.ports, ncnt := t.ncnt, tree := t.tree } ∧
    TakesPorts s t T.header ∧
    t.ncnt.toNat = s.ncnt.toNat + T.size ∧
    (∀ j, j < T.size → t.tree.read (s.ncnt.toNat + j) = (T.layout s.ncnt.toNat)[j]?) ∧
    (∀ i, i < s.ncnt.toNat ∨ s.ncnt.toNat + T.size ≤ i → t.tree.read i = s.tree.read i)

theorem layout_length (T : HTree) (base : Nat) : (T.layout base).length = T.size := by
  induction T generalizing base with
  | leaf sym => rfl
  | node l r ihl ihr => simp [HTree.layout, HTree.size, ihl, ihr]; omega

theorem slot_toNat {n : BitVec 11} (h : n.toNat < 1024) : (n.setWidth 10 : Slot).toNat = n.toNat := by
  rw [BitVec.toNat_setWidth, Nat.mod_eq_of_lt (by omega)]

theorem parse_header (T : HTree) {s : State} {rest : List Bool} {fuel : Nat} (hb : s.inBits = T.header ++ rest)
    (hn : s.ncnt.toNat + T.size ≤ s.cap) (hf : T.size ≤ fuel) :
    ∃ t, parse fuel s = .ok (s.ncnt.setWidth 10) t ∧ Parsed s t T := by
  induction T generalizing s rest fuel with
  | leaf sym =>
    simp only [HTree.size] at hn hf
    obtain ⟨f, rfl⟩ : ∃ f, fuel = f + 1 := ⟨fuel - 1, by omega⟩
    have hcap := s.cap_le
    have hne : s.ncnt.toNat ≠ s.cap := by omega
    obtain ⟨t, ht, hk⟩ := readBit_takes (s := s.setNcnt (s.ncnt + 1#11)) (b := true) (rest := msbFirst 9 sym.getLsbD ++ rest)
      (by simpa [State.inBits, HTree.header] using hb)
    have htin : t.inBits = msbFirst 9 sym.getLsbD ++ rest := by
      have := hk.inBits
      rw [show (s.setNcnt (s.ncnt + 1#11)).inBits = s.inBits from rfl, hb] at this
      simpa [HTree.header] using this.symm
    obtain ⟨u, hu, hk2⟩ := readBits_takes (n := 9) (s := t) (by rw [htin]; simp)
    have htake : t.inBits.take 9 = msbFirst 9 sym.getLsbD := by rw [htin]; simp
    rw [htake] at hu hk2
    have hsym : (BitVec.ofNat 32 (bitsValue (msbFirst 9 sym.getLsbD))).extractLsb' 0 9 = sym := by
      have h1 : bitsValue (msbFirst 9 sym.getLsbD) = sym.toNat := by
        rw [show sym.getLsbD = sym.toNat.testBit from rfl, bitsValue_msbFirst, Nat.mod_eq_of_lt sym.isLt]
      rw [h1]
      refine BitVec.eq_of_toNat_eq ?_
      simp [BitVec.extractLsb'_toNat]
      omega
    have hslot := slot_toNat (n := s.ncnt) (by omega)
    obtain ⟨r1, k1, he1, -⟩ := id hk
    obtain ⟨r2, k2, he2, -⟩ := id hk2
    refine ⟨u.writeTree s.ncnt.toNat (.leaf sym), ?_, ?_, ?_, ?_, ?_, ?_⟩
    · simp only [parse, hne, if_false, ht, Res.ok_bind, if_true, hu, hsym, hslot]
    · rw [he2, he1]; rfl
    · have := hk.toPorts.trans hk2.toPorts
      refine this.congr rfl rfl rfl rfl
    · rw [he2, he1]
      simp [State.writeTree, State.setTree, State.setNcnt, HTree.size]
      omega
    · intro j hj
      simp only [HTree.size] at hj
      obtain rfl : j = 0 := by omega
      simp [State.writeTree, Memory.read_write_same, HTree.layout]
    · intro i hi
      simp only [HTree.size] at hi
      simp only [State.writeTree, State.setTree_tree]
      rw [Memory.read_write_other _ _ (by omega), he2, he1]
      rfl
  | node l r ihl ihr =>
    simp only [HTree.size] at hn hf
    obtain ⟨f, rfl⟩ : ∃ f, fuel = f + 1 := ⟨fuel - 1, by omega⟩
    have hcap := s.cap_le
    have hne : s.ncnt.toNat ≠ s.cap := by omega
    obtain ⟨t, ht, hk⟩ := readBit_takes (s := s.setNcnt (s.ncnt + 1#11)) (b := false) (rest := l.header ++ (r.header ++ rest))
      (by simpa [State.inBits, HTree.header] using hb)
    obtain ⟨r1, k1, he1, -⟩ := id hk
    have htn : t.ncnt.toNat = s.ncnt.toNat + 1 := by
      rw [he1]
      simp [State.setNcnt]
      omega
    have htc : t.cap = s.cap := by rw [he1]; rfl
    have htt : t.tree = s.tree := by rw [he1]; rfl
    have htin : t.inBits = l.header ++ (r.header ++ rest) := by
      have := hk.inBits
      rw [show (s.setNcnt (s.ncnt + 1#11)).inBits = s.inBits from rfl, hb] at this
      simpa [HTree.header] using this.symm
    obtain ⟨u, hu, hfu, hku, hnu, hinu, houtu⟩ := ihl htin (fuel := f) (by omega) (by omega)
    have huc : u.cap = s.cap := by rw [hfu]; exact htc
    have huin : u.inBits = r.header ++ rest := by
      have := hku.inBits
      rw [htin] at this
      simpa using this.symm
    obtain ⟨w, hw, hfw, hkw, hnw, hinw, houtw⟩ := ihr huin (fuel := f) (by omega) (by omega)
    have hslot := slot_toNat (n := s.ncnt) (by omega)
    have hlp := l.size_pos
    have hrp := r.size_pos
    have hls : (t.ncnt.setWidth 10 : Slot) = BitVec.ofNat 10 (s.ncnt.toNat + 1) :=
      BitVec.eq_of_toNat_eq (by rw [slot_toNat (by omega), htn, BitVec.toNat_ofNat, Nat.mod_eq_of_lt (by omega)])
    have hrs : (u.ncnt.setWidth 10 : Slot) = BitVec.ofNat 10 (s.ncnt.toNat + 1 + l.size) :=
      BitVec.eq_of_toNat_eq (by
        rw [slot_toNat (n := u.ncnt) (by omega), hnu, htn, BitVec.toNat_ofNat, Nat.mod_eq_of_lt (by omega)])
    refine ⟨w.writeTree s.ncnt.toNat (.internal (BitVec.ofNat 10 (s.ncnt.toNat + 1))
      (BitVec.ofNat 10 (s.ncnt.toNat + 1 + l.size))), ?_, ?_, ?_, ?_, ?_, ?_⟩
    · simp only [parse, hne, if_false, ht, Res.ok_bind, Bool.false_eq_true, hu, hw, hslot, hls, hrs]
    · rw [hfw, hfu, he1]; rfl
    · have h1 : TakesPorts s t [false] := hk.toPorts.congr rfl rfl rfl rfl
      have := h1.trans (hku.trans hkw)
      exact this.congr rfl rfl rfl rfl
    · change w.ncnt.toNat = _
      simp only [HTree.size]
      omega
    · intro j hj
      simp only [HTree.size] at hj
      simp only [State.writeTree, State.setTree_tree, HTree.layout]
      cases j with
      | zero => exact Memory.read_write_same _ _ _
      | succ j =>
        rw [Memory.read_write_other _ _ (by omega), List.getElem?_cons_succ]
        by_cases hjl : j < l.size
        · rw [houtw _ (by omega), List.getElem?_append_left (by rw [layout_length]; exact hjl), ← htn, ← hinu j hjl]
          congr 1
          omega
        · rw [List.getElem?_append_right (by rw [layout_length]; omega), layout_length]
          have hb2 : s.ncnt.toNat + 1 + l.size = u.ncnt.toNat := by omega
          rw [hb2, ← hinw (j - l.size) (by omega)]
          congr 1
          omega
    · intro i hi
      simp only [HTree.size] at hi
      simp only [State.writeTree, State.setTree_tree]
      rw [Memory.read_write_other _ _ (by have := l.size_pos; omega), houtw _ (by omega), houtu _ (by omega), htt]

/-- A tree laid out in pre-order stands in the RAM. -/
theorem treeAt_of_layout (T : HTree) {cap base : Nat} {m : Memory Node} (hc : cap ≤ 1024) (hb : base + T.size ≤ cap)
    (h : ∀ j, j < T.size → m.read (base + j) = (T.layout base)[j]?) : treeAt cap m (BitVec.ofNat 10 base) T := by
  induction T generalizing base with
  | leaf sym =>
    simp only [HTree.size] at hb h
    have hn : (BitVec.ofNat 10 base).toNat = base := by rw [BitVec.toNat_ofNat, Nat.mod_eq_of_lt (by omega)]
    refine ⟨by omega, ?_⟩
    rw [hn]
    simpa [HTree.layout] using h 0 (by omega)
  | node l r ihl ihr =>
    simp only [HTree.size] at hb h
    have hn : (BitVec.ofNat 10 base).toNat = base := by rw [BitVec.toNat_ofNat, Nat.mod_eq_of_lt (by omega)]
    refine ⟨by omega, BitVec.ofNat 10 (base + 1), BitVec.ofNat 10 (base + 1 + l.size), ?_, ?_, ?_⟩
    · rw [hn]
      simpa [HTree.layout] using h 0 (by omega)
    · refine ihl (by omega) fun j hj => ?_
      have := h (j + 1) (by omega)
      rw [HTree.layout, List.getElem?_cons_succ, List.getElem?_append_left (by rw [layout_length]; exact hj)] at this
      rw [← this]
      congr 1
      omega
    · refine ihr (by omega) fun j hj => ?_
      have := h (l.size + j + 1) (by omega)
      rw [HTree.layout, List.getElem?_cons_succ, List.getElem?_append_right (by rw [layout_length]; omega),
        layout_length] at this
      rw [show base + 1 + l.size + j = base + (l.size + j + 1) by omega, this]
      congr 1
      omega

/-- A header that breaks off runs out of input (42_header R121, Truncation). -/
theorem parse_runsOut (T : HTree) {s : State} {more : List Bool} {fuel : Nat} (hb : s.inBits ++ more = T.header)
    (hm : more ≠ []) (hn : s.ncnt.toNat + T.size ≤ s.cap) (hf : T.size ≤ fuel) : RunsOut s (parse fuel s) := by
  induction T generalizing s more fuel with
  | leaf sym =>
    simp only [HTree.size] at hn hf
    obtain ⟨f, rfl⟩ : ∃ f, fuel = f + 1 := ⟨fuel - 1, by omega⟩
    have hne : s.ncnt.toNat ≠ s.cap := by omega
    rw [parse, if_neg hne]
    cases hi : s.inBits with
    | nil =>
      exact RunsOut.bind (RunsOut.congr (readBit_runsOut (s := s.setNcnt (s.ncnt + 1#11)) hi) rfl) _
    | cons b bits =>
      rw [hi] at hb
      simp only [HTree.header, List.cons_append, List.cons.injEq] at hb
      obtain ⟨rfl, hb⟩ := hb
      obtain ⟨t, ht, hk⟩ := readBit_takes (s := s.setNcnt (s.ncnt + 1#11)) hi
      have htin : t.inBits = bits := by
        have := hk.inBits
        rw [show (s.setNcnt (s.ncnt + 1#11)).inBits = s.inBits from rfl, hi] at this
        simpa using this.symm
      simp only [ht, Res.ok_bind, if_true]
      have hlen := congrArg List.length hb
      have hpos := List.length_pos_iff.2 hm
      simp only [List.length_append, msbFirst_length] at hlen
      refine RunsOut.bind (RunsOut.afterPorts (hk.toPorts.congr (s' := s) (t' := t) rfl rfl rfl rfl)
        (readBits_runsOut (by rw [htin]; omega))) _
  | node l r ihl ihr =>
    simp only [HTree.size] at hn hf
    obtain ⟨f, rfl⟩ : ∃ f, fuel = f + 1 := ⟨fuel - 1, by omega⟩
    have hcap := s.cap_le
    have hne : s.ncnt.toNat ≠ s.cap := by omega
    rw [parse, if_neg hne]
    cases hi : s.inBits with
    | nil =>
      exact RunsOut.bind (RunsOut.congr (readBit_runsOut (s := s.setNcnt (s.ncnt + 1#11)) hi) rfl) _
    | cons b bits =>
      rw [hi] at hb
      simp only [HTree.header, List.cons_append, List.cons.injEq] at hb
      obtain ⟨rfl, hb⟩ := hb
      obtain ⟨t, ht, hk⟩ := readBit_takes (s := s.setNcnt (s.ncnt + 1#11)) hi
      obtain ⟨r1, k1, he1, -⟩ := id hk
      have htn : t.ncnt.toNat = s.ncnt.toNat + 1 := by
        rw [he1]
        simp [State.setNcnt]
        omega
      have htc : t.cap = s.cap := by rw [he1]; rfl
      have htin : t.inBits = bits := by
        have := hk.inBits
        rw [show (s.setNcnt (s.ncnt + 1#11)).inBits = s.inBits from rfl, hi] at this
        simpa using this.symm
      have hks : TakesPorts s t [false] := hk.toPorts.congr rfl rfl rfl rfl
      simp only [ht, Res.ok_bind, Bool.false_eq_true, if_false]
      refine RunsOut.afterPorts hks ?_
      rw [← htin] at hb
      rcases List.append_eq_append_iff.1 hb with ⟨c, h1, h2⟩ | ⟨c, h1, h2⟩
      · by_cases hc : c = []
        · subst hc
          obtain ⟨u, hu, hfu, hku, hnu, -⟩ := parse_header l (s := t) (rest := []) (fuel := f)
            (by simpa using h1.symm) (by omega) (by omega)
          have huin : u.inBits = [] := by
            have := hku.inBits
            rw [← List.append_nil t.inBits, ← h1] at this
            simpa using this.symm
          have huc : u.cap = s.cap := by rw [hfu]; exact htc
          rw [hu, Res.ok_bind]
          exact RunsOut.bind (RunsOut.afterPorts hku (ihr (more := more) (by rw [huin]; simpa using h2)
            hm (by omega) (by omega))) _
        · exact RunsOut.bind (ihl h1.symm hc (by omega) (by omega)) _
      · obtain ⟨u, hu, hfu, hku, hnu, -⟩ := parse_header l (s := t) (rest := c) (fuel := f) h1 (by omega) (by omega)
        have huin : u.inBits = c := by
          have := hku.inBits
          rw [h1] at this
          simpa using this.symm
        have huc : u.cap = s.cap := by rw [hfu]; exact htc
        rw [hu, Res.ok_bind]
        exact RunsOut.bind (RunsOut.afterPorts hku (ihr (more := more) (by rw [huin]; exact h2.symm)
          hm (by omega) (by omega))) _

theorem nodeBits_length (T : HTree) : T.nodeBits.length = T.size := by
  induction T with
  | leaf sym => rfl
  | node l r ihl ihr => simp [HTree.nodeBits, HTree.size, ihl, ihr]; omega

theorem nodeBits_flatten (T : HTree) : T.nodeBits.flatten = T.header := by
  induction T with
  | leaf sym => simp [HTree.nodeBits, HTree.header]
  | node l r ihl ihr => simp [HTree.nodeBits, HTree.header, ihl, ihr]

theorem headerUpTo_zero (T : HTree) : T.headerUpTo 0 = [] := rfl

/-- All the nodes make the header. -/
theorem headerUpTo_all {T : HTree} {n : Nat} (h : T.size ≤ n) : T.headerUpTo n = T.header := by
  rw [HTree.headerUpTo, List.take_of_length_le (by rw [nodeBits_length]; exact h), nodeBits_flatten]

theorem headerUpTo_node (l r : HTree) (n : Nat) :
    (HTree.node l r).headerUpTo (n + 1) = false :: (l.headerUpTo n ++ r.headerUpTo (n - l.size)) := by
  simp [HTree.headerUpTo, HTree.nodeBits, List.take_append, nodeBits_length]

theorem headerUpTo_ne_nil {T : HTree} {n : Nat} (h : T.headerUpTo n ≠ []) : 0 < n :=
  Nat.pos_of_ne_zero fun h0 => h (by rw [h0]; rfl)

/-- A parse whose input ends within the nodes there are slots for (42_header R121, Truncation). -/
theorem parse_starves (T : HTree) {s : State} {more : List Bool} {fuel : Nat}
    (hb : s.inBits ++ more = T.headerUpTo (s.cap - s.ncnt.toNat)) (hm : more ≠ []) (hn : s.ncnt.toNat ≤ s.cap)
    (hf : s.cap < s.ncnt.toNat + fuel) : RunsOut s (parse fuel s) := by
  by_cases hfit : s.ncnt.toNat + T.size ≤ s.cap
  · exact parse_runsOut T (by rw [hb, headerUpTo_all (by omega)]) hm hfit (by omega)
  induction T generalizing s more fuel with
  | leaf sym =>
    simp only [HTree.size] at hfit
    rw [show s.cap - s.ncnt.toNat = 0 by omega, headerUpTo_zero] at hb
    exact absurd (List.append_eq_nil_iff.1 hb).2 hm
  | node l r ihl ihr =>
    simp only [HTree.size] at hfit
    obtain ⟨f, rfl⟩ : ∃ f, fuel = f + 1 := ⟨fuel - 1, by omega⟩
    have hcap := s.cap_le
    obtain ⟨n, hfree⟩ : ∃ n, s.cap - s.ncnt.toNat = n + 1 := by
      refine ⟨s.cap - s.ncnt.toNat - 1, ?_⟩
      have := headerUpTo_ne_nil (T := .node l r) (n := s.cap - s.ncnt.toNat) (by rw [← hb]; simp [hm])
      omega
    rw [hfree, headerUpTo_node] at hb
    rw [parse, if_neg (show s.ncnt.toNat ≠ s.cap by omega)]
    cases hi : s.inBits with
    | nil => exact RunsOut.bind (RunsOut.congr (readBit_runsOut (s := s.setNcnt (s.ncnt + 1#11)) hi) rfl) _
    | cons b bits =>
      rw [hi] at hb
      simp only [List.cons_append, List.cons.injEq] at hb
      obtain ⟨rfl, hb⟩ := hb
      obtain ⟨t, ht, hk⟩ := readBit_takes (s := s.setNcnt (s.ncnt + 1#11)) hi
      obtain ⟨r1, k1, he1, -⟩ := id hk
      have htn : t.ncnt.toNat = s.ncnt.toNat + 1 := by
        rw [he1]
        simp [State.setNcnt]
        omega
      have htc : t.cap = s.cap := by rw [he1]; rfl
      have htin : t.inBits = bits := by
        have := hk.inBits
        rw [show (s.setNcnt (s.ncnt + 1#11)).inBits = s.inBits from rfl, hi] at this
        simpa using this.symm
      have htf : t.cap - t.ncnt.toNat = n := by omega
      have hks : TakesPorts s t [false] := hk.toPorts.congr rfl rfl rfl rfl
      simp only [ht, Res.ok_bind, Bool.false_eq_true, if_false]
      refine RunsOut.afterPorts hks ?_
      have left : ∀ c, t.inBits ++ c = l.headerUpTo n → c ≠ [] → RunsOut t (parse f t) := by
        intro c hc hne
        by_cases hl : t.ncnt.toNat + l.size ≤ t.cap
        · exact parse_runsOut l (by rw [hc, headerUpTo_all (by omega)]) hne hl (by omega)
        · exact ihl (by rw [htf]; exact hc) hne (by omega) (by omega) hl
      have right : ∀ c, t.inBits = l.headerUpTo n ++ c → c ++ more = r.headerUpTo (n - l.size) →
          ∃ u x, parse f t = .ok x u ∧ TakesPorts t u l.header ∧ RunsOut u (parse f u) := by
        intro c h1 h2
        have hpos := headerUpTo_ne_nil (T := r) (n := n - l.size) (by rw [← h2]; simp [hm])
        rw [headerUpTo_all (by omega)] at h1
        obtain ⟨u, hu, hfu, hku, hnu, -⟩ := parse_header l (fuel := f) h1 (by omega) (by omega)
        have huc : u.cap = s.cap := by rw [hfu]; exact htc
        have huin : u.inBits = c := by
          have := hku.inBits
          rw [h1] at this
          simpa using this.symm
        have huf : u.cap - u.ncnt.toNat = n - l.size := by omega
        have hru : RunsOut u (parse f u) := by
          by_cases hr : u.ncnt.toNat + r.size ≤ u.cap
          · exact parse_runsOut r (by rw [huin, h2, headerUpTo_all (by omega)]) hm hr (by omega)
          · exact ihr (more := more) (by rw [huin, huf]; exact h2) hm (by omega) (by omega) hr
        exact ⟨u, _, hu, hku, hru⟩
      rw [← htin] at hb
      rcases List.append_eq_append_iff.1 hb with ⟨c, h1, h2⟩ | ⟨c, h1, h2⟩
      · by_cases hc : c = []
        · subst hc
          obtain ⟨u, x, hu, hku, hru⟩ := right [] (by simpa using h1.symm) (by simpa using h2)
          rw [hu, Res.ok_bind]
          exact RunsOut.bind (RunsOut.afterPorts hku hru) _
        · exact RunsOut.bind (left c h1.symm hc) _
      · obtain ⟨u, x, hu, hku, hru⟩ := right c h1 h2.symm
        rw [hu, Res.ok_bind]
        exact RunsOut.bind (RunsOut.afterPorts hku hru) _

/-- A header with more nodes than there are slots left (42_header R121): the bits of the nodes that fit are taken, no more. -/
theorem parse_tooLong (T : HTree) {s : State} {rest : List Bool} {fuel : Nat}
    (hb : s.inBits = T.headerUpTo (s.cap - s.ncnt.toNat) ++ rest) (hn : s.ncnt.toNat ≤ s.cap)
    (hT : s.cap < s.ncnt.toNat + T.size) (hf : s.cap < s.ncnt.toNat + fuel) :
    ∃ t, parse fuel s = .raise .treeOverflow 0#10 t ∧ TakesPorts s t (T.headerUpTo (s.cap - s.ncnt.toNat)) := by
  induction T generalizing s rest fuel with
  | leaf sym =>
    simp only [HTree.size] at hT
    obtain ⟨f, rfl⟩ : ∃ f, fuel = f + 1 := ⟨fuel - 1, by omega⟩
    rw [show s.cap - s.ncnt.toNat = 0 by omega]
    exact ⟨s, by rw [parse, if_pos (by omega)], takesPorts_refl rfl rfl⟩
  | node l r ihl ihr =>
    obtain ⟨f, rfl⟩ : ∃ f, fuel = f + 1 := ⟨fuel - 1, by omega⟩
    by_cases hne : s.ncnt.toNat = s.cap
    · rw [show s.cap - s.ncnt.toNat = 0 by omega]
      exact ⟨s, by rw [parse, if_pos hne], takesPorts_refl rfl rfl⟩
    have hcap := s.cap_le
    simp only [HTree.size] at hT
    obtain ⟨n, hfree⟩ : ∃ n, s.cap - s.ncnt.toNat = n + 1 := ⟨s.cap - s.ncnt.toNat - 1, by omega⟩
    rw [hfree, headerUpTo_node] at hb ⊢
    obtain ⟨t, ht, hk⟩ := readBit_takes (s := s.setNcnt (s.ncnt + 1#11)) (b := false)
      (rest := l.headerUpTo n ++ (r.headerUpTo (n - l.size) ++ rest)) (by simpa [State.inBits] using hb)
    obtain ⟨r1, k1, he1, -⟩ := id hk
    have htn : t.ncnt.toNat = s.ncnt.toNat + 1 := by
      rw [he1]
      simp [State.setNcnt]
      omega
    have htc : t.cap = s.cap := by rw [he1]; rfl
    have htin : t.inBits = l.headerUpTo n ++ (r.headerUpTo (n - l.size) ++ rest) := by
      have := hk.inBits
      rw [show (s.setNcnt (s.ncnt + 1#11)).inBits = s.inBits from rfl, hb] at this
      simpa using this.symm
    have htf : t.cap - t.ncnt.toNat = n := by omega
    have hks : TakesPorts s t [false] := hk.toPorts.congr rfl rfl rfl rfl
    by_cases hl : s.cap < s.ncnt.toNat + 1 + l.size
    · obtain ⟨u, hu, hku⟩ := ihl (s := t) (fuel := f) (by rw [htf]; exact htin) (by omega) (by omega) (by omega)
      rw [htf] at hku
      refine ⟨u, ?_, ?_⟩
      · rw [parse, if_neg hne]
        simp only [ht, Res.ok_bind, Bool.false_eq_true, if_false, hu, Res.raise_bind]
      · rw [show n - l.size = 0 by omega, headerUpTo_zero, List.append_nil]
        exact hks.trans hku
    · have hlh : l.headerUpTo n = l.header := headerUpTo_all (by omega)
      rw [hlh] at htin ⊢
      obtain ⟨u, hu, hfu, hku, hnu, -⟩ := parse_header l htin (fuel := f) (by omega) (by omega)
      have huc : u.cap = s.cap := by rw [hfu]; exact htc
      have huin : u.inBits = r.headerUpTo (n - l.size) ++ rest := by
        have := hku.inBits
        rw [htin] at this
        simpa using this.symm
      have huf : u.cap - u.ncnt.toNat = n - l.size := by omega
      obtain ⟨w, hw, hkw⟩ := ihr (s := u) (fuel := f) (by rw [huf]; exact huin) (by omega) (by omega) (by omega)
      rw [huf] at hkw
      refine ⟨w, ?_, hks.trans (hku.trans hkw)⟩
      rw [parse, if_neg hne]
      simp only [ht, Res.ok_bind, Bool.false_eq_true, if_false, hu, hw, Res.raise_bind]

/-! ### The walk -/

theorem Takes.tree_eq {s t : State} {bits : List Bool} (h : Takes s t bits) : t.tree = s.tree ∧ t.cap = s.cap := by
  obtain ⟨r, k, rfl, -⟩ := h
  exact ⟨rfl, rfl⟩

/-- From an internal node the walk follows the path its bits spell, to the slot where it ends. -/
theorem walkFrom_along {cap : Nat} {m : Memory Node} (p : List Bool) {b : Bool} {l r j : Slot}
    (hp : slotAlong cap m (if b then r else l) p = some j) {s : State} {v fuel : Nat} {rest : List Bool} (hcap : s.cap = cap)
    (hm : s.tree = m) (hin : s.inBits = b :: p ++ rest) (hv : v + p.length ≤ cap) (hf : p.length < fuel) :
    ∃ (t : State) (f : Nat), Takes s t (b :: p) ∧ f + p.length + 1 = fuel ∧ walkFrom fuel l r v s =
      (visit j (v + p.length) t).bind fun nv s =>
        match nv.1 with
        | .leaf sym => .ok sym s
        | .internal l' r' => walkFrom f l' r' nv.2 s := by
  induction p generalizing b l r s v fuel with
  | nil =>
    obtain ⟨f, rfl⟩ : ∃ f, fuel = f + 1 := ⟨fuel - 1, by omega⟩
    obtain rfl : (if b then r else l) = j := Option.some.inj hp
    obtain ⟨t, ht, hk⟩ := readBit_takes (s := s) (b := b) (rest := rest) hin
    exact ⟨t, f, hk, rfl, by rw [walkFrom, ht, Res.ok_bind]; rfl⟩
  | cons c p ih =>
    obtain ⟨f, rfl⟩ : ∃ f, fuel = f + 1 := ⟨fuel - 1, by omega⟩
    subst hcap hm
    obtain ⟨t, ht, hk⟩ := readBit_takes (s := s) (b := b) (rest := c :: p ++ rest) hin
    have htin : t.inBits = c :: p ++ rest := by
      have := hk.inBits
      rw [hin] at this
      simpa using this.symm
    obtain ⟨h1, h2⟩ := hk.tree_eq
    simp only [List.length_cons] at hv hf
    obtain ⟨l', r', hi, hr, hp⟩ := slotAlong_cons_some hp
    obtain ⟨u, f', hku, hff, hw⟩ := ih hp (s := t) (v := v + 1) (fuel := f) h2 h1 htin (by omega) (by omega)
    refine ⟨u, f', hk.trans hku, by simp only [List.length_cons]; omega, ?_⟩
    rw [walkFrom, ht, Res.ok_bind, visit_eq (n := .internal l' r') (by rw [h2]; exact hi) (by rw [h1]; exact hr)
      (by rw [h2]; omega), Res.ok_bind]
    simp only [hw, List.length_cons, show v + 1 + p.length = v + (p.length + 1) by omega]

/-- One walk along a path to slot j, up to the visit of j. -/
theorem walk_along {s : State} {p rest : List Bool} {j : Slot} (hv : s.root.valid = true) (hp : p ≠ [])
    (hj : slotAlong s.cap s.tree s.root.idx p = some j) (hin : s.inBits = p ++ rest) (hn : p.length ≤ s.cap) :
    ∃ (t : State) (f : Nat), Takes s t p ∧ 0 < f ∧ walk s = (visit j p.length t).bind fun nv s =>
      match nv.1 with
      | .leaf sym => .ok sym s
      | .internal l' r' => walkFrom f l' r' nv.2 s := by
  cases p with
  | nil => exact absurd rfl hp
  | cons b p =>
    have hcap := s.le_cap
    simp only [List.length_cons] at hn
    obtain ⟨l, r, hi, hr, hj⟩ := slotAlong_cons_some hj
    obtain ⟨t, f, hk, hf, hw⟩ := walkFrom_along p hj (s := s) (v := 1) (fuel := s.cap + 1) rfl rfl hin (by omega) (by omega)
    refine ⟨t, f, hk, by omega, ?_⟩
    unfold walk
    rw [requireRoot_ok hv, Res.ok_bind, visit_eq hi hr (by omega), Res.ok_bind]
    simp only [hw, List.length_cons, Nat.add_comm 1, Nat.zero_add]

/-- A walk that ends at a leaf. -/
theorem walk_ends {s : State} {p rest : List Bool} {sym : Symbol} (hw : s.walksTo p sym) (hin : s.inBits = p ++ rest) :
    ∃ t, walk s = .ok sym t ∧ Takes s t p := by
  obtain ⟨hv, ⟨hp, hn, j, hj, hjc, hr⟩ | ⟨hp, hi, hr⟩⟩ := hw
  · obtain ⟨t, f, hk, -, hw⟩ := walk_along hv hp hj hin (by omega)
    obtain ⟨h1, h2⟩ := hk.tree_eq
    exact ⟨t, by rw [hw, visit_eq (n := .leaf sym) (by rw [h2]; exact hjc) (by rw [h1]; exact hr) (by rw [h2]; exact hn)]; rfl, hk⟩
  · obtain ⟨b, rfl⟩ := List.length_eq_one_iff.1 hp
    obtain ⟨t, ht, hk⟩ := readBit_takes hin
    refine ⟨t, ?_, hk⟩
    unfold walk
    rw [requireRoot_ok hv, Res.ok_bind, visit_eq hi hr (by omega), Res.ok_bind]
    simp only [ht, Res.ok_bind]

/-- A walk that needs a bit there is not. -/
theorem walk_runsOut {s : State} (hw : s.walkGoesOn s.inBits) : RunsOut s (walk s) := by
  obtain ⟨hv, hn, i, n, hi, hic, hr, hin⟩ := hw
  by_cases hb : s.inBits = []
  · rw [hb] at hi
    obtain rfl : s.root.idx = i := Option.some.inj hi
    unfold walk
    rw [requireRoot_ok hv, Res.ok_bind, visit_eq hic hr (by omega), Res.ok_bind]
    cases n with
    | leaf sym => exact (readBit_runsOut hb).bind _
    | internal l r =>
      change RunsOut s (walkFrom (s.cap + 1) l r 1 s)
      rw [walkFrom]
      exact (readBit_runsOut hb).bind _
  · obtain ⟨l, r, rfl⟩ := hin.resolve_right hb
    obtain ⟨t, f, hk, hf, hw⟩ := walk_along hv hb hi (rest := []) (by simp) (by omega)
    obtain ⟨h1, h2⟩ := hk.tree_eq
    have htin : t.inBits = [] := List.append_cancel_left (hk.inBits.symm.trans (List.append_nil _).symm)
    obtain ⟨g, rfl⟩ : ∃ g, f = g + 1 := ⟨f - 1, by omega⟩
    rw [hw, visit_eq (n := .internal l r) (by rw [h2]; exact hic) (by rw [h1]; exact hr) (by rw [h2]; exact hn), Res.ok_bind]
    refine RunsOut.after hk ?_
    change RunsOut t (walkFrom (g + 1) l r (s.inBits.length + 1) t)
    rw [walkFrom]
    exact (readBit_runsOut htin).bind _

/-! ### Every walk is one of three -/

theorem slotAlong_snoc {cap : Nat} {m : Memory Node} {p : List Bool} {i j l r : Slot} (h : slotAlong cap m i p = some j)
    (hj : j.toNat < cap) (hr : m.read j.toNat = some (.internal l r)) (b : Bool) :
    slotAlong cap m i (p ++ [b]) = some (if b then r else l) := by
  induction p generalizing i with
  | nil =>
    obtain rfl : i = j := Option.some.inj h
    exact slotAlong_cons hj hr b []
  | cons c p ih =>
    obtain ⟨l', r', hi, hr', h⟩ := slotAlong_cons_some h
    rw [List.cons_append, slotAlong_cons hi hr']
    exact ih h

/-- Over any bits a walk ends at a leaf, needs another bit, or comes to a slot it cannot visit. -/
theorem walk_covered {s : State} (hv : s.root.valid = true) (bits : List Bool) :
    (∃ p rest sym, bits = p ++ rest ∧ s.walksTo p sym) ∨ s.walkGoesOn bits ∨
    ∃ p rest j, bits = p ++ rest ∧ slotAlong s.cap s.tree s.root.idx p = some j ∧ p.length ≤ s.cap ∧
      (s.cap ≤ j.toNat ∨ p.length = s.cap ∨ s.tree.read j.toNat = none) := by
  have hcap := s.le_cap
  induction h : bits.length generalizing bits with
  | zero =>
    obtain rfl := List.length_eq_zero_iff.1 h
    by_cases hi : s.cap ≤ s.root.idx.toNat
    · exact .inr (.inr ⟨[], [], _, rfl, rfl, by simp, .inl hi⟩)
    · cases hr : s.tree.read s.root.idx.toNat with
      | none => exact .inr (.inr ⟨[], [], _, rfl, rfl, by simp, .inr (.inr hr)⟩)
      | some n => exact .inr (.inl ⟨hv, by simp; omega, _, n, rfl, by omega, hr, .inr rfl⟩)
  | succ k ih =>
    obtain ⟨p, b, rfl⟩ : ∃ p b, bits = p ++ [b] :=
      ⟨bits.dropLast, bits.getLast (by rintro rfl; simp at h), (List.dropLast_append_getLast _).symm⟩
    rcases ih p (by simpa using h) with ⟨q, rest, sym, rfl, hw⟩ | ⟨-, hn, i, n, hi, hic, hr, hin⟩ | ⟨q, rest, j, rfl, hq⟩
    · exact .inl ⟨q, rest ++ [b], sym, by simp, hw⟩
    · cases n with
      | leaf sym =>
        obtain rfl := hin.resolve_left (by rintro ⟨l, r, h⟩; cases h)
        obtain rfl : s.root.idx = i := Option.some.inj hi
        exact .inl ⟨[b], [], sym, rfl, hv, .inr ⟨rfl, hic, hr⟩⟩
      | internal l r =>
        have hj := slotAlong_snoc hi hic hr b
        have hl : (p ++ [b]).length = p.length + 1 := by simp
        by_cases hbad : s.cap ≤ (if b then r else l).toNat ∨ (p ++ [b]).length = s.cap ∨
            s.tree.read (if b then r else l).toNat = none
        · exact .inr (.inr ⟨p ++ [b], [], _, by simp, hj, by omega, hbad⟩)
        · rw [not_or, not_or] at hbad
          obtain ⟨h1, h2, h3⟩ := hbad
          cases hr' : s.tree.read (if b then r else l).toNat with
          | none => exact absurd hr' h3
          | some n =>
            cases n with
            | leaf sym => exact .inl ⟨p ++ [b], [], sym, by simp, hv, .inl ⟨by simp, by omega, _, hj, by omega, hr'⟩⟩
            | internal l' r' => exact .inr (.inl ⟨hv, by omega, _, _, hj, by omega, hr', .inl ⟨l', r', rfl⟩⟩)
    · exact .inr (.inr ⟨q, rest ++ [b], j, by simp, hq⟩)

/-! ### Codes decode -/

theorem slotAlong_path {cap : Nat} {m : Memory Node} (T : HTree) {i : Slot} (hT : treeAt cap m i T) {c : List Bool}
    {sym : Symbol} (h : (c, sym) ∈ T.paths) :
    c.length < T.size ∧ ∃ j, slotAlong cap m i c = some j ∧ j.toNat < cap ∧ m.read j.toNat = some (.leaf sym) := by
  induction T generalizing i c with
  | leaf sy =>
    simp only [HTree.paths, List.mem_singleton, Prod.mk.injEq] at h
    obtain ⟨rfl, rfl⟩ := h
    exact ⟨by simp [HTree.size], i, rfl, hT⟩
  | node l r ihl ihr =>
    obtain ⟨hi, a, b, hr, hl, hrr⟩ := hT
    simp only [HTree.paths, List.mem_append, List.mem_map, Prod.exists] at h
    rcases h with ⟨c', sy, hm, he⟩ | ⟨c', sy, hm, he⟩
    · obtain ⟨rfl, rfl⟩ := Prod.mk.inj he
      obtain ⟨hn, h⟩ := ihl hl hm
      exact ⟨by simp [HTree.size]; omega, by rw [slotAlong_cons hi hr]; exact h⟩
    · obtain ⟨rfl, rfl⟩ := Prod.mk.inj he
      obtain ⟨hn, h⟩ := ihr hrr hm
      exact ⟨by simp [HTree.size]; omega, by rw [slotAlong_cons hi hr]; exact h⟩

/-- A walk over a code of a loaded tree (30_encoding R83) ends at its symbol. -/
theorem State.hasTree.walksTo {s : State} {T : HTree} (hT : s.hasTree T) {c : List Bool} {sym : Symbol} (h : (c, sym) ∈ T.codes) :
    s.walksTo c sym := by
  obtain ⟨hv, ht, hs⟩ := hT
  cases T with
  | leaf sy =>
    simp only [HTree.codes, List.mem_singleton, Prod.mk.injEq] at h
    obtain ⟨rfl, rfl⟩ := h
    exact ⟨hv, .inr ⟨rfl, ht⟩⟩
  | node l r =>
    obtain ⟨hn, h'⟩ := slotAlong_path _ ht h
    refine ⟨hv, .inl ⟨?_, by omega, h'⟩⟩
    rintro rfl
    simp [HTree.codes, HTree.paths] at h

end Sys2Proof.Machine
end

