-- ==== Sys2Proof/Laws/BadSlots.lean ====
section
/-! SUPPORT. What the traversals do up to a slot, wherever it lies and whatever else the RAM holds; and what they and the walk do at
a leaf that faults (41_codetable R111) and at a slot that cannot be visited: an index at or above NODE_CAP, the visit after
NODE_CAP (R110), or a slot never written (10_state R41). -/

namespace Sys2Proof.Machine

/-- Why a slot cannot be visited. -/
inductive BadSlot where
  | invalid
  | unwritten

/-- How a piece of pseudocode ends at it. -/
def BadSlot.res {α : Type} (k : BadSlot) (j : Slot) (t : State) : Res α :=
  match k with
  | .invalid => .raise .treeInvalid j t
  | .unwritten => .uninit j t

/-- After n visits slot j cannot be visited, for the reason k. -/
def BadSlot.holds (k : BadSlot) (cap : Nat) (m : Memory Node) (j : Slot) (n : Nat) : Prop :=
  match k with
  | .invalid => cap ≤ j.toNat ∨ cap ≤ n
  | .unwritten => j.toNat < cap ∧ n < cap ∧ m.read j.toNat = none

@[simp] theorem BadSlot.res_bind {α β : Type} (k : BadSlot) (j : Slot) (t : State) (f : α → State → Res β) :
    (k.res j t : Res α).bind f = k.res j t := by
  cases k <;> rfl

theorem visit_bad {k : BadSlot} {s : State} {j : Slot} {n : Nat} (h : k.holds s.cap s.tree j n) :
    visit j n s = k.res j s := by
  cases k with
  | invalid =>
    rcases h with h | h
    · rw [visit, if_pos h]; rfl
    · exact visit_bound h
  | unwritten =>
    obtain ⟨h1, h2, h3⟩ := h
    unfold visit node
    rw [if_neg (by omega), if_neg (by omega), h3]
    rfl

/-- `gen` at an internal node: both children, one level down. -/
theorem gen_internal {s : State} {i l r : Slot} {d pat v n : Nat} (hi : i.toNat < s.cap)
    (hr : s.tree.read i.toNat = some (.internal l r)) (hv : v < s.cap) :
    gen (n + 1) i d pat v s =
      (gen n l (d + 1) (pat * 2) (v + 1) s).bind fun v s => gen n r (d + 1) (pat * 2 + 1) v s := by
  simp only [gen, visit_eq hi hr hv, Res.ok_bind]

/-- A traversal of GEN_CODES comes to slot j having entered the leaves passed before, in pre-order; what it does at j is what
`gen` does there, at the depth of j. -/
theorem gen_upTo {cap : Nat} {m : Memory Node} {j : Slot} (ds : List Descent) {i : Slot} (hc : comesTo cap m i ds j) :
    ∃ L : List (Slot × List Bool × Symbol), L.map Prod.snd = leavesSoFar ds ∧
      ∀ (q : List Bool) (v fuel : Nat), v + visitsSoFar ds ≤ cap → visitsSoFar ds < fuel →
        ∃ (f pat : Nat) (K : Nat → State → Res Nat), ∀ s : State, s.cap = cap → s.tree = m →
          gen fuel i q.length (bitsValue q) v s = (enterSeq q L s).bind fun _ t =>
            (gen (f + 1) j (q.length + ds.length) pat (v + visitsSoFar ds) t).bind K := by
  induction ds generalizing i with
  | nil =>
    obtain rfl : i = j := hc
    refine ⟨[], rfl, fun q v fuel hv hf => ⟨fuel - 1, bitsValue q, .ok, fun s hcap hm => ?_⟩⟩
    rw [show fuel - 1 + 1 = fuel by omega, enterSeq, Res.ok_bind, Res.bind_ok]
    rfl
  | cons d ds ih =>
    obtain ⟨hi, l, r, hr, hd⟩ := hc
    cases d with
    | left =>
      obtain ⟨L, hp, hg⟩ := ih hd
      refine ⟨L.map fun e => (e.1, false :: e.2.1, e.2.2), by simp [leavesSoFar, ← hp, Function.comp_def], ?_⟩
      intro q v fuel hv hf
      simp only [visitsSoFar] at hv hf ⊢
      obtain ⟨n, rfl⟩ : ∃ n, fuel = n + 1 := ⟨fuel - 1, by omega⟩
      obtain ⟨f, pat, K, h1⟩ := hg (q ++ [false]) (v + 1) n (by omega) (by omega)
      refine ⟨f, pat, fun w t => (K w t).bind fun w t => gen n r (q.length + 1) (bitsValue q * 2 + 1) w t, fun s hcap hm => ?_⟩
      have h2 := h1 s hcap hm
      subst hcap hm
      rw [List.length_append, List.length_singleton, bitsValue_append] at h2
      simp only [Bool.toNat_false, Nat.add_zero] at h2
      rw [gen_internal hi hr (by omega), h2, Res.bind_assoc, enterSeq_shift]
      simp only [Res.bind_assoc, List.length_cons, Nat.add_assoc, Nat.add_comm 1]
    | right T =>
      obtain ⟨hT, hd⟩ := hd
      obtain ⟨L1, p1, g1⟩ := gen_eq_enterSeq T hT
      obtain ⟨L2, p2, g2⟩ := ih hd
      refine ⟨(L1.map fun e => (e.1, false :: e.2.1, e.2.2)) ++ L2.map fun e => (e.1, true :: e.2.1, e.2.2), ?_, ?_⟩
      · simp [leavesSoFar, ← p1, ← p2, Function.comp_def]
      intro q v fuel hv hf
      simp only [visitsSoFar] at hv hf ⊢
      obtain ⟨n, rfl⟩ : ∃ n, fuel = n + 1 := ⟨fuel - 1, by omega⟩
      obtain ⟨f, pat, K, h0⟩ := g2 (q ++ [true]) (v + 1 + T.size) n (by omega) (by omega)
      refine ⟨f, pat, K, fun s hcap hm => ?_⟩
      have h1 := g1 s (q ++ [false]) (v + 1) n hcap hm (by omega) (by omega)
      subst hcap hm
      rw [List.length_append, List.length_singleton, bitsValue_append] at h1
      simp only [Bool.toNat_false, Nat.add_zero] at h1
      rw [gen_internal hi hr (by omega), h1, Res.bind_const_congr, enterSeq_append, enterSeq_shift, Res.bind_assoc]
      refine Res.bind_congr_ok fun _ t ht => ?_
      obtain ⟨m', rfl⟩ := enterSeq_ok ht
      have h2 := h0 (s.setCode m') rfl rfl
      rw [List.length_append, List.length_singleton, bitsValue_append] at h2
      simp only [Bool.toNat_true] at h2
      rw [h2, enterSeq_shift]
      simp only [List.length_cons, Nat.add_assoc, Nat.add_comm 1]

theorem leavesSoFar_pos {ds : List Descent} {c : List Bool × Symbol} (h : c ∈ leavesSoFar ds) : 1 ≤ c.1.length := by
  cases ds with
  | nil => cases h
  | cons d ds =>
    cases d with
    | left =>
      obtain ⟨x, -, rfl⟩ := List.mem_map.1 h
      simp
    | right t =>
      rcases List.mem_append.1 h with h | h <;> obtain ⟨x, -, rfl⟩ := List.mem_map.1 h <;> simp

/-- GEN_CODES (41_codetable R111) that comes to slot j, no leaf passed before raising: their symbols have their entries, and what
it does is what `gen` does at j. -/
theorem genCodesBody_upTo {s : State} {ds : List Descent} {j : Slot} (hv : s.root.valid = true)
    (hc : comesTo s.cap s.tree s.root.idx ds j) (hn : visitsSoFar ds ≤ s.cap) (hlen : ∀ c ∈ leavesSoFar ds, c.1.length ≤ 32)
    (hd : ((leavesSoFar ds).map Prod.snd).Nodup) :
    ∃ (m : Memory CodeEntry) (f pat : Nat) (K : Nat → State → Res Unit),
      genCodesBody s = (gen (f + 1) j ds.length pat (visitsSoFar ds) (s.setCode m)).bind K ∧
      ∀ sym ∈ (leavesSoFar ds).map Prod.snd, ∃ e, (s.setCode m).validCode sym = some e := by
  obtain ⟨L, hp, hg⟩ := gen_upTo ds hc
  obtain ⟨f, pat, K, h1⟩ := hg [] 0 (s.cap + 1) (by omega) (by omega)
  have h2 := h1 (s.setCode (clearValid s.code)) rfl rfl
  rw [List.length_nil, show bitsValue [] = 0 from rfl] at h2
  have hsy : (L.map fun e => e.2.2) = (leavesSoFar ds).map Prod.snd := by rw [← hp, List.map_map]; rfl
  have hmem : ∀ e ∈ L, e.2 ∈ leavesSoFar ds := fun e he => by rw [← hp]; exact List.mem_map_of_mem he
  rw [enterSeq_eq (q := []) (fun e he => ⟨leavesSoFar_pos (hmem e he), hlen _ (hmem e he)⟩) (fun e _ => validCode_cleared s _)
    (by rw [hsy]; exact hd), Res.ok_bind] at h2
  refine ⟨enterAll (clearValid s.code) (L.map fun e => ([] ++ e.2.1, e.2.2)), f, pat,
    fun w t => (K w t).bind fun _ s => .ok () s, ?_, fun sym hm => ?_⟩
  · unfold genCodesBody
    rw [requireRoot_ok hv, Res.ok_bind, h2, Res.bind_assoc]
    simp only [Nat.zero_add]
    rfl
  · rw [← hsy] at hm
    obtain ⟨e, he, rfl⟩ := List.mem_map.1 hm
    have hr := read_enterAll_mem (L.map fun e => ([] ++ e.2.1, e.2.2)) (clearValid s.code)
      (by rw [List.map_map]; exact hsy.symm ▸ hd) (List.mem_map_of_mem he)
    exact ⟨entryOf e.2.1, by simp only [State.validCode, State.setCode_code, hr]; simp [entryOf]⟩

/-- GEN_CODES that comes to a bad slot. -/
theorem genCodesBody_bad {s : State} {ds : List Descent} {j : Slot} {k : BadSlot} (hv : s.root.valid = true)
    (hc : comesTo s.cap s.tree s.root.idx ds j) (hk : k.holds s.cap s.tree j (visitsSoFar ds)) (hn : visitsSoFar ds ≤ s.cap)
    (hlen : ∀ c ∈ leavesSoFar ds, c.1.length ≤ 32) (hd : ((leavesSoFar ds).map Prod.snd).Nodup) :
    ∃ t, genCodesBody s = k.res j t ∧ t.ports = s.ports := by
  obtain ⟨m, f, pat, K, h, -⟩ := genCodesBody_upTo hv hc hn hlen hd
  exact ⟨s.setCode m, by rw [h, gen, visit_bad (s := s.setCode m) (n := visitsSoFar ds) hk, BadSlot.res_bind, BadSlot.res_bind], rfl⟩

/-- GEN_CODES that comes to a faulting leaf (41_codetable R111): too deep, before a symbol already entered. -/
theorem genCodesBody_faultingLeaf {s : State} {ds : List Descent} {j : Slot} {sym : Symbol} (hv : s.root.valid = true)
    (hc : comesTo s.cap s.tree s.root.idx ds j) (hn : visitsSoFar ds < s.cap) (hj : j.toNat < s.cap)
    (hr : s.tree.read j.toNat = some (.leaf sym)) (hlen : ∀ c ∈ leavesSoFar ds, c.1.length ≤ 32)
    (hd : ((leavesSoFar ds).map Prod.snd).Nodup) :
    (32 < ds.length → ∃ t, genCodesBody s = .raise .codeTooLong (sym.setWidth 10) t ∧ t.ports = s.ports) ∧
    (ds.length ≤ 32 → sym ∈ (leavesSoFar ds).map Prod.snd →
      ∃ t, genCodesBody s = .raise .treeInvalid j t ∧ t.ports = s.ports) := by
  obtain ⟨m, f, pat, K, h, hm⟩ := genCodesBody_upTo hv hc (by omega) hlen hd
  rw [gen, visit_eq (s := s.setCode m) (n := .leaf sym) hj hr hn, Res.ok_bind] at h
  have hcode : ds.length ≠ 0 → leafCode ds.length pat = (ds.length, pat) := fun h0 => if_neg h0
  refine ⟨fun hl => ⟨s.setCode m, ?_, rfl⟩, fun hl hs => ⟨s.setCode m, ?_, rfl⟩⟩
  · rw [h]
    simp only [enterLeaf, hcode (by omega), maxLen]
    rw [if_pos (by omega)]
    rfl
  · obtain ⟨e, he⟩ := hm sym hs
    have h0 : ds.length ≠ 0 := by
      intro h0
      rw [List.length_eq_zero_iff.1 h0] at hs
      cases hs
    rw [h]
    simp only [enterLeaf, hcode h0, maxLen, he]
    rw [if_neg (by omega)]
    rfl

/-- The traversal from slot i comes, in fewer than n visits, to a leaf that holds sym, at the end of a path as long as c, having
passed the leaves `before`. -/
def ComesToLeaf (cap : Nat) (m : Memory Node) (i : Slot) (n : Nat) (before : List (List Bool × Symbol)) (c : List Bool)
    (sym : Symbol) : Prop :=
  ∃ ds j, comesTo cap m i ds j ∧ ds.length = c.length ∧ leavesSoFar ds = before ∧ visitsSoFar ds < n ∧ j.toNat < cap ∧
    m.read j.toNat = some (.leaf sym)

/-- The traversal of a whole tree comes to each of its leaves, having passed the leaves before it. -/
theorem treeAt_comesTo {cap : Nat} {m : Memory Node} (T : HTree) {i : Slot} (hT : treeAt cap m i T)
    {before after : List (List Bool × Symbol)} {c : List Bool} {sym : Symbol} (h : T.paths = before ++ (c, sym) :: after) :
    ComesToLeaf cap m i T.size before c sym := by
  induction T generalizing i before after c with
  | leaf sy =>
    obtain ⟨rfl, he, -⟩ : before = [] ∧ ([], sy) = (c, sym) ∧ after = [] := by
      cases before with
      | nil => simpa [HTree.paths] using h
      | cons d before => simp [HTree.paths] at h
    obtain ⟨rfl, rfl⟩ := Prod.mk.inj he
    exact ⟨[], i, rfl, rfl, rfl, by simp [visitsSoFar, HTree.size], hT⟩
  | node l r ihl ihr =>
    obtain ⟨hi, a, b, hr, hl, hrr⟩ := hT
    have left : ∀ rest, l.paths.map (fun x => (false :: x.1, x.2)) = before ++ (c, sym) :: rest →
        ComesToLeaf cap m i (HTree.node l r).size before c sym := fun rest hs => by
      obtain ⟨L1, R, h1, rfl, h2⟩ := List.map_eq_append_iff.1 hs
      obtain ⟨e, L2, rfl, h3, -⟩ := List.map_eq_cons_iff.1 h2
      obtain ⟨rfl, rfl⟩ := Prod.mk.inj h3
      obtain ⟨ds, j, g1, g2, rfl, g4, g5⟩ := ihl hl h1
      exact ⟨.left :: ds, j, ⟨hi, a, b, hr, g1⟩, by simp [g2], rfl, by simp only [visitsSoFar, HTree.size]; omega, g5⟩
    have right : ∀ bef, before = l.paths.map (fun x => (false :: x.1, x.2)) ++ bef →
        r.paths.map (fun x => (true :: x.1, x.2)) = bef ++ (c, sym) :: after →
        ComesToLeaf cap m i (HTree.node l r).size before c sym := fun bef hb hs => by
      obtain ⟨L1, R, h1, rfl, h2⟩ := List.map_eq_append_iff.1 hs
      obtain ⟨e, L2, rfl, h3, -⟩ := List.map_eq_cons_iff.1 h2
      obtain ⟨rfl, rfl⟩ := Prod.mk.inj h3
      obtain ⟨ds, j, g1, g2, rfl, g4, g5⟩ := ihr hrr h1
      exact ⟨.right l :: ds, j, ⟨hi, a, b, hr, hl, g1⟩, by simp [g2], hb.symm,
        by simp only [visitsSoFar, HTree.size]; omega, g5⟩
    rw [HTree.paths] at h
    rcases List.append_eq_append_iff.1 h with ⟨x, h1, h2⟩ | ⟨x, h1, h2⟩
    · exact right x h1 h2
    · cases x with
      | nil => exact right [] (by simpa using h1.symm) (by simpa using h2.symm)
      | cons y x =>
        obtain ⟨rfl, -⟩ := List.cons.inj h2
        exact left x h1

/-- WRITE_HEADER at a bad slot: the header bits of the nodes visited before go out. -/
theorem ser_bad {cap : Nat} {m : Memory Node} {k : BadSlot} {j : Slot} (ds : List Descent) {i : Slot}
    (hc : comesTo cap m i ds j) {s : State} {v fuel : Nat} (hcap : s.cap = cap) (hm : s.tree = m)
    (hk : k.holds cap m j (v + visitsSoFar ds)) (hv : v + visitsSoFar ds ≤ cap) (hf : visitsSoFar ds < fuel)
    (ha : s.sinkAccepts ((s.writer.cnt.val + (headerSoFar ds).length) / 8)) :
    ∃ t, ser fuel i v s = k.res j t ∧ Emits s t (headerSoFar ds) := by
  induction ds generalizing i s v fuel with
  | nil =>
    obtain rfl : i = j := hc
    subst hcap hm
    obtain ⟨f, rfl⟩ : ∃ f, fuel = f + 1 := ⟨fuel - 1, by omega⟩
    exact ⟨s, by rw [ser, visit_bad (n := v) hk, BadSlot.res_bind], emits_refl s⟩
  | cons d ds ih =>
    obtain ⟨hi, l, r, hr, hd⟩ := hc
    subst hcap hm
    cases d with
    | left =>
      simp only [visitsSoFar] at hk hv hf
      obtain ⟨f, rfl⟩ : ∃ f, fuel = f + 1 := ⟨fuel - 1, by omega⟩
      simp only [headerSoFar, List.length_cons] at ha ⊢
      obtain ⟨t, ht, he⟩ := writeBit_emits (b := false) (s := s) (sinkAccepts_mono ha (by omega))
      obtain ⟨h1, h2⟩ := he.tree_eq
      obtain ⟨u, hu, hg⟩ := ih hd (s := t) (v := v + 1) (fuel := f) h2 h1 (by rwa [Nat.add_assoc]) (by omega) (by omega)
        (he.sinkAccepts (by simpa [Nat.add_assoc, Nat.add_comm 1] using ha))
      refine ⟨u, ?_, he.trans hg⟩
      simp only [ser, visit_eq hi hr (show v < s.cap by omega), Res.ok_bind, ht, hu, BadSlot.res_bind]
    | right T =>
      obtain ⟨hT, hd⟩ := hd
      simp only [visitsSoFar] at hk hv hf
      obtain ⟨f, rfl⟩ : ∃ f, fuel = f + 1 := ⟨fuel - 1, by omega⟩
      simp only [headerSoFar, List.length_cons, List.length_append] at ha ⊢
      obtain ⟨t, ht, he⟩ := writeBit_emits (b := false) (s := s) (sinkAccepts_mono ha (by omega))
      obtain ⟨h1, h2⟩ := he.tree_eq
      have ha1 := he.sinkAccepts (m := T.header.length + (headerSoFar ds).length)
        (by simpa [Nat.add_assoc, Nat.add_comm 1] using ha)
      obtain ⟨u, hu, hg⟩ := ser_emits T hT (s := t) (v := v + 1) (fuel := f) h2 h1 (by omega) (by omega)
        (sinkAccepts_mono ha1 (by omega))
      obtain ⟨h3, h4⟩ := hg.tree_eq
      obtain ⟨w, hw, hh⟩ := ih hd (s := u) (v := v + 1 + T.size) (fuel := f) (h4.trans h2) (h3.trans h1)
        (by rwa [show v + 1 + T.size + visitsSoFar ds = v + (1 + T.size + visitsSoFar ds) by omega]) (by omega) (by omega)
        (hg.sinkAccepts (by simpa [Nat.add_assoc] using ha1))
      refine ⟨w, ?_, he.trans (hg.trans hh)⟩
      simp only [ser, visit_eq hi hr (show v < s.cap by omega), Res.ok_bind, ht, hu, hw]

/-- WRITE_HEADER whose sink stops it before it comes to slot j (20_memory R53). -/
theorem ser_stopsBefore {cap : Nat} {m : Memory Node} {j : Slot} (ds : List Descent) {i : Slot} (hc : comesTo cap m i ds j)
    {s : State} {v fuel k : Nat} {more : List Answer} (hcap : s.cap = cap) (hm : s.tree = m) (hv : v + visitsSoFar ds ≤ cap)
    (hf : visitsSoFar ds < fuel) (hans : s.ports.answers = List.replicate k .accept ++ more)
    (hk : k < (s.writer.cnt.val + (headerSoFar ds).length) / 8) : StopsAtSink s (headerSoFar ds) k more (ser fuel i v s) := by
  induction ds generalizing i s v fuel k with
  | nil =>
    have := s.writer.cnt.isLt
    simp only [headerSoFar, List.length_nil] at hk
    omega
  | cons d ds ih =>
    obtain ⟨hi, l, r, hr, hd⟩ := hc
    subst hcap hm
    obtain ⟨f, rfl⟩ : ∃ f, fuel = f + 1 := ⟨fuel - 1, by omega⟩
    cases d with
    | left =>
      simp only [visitsSoFar] at hv hf
      rw [show headerSoFar (.left :: ds) = [false] ++ headerSoFar ds from rfl] at hk ⊢
      simp only [ser, visit_eq hi hr (show v < s.cap by omega), Res.ok_bind]
      refine StopsAtSink.seq hans hk (fun h => writeBit_stops hans h) fun h => ?_
      obtain ⟨t, ht, he⟩ := writeBit_emits h
      have ht1 := he.tree_eq
      exact ⟨(), t, ht, he, fun k' ha' hk' => (ih hd ht1.2 ht1.1 (by omega) (by omega) ha' hk').bind _⟩
    | right T =>
      obtain ⟨hT, hd⟩ := hd
      simp only [visitsSoFar] at hv hf
      rw [show headerSoFar (.right T :: ds) = [false] ++ (T.header ++ headerSoFar ds) from rfl] at hk ⊢
      simp only [ser, visit_eq hi hr (show v < s.cap by omega), Res.ok_bind]
      refine StopsAtSink.seq hans hk (fun h => writeBit_stops hans h) fun h => ?_
      obtain ⟨t, ht, he⟩ := writeBit_emits h
      have ht1 := he.tree_eq
      refine ⟨(), t, ht, he, fun k' ha' hk' => ?_⟩
      refine StopsAtSink.seq ha' hk' (fun h => ser_stops T hT ht1.2 ht1.1 (by omega) (by omega) ha' h) fun h => ?_
      obtain ⟨u, hu, hg⟩ := ser_emits T hT (s := t) (v := v + 1) (fuel := f) ht1.2 ht1.1 (by omega) (by omega) h
      have ht2 := hg.tree_eq
      exact ⟨_, u, hu, hg, fun k' ha' hk' => ih hd (ht2.2.trans ht1.2) (ht2.1.trans ht1.1) (by omega) (by omega) ha' hk'⟩

/-! ### A node that is its own left child -/

theorem comesTo_loop {cap : Nat} {m : Memory Node} {i r : Slot} (hi : i.toNat < cap)
    (hr : m.read i.toNat = some (.internal i r)) (n : Nat) : comesTo cap m i (List.replicate n .left) i := by
  induction n with
  | zero => rfl
  | succ n ih => exact ⟨hi, i, r, hr, ih⟩

theorem slotAlong_loop {cap : Nat} {m : Memory Node} {i r : Slot} (hi : i.toNat < cap)
    (hr : m.read i.toNat = some (.internal i r)) (n : Nat) : slotAlong cap m i (List.replicate n false) = some i := by
  induction n with
  | zero => rfl
  | succ n ih => rw [List.replicate_succ, slotAlong_cons hi hr]; exact ih

@[simp] theorem visitsSoFar_lefts (n : Nat) : visitsSoFar (List.replicate n .left) = n := by
  induction n with
  | zero => rfl
  | succ n ih => rw [List.replicate_succ, visitsSoFar, ih, Nat.add_comm]
@[simp] theorem leavesSoFar_lefts (n : Nat) : leavesSoFar (List.replicate n .left) = [] := by
  induction n with
  | zero => rfl
  | succ n ih => rw [List.replicate_succ, leavesSoFar, ih]; rfl
@[simp] theorem headerSoFar_lefts (n : Nat) : headerSoFar (List.replicate n .left) = List.replicate n false := by
  induction n with
  | zero => rfl
  | succ n ih => rw [List.replicate_succ, headerSoFar, ih]; rfl

/-! ### The walk -/

/-- A walk that comes to a bad slot. -/
theorem walk_bad {s : State} {p rest : List Bool} {j : Slot} {k : BadSlot} (hv : s.root.valid = true)
    (hj : slotAlong s.cap s.tree s.root.idx p = some j) (hin : s.inBits = p ++ rest) (hn : p.length ≤ s.cap)
    (hk : k.holds s.cap s.tree j p.length) : ∃ t, walk s = k.res j t ∧ Takes s t p := by
  by_cases hp : p = []
  · subst hp
    obtain rfl : s.root.idx = j := Option.some.inj hj
    refine ⟨s, ?_, takes_refl s⟩
    unfold walk
    rw [requireRoot_ok hv, Res.ok_bind, visit_bad (n := 0) hk, BadSlot.res_bind]
  · obtain ⟨t, f, hkt, -, hw⟩ := walk_along hv hp hj hin hn
    obtain ⟨h1, h2⟩ := hkt.tree_eq
    exact ⟨t, by rw [hw, visit_bad (by rw [h1, h2]; exact hk), BadSlot.res_bind], hkt⟩

end Sys2Proof.Machine
end

