-- ==== Sys2Proof/Laws/Decoding.lean ====
section
/-! SUPPORT. The exact laws of the decoder (43_stream R136, R140): successive walks, and the loop of DECODE_STREAM. -/

namespace Sys2Proof.Machine

/-! ### Successive walks -/

/-- Every walk takes at least one bit (43_stream R136). -/
theorem walksTo_length {s : State} {p : List Bool} {sym : Symbol} (h : s.walksTo p sym) : 1 ≤ p.length := by
  rcases h.2 with ⟨h, -⟩ | ⟨h, -⟩
  · exact List.length_pos_iff.2 h
  · omega

/-- n walks take at least n bits. -/
theorem walksThrough_length {s : State} {syms : List Symbol} {bits rest : List Bool} (h : s.walksThrough syms bits rest) :
    rest.length + syms.length ≤ bits.length := by
  induction syms generalizing bits with
  | nil =>
    have : bits = rest := h
    simp [this]
  | cons sym syms ih =>
    obtain ⟨p, mid, rfl, h1, h2⟩ := h
    have := ih h2
    have := walksTo_length h1
    simp only [List.length_cons, List.length_append]
    omega

theorem walksThrough_append {s : State} {a b : List Symbol} {bits rest : List Bool} (h : s.walksThrough (a ++ b) bits rest) :
    ∃ mid, s.walksThrough a bits mid ∧ s.walksThrough b mid rest := by
  induction a generalizing bits with
  | nil => exact ⟨bits, rfl, h⟩
  | cons sym a ih =>
    obtain ⟨p, m, h0, h1, h2⟩ := h
    obtain ⟨mid, h3, h4⟩ := ih h2
    exact ⟨mid, ⟨p, m, h0, h1, h3⟩, h4⟩

/-- Walks depend on the parameters, ROOT and the tree RAM only. -/
theorem walksThrough_congr {s t : State} {syms : List Symbol} {bits rest : List Bool} (h : s.walksThrough syms bits rest)
    (h1 : t.params = s.params) (h2 : t.root = s.root) (h3 : t.tree = s.tree) : t.walksThrough syms bits rest := by
  induction syms generalizing bits with
  | nil => exact h
  | cons sym syms ih =>
    obtain ⟨p, m, h0, hw, h⟩ := h
    refine ⟨p, m, h0, ?_, ih h⟩
    unfold State.walksTo State.leafAlong State.cap at hw ⊢
    rw [h1, h2, h3]
    exact hw

/-- The bits left bound the bits readable. -/
theorem inBits_le_bitsLeft (s : State) : s.inBits.length ≤ s.bitsLeft := by
  have := leadingBytes_length_le s.ports.offered
  simp only [State.inBits, readableBits, List.length_append, unread_length, streamBits_length, State.bitsLeft]
  omega

/-! ### The loop of DECODE_STREAM -/

/-- From s to t the reader took the bits `used`, as in `Takes`, and the bytes `out` were sent raw, in some interleaving; nothing
else changed. -/
def Yields (s t : State) (used : List Bool) (out : List Byte) : Prop :=
  ∃ r k ops, t = { s with reader := r, ports := s.ports.perform ops } ∧
    ops.filterMap PortOp.token = s.ports.offered.take k ∧ ops.filterMap PortOp.accepted = out ∧
    ops.filterMap PortOp.answered = List.replicate out.length .accept ∧
    k = tokensFor s.reader.cnt.val used.length ∧ k ≤ s.ports.offered.length ∧
    s.inBits = used ++ readableBits r (s.ports.offered.drop k) ∧
    r.cnt.val + used.length = s.reader.cnt.val + 8 * k ∧
    (k = 0 → r.buf = s.reader.buf) ∧ (0 < k → s.ports.offered[k - 1]? = some (.byte r.buf))

theorem yields_refl (s : State) : Yields s s [] [] :=
  ⟨s.reader, 0, [], by simp, by simp, by simp, by simp, by simp [tokensFor], by simp, by simp [State.inBits], by simp,
    fun _ => rfl, by simp⟩

theorem Takes.yields {s t : State} {bits : List Bool} (h : Takes s t bits) : Yields s t bits [] := by
  obtain ⟨r, k, rfl, h⟩ := h
  exact ⟨r, k, _, rfl, by simp, by simp, by simp, h⟩

theorem Yields.trans {s t u : State} {a b : List Bool} {x y : List Byte} (h : Yields s t a x) (g : Yields t u b y) :
    Yields s u (a ++ b) (x ++ y) := by
  obtain ⟨r1, k1, o1, rfl, t1, a1, q1, e1, l1, i1, c1, z1, p1⟩ := h
  obtain ⟨r2, k2, o2, rfl, t2, a2, q2, e2, l2, i2, c2, z2, p2⟩ := g
  have hoff : (s.ports.perform o1).offered = s.ports.offered.drop k1 := by
    simp [Ports.perform, t1, List.length_take, Nat.min_eq_left l1]
  simp only [State.inBits, hoff] at *
  rw [List.length_drop] at l2
  refine ⟨r2, k1 + k2, o1 ++ o2, ?_, ?_, ?_, ?_, ?_, by omega, ?_, ?_, ?_, ?_⟩
  · simp [Ports.perform_append]
  · rw [List.filterMap_append, t1, t2, List.take_add]
  · rw [List.filterMap_append, a1, a2]
  · rw [List.filterMap_append, q1, q2, List.length_append, List.replicate_append_replicate]
  · simp only [tokensFor, List.length_append] at *
    omega
  · unfold State.inBits
    rw [i1, i2, List.append_assoc, List.drop_drop]
  · simp only [List.length_append]; omega
  · intro h0
    rw [z2 (by omega), z1 (by omega)]
  · intro hp
    by_cases hk : k2 = 0
    · subst hk
      rw [z2 rfl]
      exact p1 (by omega)
    · have := p2 (by omega)
      rw [List.getElem?_drop] at this
      rw [← this]
      congr 1
      omega

theorem Yields.inBits {s t : State} {used : List Bool} {out : List Byte} (h : Yields s t used out) :
    s.inBits = used ++ t.inBits := by
  obtain ⟨r, k, ops, rfl, h1, -, -, -, hl, hb, -⟩ := h
  simpa [State.inBits, Ports.perform, h1, List.length_take, Nat.min_eq_left hl] using hb

theorem outByte_yields {s : State} {b : Byte} (h : s.sinkAccepts 1) :
    ∃ t, outByte b s = .ok () t ∧ Yields s t [] [b] := by
  refine ⟨_, outByte_accept h, s.reader, 0, sentAll [b], rfl, by simp, by simp, by simp, by simp [tokensFor], by simp,
    by simp [State.inBits], by simp, fun _ => rfl, by simp⟩

/-- A yield leaves the parameters, ROOT and the tree RAM alone. -/
theorem Yields.tree_eq {s t : State} {used : List Bool} {out : List Byte} (h : Yields s t used out) :
    t.params = s.params ∧ t.root = s.root ∧ t.tree = s.tree := by
  obtain ⟨r, k, ops, rfl, -⟩ := h
  exact ⟨rfl, rfl, rfl⟩

theorem Yields.sinkAccepts {s t : State} {used : List Bool} {out : List Byte} (h : Yields s t used out) {n : Nat}
    (hs : s.sinkAccepts (out.length + n)) : t.sinkAccepts n := by
  obtain ⟨r, k, ops, rfl, -, -, h3, -⟩ := h
  have := sinkAccepts_drop (k := out.length) (t := { s with reader := r, ports := s.ports.perform ops }) hs
    (by simp [Ports.perform, h3])
  simpa using this

theorem byteSymbol_small (b : Byte) : byteSymbol b ≠ eofSymbol ∧ ¬ 255 < (byteSymbol b).toNat ∧
    symbolByte (byteSymbol b) = b := by
  have hb := b.isLt
  have h1 : (byteSymbol b).toNat = b.toNat := by
    unfold byteSymbol
    rw [BitVec.toNat_setWidth, Nat.mod_eq_of_lt (by omega)]
  refine ⟨fun h => ?_, by omega, ?_⟩
  · have := congrArg BitVec.toNat h
    rw [h1] at this
    simp at this
    omega
  · refine BitVec.eq_of_toNat_eq ?_
    unfold symbolByte
    rw [BitVec.extractLsb'_toNat, h1]
    simp
    omega

/-- The loop of DECODE_STREAM over walks that yield bytes (43_stream R140). -/
theorem decodeLoop_bytes (bytes : List Byte) {s : State} {mid : List Bool} {c : Word} {fuel : Nat}
    (hd : s.walksThrough (bytes.map byteSymbol) s.inBits mid) (ha : s.sinkAccepts bytes.length) :
    ∃ t used, decodeLoop (bytes.length + fuel) c s = decodeLoop fuel (c + BitVec.ofNat 32 bytes.length) t ∧
      Yields s t used bytes ∧ t.inBits = mid := by
  induction bytes generalizing s c with
  | nil =>
    have : s.inBits = mid := hd
    exact ⟨s, [], by simp, yields_refl s, this⟩
  | cons b bytes ih =>
    obtain ⟨used, m, hsplit, h1, h2⟩ := hd
    obtain ⟨t, ht, hk⟩ := walk_ends h1 hsplit
    have hy := hk.yields
    obtain ⟨hne, hsm, hbyte⟩ := byteSymbol_small b
    have hta : t.sinkAccepts (1 + bytes.length) :=
      hy.sinkAccepts (n := 1 + bytes.length) (sinkAccepts_mono ha (by simp; omega))
    obtain ⟨u, hu, hyu⟩ := outByte_yields (b := b) (sinkAccepts_mono hta (by omega : 1 ≤ 1 + bytes.length))
    have hall : Yields s u used [b] := by simpa using hy.trans hyu
    have huin : u.inBits = m := by
      have := hall.inBits
      rw [hsplit] at this
      exact (List.append_cancel_left this).symm
    obtain ⟨e1, e2, e3⟩ := hall.tree_eq
    obtain ⟨w, used2, hw, hyw, hwin⟩ := ih (s := u) (c := c + 1#32) (by rw [huin]; exact walksThrough_congr h2 e1 e2 e3)
      (hall.sinkAccepts (n := bytes.length) (sinkAccepts_mono ha (by simp; omega)))
    refine ⟨w, used ++ used2, ?_, by simpa using hall.trans hyw, hwin⟩
    rw [show (b :: bytes).length + fuel = (bytes.length + fuel) + 1 by simp; omega, decodeLoop, ht, Res.ok_bind]
    simp only [hne, if_false, hsm, hbyte, hu, Res.ok_bind, hw]
    congr 1
    rw [List.length_cons, BitVec.ofNat_add, BitVec.add_assoc, BitVec.add_comm (1#32)]

/-- A yield's tokens, when all its bits are known. -/
theorem Yields.ports {s t : State} {used : List Bool} {out : List Byte} (h : Yields s t used out) :
    ∃ ops, t.ports = s.ports.perform ops ∧
      ops.filterMap PortOp.token = s.ports.offered.take (tokensFor s.reader.cnt.val used.length) ∧
      ops.filterMap PortOp.accepted = out ∧ ops.filterMap PortOp.answered = List.replicate out.length .accept := by
  obtain ⟨r, k, ops, rfl, h1, h2, h3, rfl, -⟩ := h
  exact ⟨ops, rfl, h1, h2, h3⟩

/-- Running out after a yield: every readable byte and the token behind them have been consumed. -/
theorem Yields.thenRunsOut {α : Type} {s t : State} {used : List Bool} {out : List Byte} {r : Res α} (h : Yields s t used out)
    (g : RunsOut t r) :
    let n := (leadingBytes s.ports.offered).length
    (s.ports.offered.drop n = [] → ∃ u, r = .held u) ∧
    ∀ (x : Token) (rest : List Token) (e : ErrorKind), s.ports.offered.drop n = x :: rest →
      (x = .endOfStream ∧ e = .truncatedStream) ∨ (x = .error ∧ e = .sourceUnreadable) →
      ∃ u ops, r = .raise e 0#10 u ∧ u.ports = s.ports.perform ops ∧ ops.filterMap PortOp.token = s.ports.offered.take (n + 1) ∧
        ops.filterMap PortOp.accepted = out ∧ ops.filterMap PortOp.answered = List.replicate out.length .accept := by
  obtain ⟨rd, k, ops, rfl, k1, k2, k3, k4, k5, k6, k7, -⟩ := h
  have hoff : (s.ports.perform ops).offered = s.ports.offered.drop k := by simp [Ports.perform, k1, Nat.min_eq_left k5]
  have hkl : k + (leadingBytes (s.ports.offered.drop k)).length = (leadingBytes s.ports.offered).length := by
    have hl := congrArg List.length k6
    simp only [State.inBits, readableBits, List.length_append, unread_length, streamBits_length] at hl
    omega
  unfold RunsOut at g
  simp only [hoff, List.drop_drop, hkl] at g
  have ht : ∀ {p : Ports}, p = (s.ports.perform ops).perform
      (tookAll ((s.ports.offered.drop k).take ((leadingBytes (s.ports.offered.drop k)).length + 1))) →
      ∃ ops', p = s.ports.perform ops' ∧
        ops'.filterMap PortOp.token = s.ports.offered.take ((leadingBytes s.ports.offered).length + 1) ∧
        ops'.filterMap PortOp.accepted = out ∧ ops'.filterMap PortOp.answered = List.replicate out.length .accept := by
    rintro p rfl
    refine ⟨_, Ports.perform_append _ _ _, ?_, by simp [k2], by simp [k3]⟩
    rw [List.filterMap_append, tookAll_tokens, k1, ← List.take_add]
    congr 1
    omega
  refine ⟨fun hd => ?_, fun x rest e hd hx => ?_⟩
  · rw [hd] at g
    exact g
  · rw [hd] at g
    rcases hx with ⟨rfl, rfl⟩ | ⟨rfl, rfl⟩
    · obtain ⟨u, hu, hp⟩ := g
      obtain ⟨ops', h⟩ := ht hp
      exact ⟨u, ops', hu, h⟩
    · obtain ⟨u, hu, hp⟩ := g
      obtain ⟨ops', h⟩ := ht hp
      exact ⟨u, ops', hu, h⟩

/-- DECODE_STREAM after walks that yield bytes: it goes on in a state from which a yield leads. -/
theorem decodeStreamBody_bytes (bytes : List Byte) {s : State} {mid : List Bool}
    (hd : s.walksThrough (bytes.map byteSymbol) s.inBits mid) (ha : s.sinkAccepts bytes.length) :
    ∃ t used f, decodeStreamBody s = (decodeLoop (f + 1) (BitVec.ofNat 32 bytes.length) t).bind (fun c s => .ok () (s.setResult c)) ∧
      Yields (s.setEos false) t used bytes ∧ t.inBits = mid := by
  have hd' : (s.setEos false).walksThrough (bytes.map byteSymbol) s.inBits mid := walksThrough_congr hd rfl rfl rfl
  have hlen := walksThrough_length hd
  have hbl := inBits_le_bitsLeft s
  simp only [List.length_map] at hlen
  obtain ⟨f, hf⟩ : ∃ f, s.bitsLeft + 1 = bytes.length + (f + 1) := ⟨s.bitsLeft - bytes.length, by omega⟩
  obtain ⟨t, used, ht, hy, hti⟩ := decodeLoop_bytes bytes (s := s.setEos false) (c := 0#32) (fuel := f + 1) hd' ha
  refine ⟨t, used, f, ?_, hy, hti⟩
  unfold decodeStreamBody
  rw [hf, ht, BitVec.zero_add]

end Sys2Proof.Machine
end

