-- ==== Sys2Proof/Laws/Extension.lean ====
section
/-! SUPPORT. Where no UNINIT is met, what unwritten tree slots hold makes no difference: the pseudocode on a tree RAM that holds
more ends alike (70_reset R192; entry 8). -/

namespace Sys2Proof.Machine

/-- t is s with a tree RAM that holds everything s's holds, and perhaps more. -/
def Grown (s t : State) : Prop := ∃ m, t = s.setTree m ∧ ∀ i n, s.tree.read i = some n → m.read i = some n

/-- r' ends as r does, in a grown state, unless r meets UNINIT. -/
def Alike {α : Type} : Res α → Res α → Prop
  | .ok a s, r' => ∃ t, r' = .ok a t ∧ Grown s t
  | .raise e i s, r' => ∃ t, r' = .raise e i t ∧ Grown s t
  | .held s, r' => ∃ t, r' = .held t ∧ Grown s t
  | .uninit _ _, _ => True

theorem Alike.bind {α β : Type} {r r' : Res α} {f g : α → State → Res β} (h : Alike r r')
    (hf : ∀ a s t, Grown s t → Alike (f a s) (g a t)) : Alike (r.bind f) (r'.bind g) := by
  cases r with
  | ok a s => obtain ⟨t, rfl, ht⟩ := h; exact hf a s t ht
  | raise e i s => obtain ⟨t, rfl, ht⟩ := h; exact ⟨t, rfl, ht⟩
  | held s => obtain ⟨t, rfl, ht⟩ := h; exact ⟨t, rfl, ht⟩
  | uninit i s => trivial

theorem alike_ok {α : Type} {a : α} {s t : State} (h : Grown s t) : Alike (.ok a s) (.ok a t) := ⟨t, rfl, h⟩
theorem alike_raise {α : Type} {e : ErrorKind} {i : BitVec 10} {s t : State} (h : Grown s t) :
    Alike (.raise e i s : Res α) (.raise e i t) := ⟨t, rfl, h⟩
theorem alike_held {α : Type} {s t : State} (h : Grown s t) : Alike (.held s : Res α) (.held t) := ⟨t, rfl, h⟩

theorem Grown.setPorts {s t : State} (h : Grown s t) (p : Ports) : Grown (s.setPorts p) (t.setPorts p) := by
  obtain ⟨m, rfl, h⟩ := h; exact ⟨m, rfl, h⟩
theorem Grown.setWriter {s t : State} (h : Grown s t) (w : Writer) : Grown (s.setWriter w) (t.setWriter w) := by
  obtain ⟨m, rfl, h⟩ := h; exact ⟨m, rfl, h⟩
theorem Grown.setReader {s t : State} (h : Grown s t) (r : Reader) : Grown (s.setReader r) (t.setReader r) := by
  obtain ⟨m, rfl, h⟩ := h; exact ⟨m, rfl, h⟩
theorem Grown.setRoot {s t : State} (h : Grown s t) (r : Root) : Grown (s.setRoot r) (t.setRoot r) := by
  obtain ⟨m, rfl, h⟩ := h; exact ⟨m, rfl, h⟩
theorem Grown.setNcnt {s t : State} (h : Grown s t) (n : BitVec 11) : Grown (s.setNcnt n) (t.setNcnt n) := by
  obtain ⟨m, rfl, h⟩ := h; exact ⟨m, rfl, h⟩
theorem Grown.setCode {s t : State} (h : Grown s t) (c : Memory CodeEntry) : Grown (s.setCode c) (t.setCode c) := by
  obtain ⟨m, rfl, h⟩ := h; exact ⟨m, rfl, h⟩
theorem Grown.setResult {s t : State} (h : Grown s t) (w : Word) : Grown (s.setResult w) (t.setResult w) := by
  obtain ⟨m, rfl, h⟩ := h; exact ⟨m, rfl, h⟩
theorem Grown.setEos {s t : State} (h : Grown s t) (b : Bool) : Grown (s.setEos b) (t.setEos b) := by
  obtain ⟨m, rfl, h⟩ := h; exact ⟨m, rfl, h⟩

theorem Grown.writeTree {s t : State} (h : Grown s t) (i : Nat) (n : Node) : Grown (s.writeTree i n) (t.writeTree i n) := by
  obtain ⟨m, rfl, h⟩ := h
  refine ⟨m.write i n, rfl, fun j k hj => ?_⟩
  simp only [State.writeTree, State.setTree_tree, Memory.read_write] at hj ⊢
  split
  · rename_i he; simpa [he] using hj
  · rename_i he; rw [if_neg he] at hj; exact h j k hj

/-- The states agree off the tree RAM. -/
theorem Grown.ports {s t : State} (h : Grown s t) : t.ports = s.ports := by obtain ⟨m, rfl, -⟩ := h; rfl
theorem Grown.writer {s t : State} (h : Grown s t) : t.writer = s.writer := by obtain ⟨m, rfl, -⟩ := h; rfl
theorem Grown.reader {s t : State} (h : Grown s t) : t.reader = s.reader := by obtain ⟨m, rfl, -⟩ := h; rfl
theorem Grown.root {s t : State} (h : Grown s t) : t.root = s.root := by obtain ⟨m, rfl, -⟩ := h; rfl
theorem Grown.ncnt {s t : State} (h : Grown s t) : t.ncnt = s.ncnt := by obtain ⟨m, rfl, -⟩ := h; rfl
theorem Grown.code {s t : State} (h : Grown s t) : t.code = s.code := by obtain ⟨m, rfl, -⟩ := h; rfl
theorem Grown.arg {s t : State} (h : Grown s t) : t.arg = s.arg := by obtain ⟨m, rfl, -⟩ := h; rfl
theorem Grown.cap {s t : State} (h : Grown s t) : t.cap = s.cap := by obtain ⟨m, rfl, -⟩ := h; rfl
theorem Grown.validCode {s t : State} (h : Grown s t) (sym : Symbol) : t.validCode sym = s.validCode sym := by
  simp [State.validCode, h.code]

variable {s t : State}

theorem inToken_alike (h : Grown s t) : Alike (inToken s) (inToken t) := by
  unfold inToken
  rw [h.ports]
  split
  · exact alike_held h
  · exact alike_ok (h.setPorts _)

theorem outByte_alike (h : Grown s t) (b : Byte) : Alike (outByte b s) (outByte b t) := by
  unfold outByte
  rw [h.ports]
  split
  · exact alike_held h
  · exact alike_ok (h.setPorts _)
  · exact alike_raise (h.setPorts _)

theorem writeBit_alike (h : Grown s t) (b : Bool) : Alike (writeBit b s) (writeBit b t) := by
  unfold writeBit
  rw [h.writer]
  simp only
  split
  · exact (outByte_alike h _).bind fun _ u v h => alike_ok (h.setWriter _)
  · exact alike_ok (h.setWriter _)

theorem writeBits_alike (n : Nat) (v : Word) (h : Grown s t) : Alike (writeBits n v s) (writeBits n v t) := by
  induction n generalizing s t with
  | zero => exact alike_ok h
  | succ n ih => exact (writeBit_alike h _).bind fun _ u w h => ih h

theorem closeWriter_alike (h : Grown s t) : Alike (closeWriter s) (closeWriter t) := by
  unfold closeWriter
  rw [h.writer]
  split
  · exact alike_ok h
  · exact (outByte_alike h _).bind fun _ u v h => alike_ok (h.setWriter _)

theorem readBit_alike (h : Grown s t) : Alike (readBit s) (readBit t) := by
  refine Alike.bind ?_ fun _ u v h => ?_
  · unfold refill
    rw [h.reader]
    split
    · refine (inToken_alike h).bind fun tok u v h => ?_
      cases tok with
      | byte b => exact alike_ok (h.setReader _)
      | endOfStream => exact alike_raise h
      | error => exact alike_raise h
    · exact alike_ok h
  · obtain ⟨m, rfl, hm⟩ := h
    exact ⟨_, rfl, m, rfl, hm⟩

theorem readBits_alike (n : Nat) (h : Grown s t) : Alike (readBits n s) (readBits n t) := by
  unfold readBits
  generalize 0#32 = acc
  induction n generalizing s t acc with
  | zero => exact alike_ok h
  | succ n ih => exact (readBit_alike h).bind fun _ u v h => ih h _

theorem requireRoot_alike (h : Grown s t) : Alike (requireRoot s) (requireRoot t) := by
  unfold requireRoot
  rw [h.root]
  split
  · exact alike_ok h
  · exact alike_raise h

theorem visit_alike (h : Grown s t) (i : Slot) (v : Nat) : Alike (visit i v s) (visit i v t) := by
  unfold visit
  rw [h.cap]
  split
  · exact alike_raise h
  · split
    · exact alike_raise h
    · refine Alike.bind ?_ fun _ u w h => alike_ok h
      unfold node
      obtain ⟨m, rfl, hm⟩ := id h
      cases hr : s.tree.read i.toNat with
      | none => trivial
      | some n =>
        rw [State.setTree_tree, hm _ _ hr]
        exact alike_ok h

theorem gen_alike (fuel : Nat) (i : Slot) (d p v : Nat) (h : Grown s t) :
    Alike (gen fuel i d p v s) (gen fuel i d p v t) := by
  induction fuel generalizing i d p v s t with
  | zero => exact alike_raise h
  | succ fuel ih =>
    refine (visit_alike h i v).bind fun nv u w h => ?_
    split
    · refine Alike.bind ?_ fun _ u w h => alike_ok h
      unfold enterLeaf
      simp only [h.validCode]
      split
      · exact alike_raise h
      · split
        · exact alike_raise h
        · unfold State.writeCode
          rw [h.code]
          exact alike_ok (h.setCode _)
    · exact (ih _ _ _ _ h).bind fun x u w h => ih _ _ _ _ h

theorem ser_alike (fuel : Nat) (i : Slot) (v : Nat) (h : Grown s t) : Alike (ser fuel i v s) (ser fuel i v t) := by
  induction fuel generalizing i v s t with
  | zero => exact alike_raise h
  | succ fuel ih =>
    refine (visit_alike h i v).bind fun nv u w h => ?_
    split
    · exact (writeBit_alike h _).bind fun _ u w h => (writeBits_alike _ _ h).bind fun _ u w h => alike_ok h
    · exact (writeBit_alike h _).bind fun _ u w h => (ih _ _ h).bind fun x u w h => ih _ _ h

theorem parse_alike (fuel : Nat) (h : Grown s t) : Alike (parse fuel s) (parse fuel t) := by
  induction fuel generalizing s t with
  | zero => exact alike_raise h
  | succ fuel ih =>
    unfold parse
    rw [h.ncnt, h.cap]
    split
    · exact alike_raise h
    · refine (readBit_alike (h.setNcnt _)).bind fun tag u w h => ?_
      split
      · exact (readBits_alike 9 h).bind fun _ u w h => alike_ok (h.writeTree _ _)
      · exact (ih h).bind fun _ u w h => (ih h).bind fun _ u w h => alike_ok (h.writeTree _ _)

theorem encodeSym_alike (sym : Symbol) (h : Grown s t) : Alike (encodeSym sym s) (encodeSym sym t) := by
  unfold encodeSym
  rw [h.validCode]
  split
  · exact alike_raise h
  · exact writeBits_alike _ _ h

theorem walk_alike (h : Grown s t) : Alike (walk s) (walk t) := by
  have hw : ∀ (fuel : Nat) (l r : Slot) (v : Nat) {s t : State}, Grown s t →
      Alike (walkFrom fuel l r v s) (walkFrom fuel l r v t) := by
    intro fuel
    induction fuel with
    | zero => intro _ _ _ s t h; exact alike_held h
    | succ fuel ih =>
      intro l r v s t h
      refine (readBit_alike h).bind fun b u w h => (visit_alike h _ _).bind fun nv u w h => ?_
      split
      · exact alike_ok h
      · exact ih _ _ _ h
  refine (requireRoot_alike h).bind fun _ u w h => ?_
  rw [h.root]
  refine (visit_alike h _ _).bind fun nv u w h => ?_
  split
  · exact (readBit_alike h).bind fun _ u w h => alike_ok h
  · rw [h.cap]
    exact hw _ _ _ _ h

theorem encodeLoop_alike (fuel : Nat) (c : Word) (h : Grown s t) : Alike (encodeLoop fuel c s) (encodeLoop fuel c t) := by
  induction fuel generalizing c s t with
  | zero => exact alike_held h
  | succ fuel ih =>
    refine (inToken_alike h).bind fun tok u w h => ?_
    cases tok with
    | byte b => exact (encodeSym_alike _ h).bind fun _ u w h => ih _ h
    | endOfStream => exact alike_ok h
    | error => exact alike_raise h

theorem decodeLoop_alike (fuel : Nat) (c : Word) (h : Grown s t) : Alike (decodeLoop fuel c s) (decodeLoop fuel c t) := by
  induction fuel generalizing c s t with
  | zero => exact alike_held h
  | succ fuel ih =>
    refine (walk_alike h).bind fun sym u w h => ?_
    split
    · rw [h.reader]
      exact alike_ok ((h.setEos true).setReader _)
    · split
      · exact alike_raise h
      · exact (outByte_alike h _).bind fun _ u w h => ih _ h

/-- Every command. -/
theorem commandBody_alike (i : Instr) (h : Grown s t) : Alike (commandBody i s) (commandBody i t) := by
  cases i with
  | nop => exact alike_ok h
  | writeBits n =>
    change Alike (writeBitsBody n s) (writeBitsBody n t)
    unfold writeBitsBody
    rw [h.arg]
    split
    · exact writeBits_alike _ _ h
    · exact alike_raise h
  | closeWriter => exact closeWriter_alike h
  | readBits n =>
    change Alike (readBitsBody n s) (readBitsBody n t)
    unfold readBitsBody
    split
    · exact (readBits_alike n h).bind fun v u w h => alike_ok (h.setResult _)
    · exact alike_raise h
  | readerAlign =>
    change Alike (readerAlignBody s) (readerAlignBody t)
    unfold readerAlignBody
    rw [h.reader]
    exact alike_ok (h.setReader _)
  | genCodes =>
    refine (requireRoot_alike h).bind fun _ u w h => ?_
    rw [h.cap, h.root, h.code]
    exact (gen_alike _ _ _ _ _ (h.setCode _)).bind fun _ u w h => alike_ok h
  | writeHeader =>
    refine (requireRoot_alike h).bind fun _ u w h => ?_
    rw [h.cap, h.root]
    exact (ser_alike _ _ _ h).bind fun _ u w h => alike_ok h
  | readHeader =>
    change Alike (readHeaderBody s) (readHeaderBody t)
    unfold readHeaderBody
    simp only
    rw [h.cap, h.root]
    exact (parse_alike _ ((h.setNcnt _).setRoot _)).bind fun _ u w h => alike_ok (h.setRoot _)
  | encodeSymbol =>
    change Alike (encodeSymbolBody s) (encodeSymbolBody t)
    unfold encodeSymbolBody
    rw [h.arg]
    exact encodeSym_alike _ h
  | encodeStream =>
    change Alike (encodeStreamBody s) (encodeStreamBody t)
    unfold encodeStreamBody
    rw [h.ports]
    exact (encodeLoop_alike _ _ h).bind fun c u w h => (encodeSym_alike _ h).bind fun _ u w h =>
      (closeWriter_alike h).bind fun _ u w h => alike_ok (h.setResult _)
  | decodeSymbol => exact (walk_alike h).bind fun sym u w h => alike_ok ((h.setResult _).setEos _)
  | decodeStream =>
    change Alike (decodeStreamBody s) (decodeStreamBody t)
    unfold decodeStreamBody
    have hb : t.bitsLeft = s.bitsLeft := by simp [State.bitsLeft, h.reader, h.ports]
    rw [hb]
    exact (decodeLoop_alike _ _ (h.setEos _)).bind fun c u w h => alike_ok (h.setResult _)
  | reset => exact alike_ok h

/-- The filled tree RAM of an abandoned command holds everything written. -/
theorem fillTree_grown {s : State} (h : s.tree.wf s.cap) : Grown s (fillTree s) := by
  refine ⟨_, rfl, fun i n hi => ?_⟩
  have hlt : i < s.cap := by
    by_contra hge
    have : ∀ (m : Memory Node), (∀ c ∈ m, c.1 < s.cap) → m.read i = none := by
      intro m hm
      induction m with
      | nil => rfl
      | cons c m ih =>
        obtain ⟨b, w⟩ := c
        have hb : b < s.cap := hm (b, w) (by simp)
        rw [Memory.read_cons, if_neg (by omega)]
        exact ih fun c hc => hm c (by simp [hc])
    rw [this _ h.2] at hi
    cases hi
  rw [Memory.read_tabulate, if_pos hlt, hi]
  rfl

/-- A command that completes or faults performs the transactions `pendingOps` names. -/
theorem ports_eq_pendingOps {s u : State} {i : Instr} (hw : s.tree.wf s.cap) (hd : decode s.cmd = .ok i)
    (h : (∃ v, commandBody i s = .ok () v ∧ v.ports = u.ports) ∨ ∃ e info v, commandBody i s = .raise e info v ∧ v.ports = u.ports) :
    u.ports = s.ports.perform (pendingOps s) := by
  have hg := fillTree_grown hw
  have ha := commandBody_alike i hg
  have hl := commandBody_law i s
  unfold Res.Ends at hl
  have key : ∃ v, (commandBody i s).state = v ∧ v.ports = u.ports ∧ (commandBody i (fillTree s)).state.ports = u.ports := by
    rcases h with ⟨v, hv, hvu⟩ | ⟨e, info, v, hv, hvu⟩
    · rw [hv] at ha ⊢
      obtain ⟨t, ht, hgt⟩ := ha
      exact ⟨v, rfl, hvu, by rw [ht]; exact hgt.ports.trans hvu⟩
    · rw [hv] at ha ⊢
      obtain ⟨t, ht, hgt⟩ := ha
      exact ⟨v, rfl, hvu, by rw [ht]; exact hgt.ports.trans hvu⟩
  obtain ⟨v, hv, hvu, hf⟩ := key
  rw [hv] at hl
  obtain ⟨ops, ho, -, -⟩ := hl.ports.ports_eq
  have : pendingOps s = ops := by
    unfold pendingOps
    rw [hd]
    simp only
    rw [hf, ← hvu, ho]
    simp [Ports.perform]
  rw [this, ← hvu, ho]

end Sys2Proof.Machine
end

