-- ==== Sys2Proof/Laws/Keeps.lean ====
section
/-! SUPPORT. What each procedure leaves alone, however it ends: whatever is read off the state by a function f that the
procedure's own updates do not change. -/

namespace Sys2Proof.Machine

variable {β : Type}

/-- f is the same in both states. -/
def Keeps (f : State → β) (s t : State) : Prop := f t = f s

theorem keeps_chains (f : State → β) : Chains (Keeps f) where
  refl _ := rfl
  trans _ _ _ h g := Eq.trans g h

/-- f does not see the writer, nor the OUT side of the ports. -/
structure BlindToWriter (f : State → β) : Prop where
  writer : ∀ s w, f (s.setWriter w) = f s
  ports : ∀ (s : State) (l : List Answer) (o : PortOp), o.token = none →
    f (s.setPorts { s.ports with answers := l, log := s.ports.log ++ [o] }) = f s

/-- f does not see the reader, nor the IN side of the ports. -/
structure BlindToReader (f : State → β) : Prop where
  reader : ∀ s r, f (s.setReader r) = f s
  ports : ∀ (s : State) (l : List Token) (t : Token),
    f (s.setPorts { s.ports with offered := l, log := s.ports.log ++ [.took t] }) = f s

theorem outByte_keeps {f : State → β} (h : BlindToWriter f) (b : Byte) (s : State) : (outByte b s).Ends (Keeps f) s := by
  unfold outByte
  split
  · rfl
  · exact h.ports s _ _ rfl
  · exact h.ports s _ _ rfl

theorem inToken_keeps {f : State → β} (h : BlindToReader f) (s : State) : (inToken s).Ends (Keeps f) s := by
  unfold inToken
  split
  · rfl
  · exact h.ports s _ _

theorem writeBit_keeps {f : State → β} (h : BlindToWriter f) (b : Bool) (s : State) : (writeBit b s).Ends (Keeps f) s := by
  unfold writeBit
  simp only
  split
  · exact (outByte_keeps h _ s).bind (keeps_chains f) fun _ t => h.writer t _
  · exact h.writer s _

theorem writeBits_keeps {f : State → β} (h : BlindToWriter f) (n : Nat) (v : Word) (s : State) :
    (writeBits n v s).Ends (Keeps f) s := by
  induction n generalizing s with
  | zero => rfl
  | succ n ih => exact (writeBit_keeps h _ s).bind (keeps_chains f) fun _ t => ih t

theorem closeWriter_keeps {f : State → β} (h : BlindToWriter f) (s : State) : (closeWriter s).Ends (Keeps f) s := by
  unfold closeWriter
  split
  · rfl
  · exact (outByte_keeps h _ s).bind (keeps_chains f) fun _ t => h.writer t _

theorem refill_keeps {f : State → β} (h : BlindToReader f) (s : State) : (refill s).Ends (Keeps f) s := by
  unfold refill
  split
  · refine (inToken_keeps h s).bind (keeps_chains f) fun t u => ?_
    cases t
    · exact h.reader u _
    · rfl
    · rfl
  · rfl

theorem readBit_keeps {f : State → β} (h : BlindToReader f) (s : State) : (readBit s).Ends (Keeps f) s :=
  (refill_keeps h s).bind (keeps_chains f) fun _ t => h.reader t _

theorem readBits_keeps {f : State → β} (h : BlindToReader f) (n : Nat) (s : State) : (readBits n s).Ends (Keeps f) s := by
  unfold readBits
  generalize 0#32 = acc
  induction n generalizing s acc with
  | zero => rfl
  | succ n ih => exact (readBit_keeps h s).bind (keeps_chains f) fun _ t => ih t _

theorem requireRoot_keeps (f : State → β) (s : State) : (requireRoot s).Ends (Keeps f) s := by
  unfold requireRoot
  split <;> rfl

theorem visit_keeps (f : State → β) (i : Slot) (v : Nat) (s : State) : (visit i v s).Ends (Keeps f) s := by
  unfold visit
  split
  · rfl
  · split
    · rfl
    · refine Res.Ends.bind (keeps_chains f) ?_ fun _ t => rfl
      unfold node
      split <;> rfl

theorem gen_keeps {f : State → β} (h : ∀ s m, f (s.setCode m) = f s) (fuel : Nat) (i : Slot) (d p v : Nat) (s : State) :
    (gen fuel i d p v s).Ends (Keeps f) s := by
  induction fuel generalizing i d p v s with
  | zero => rfl
  | succ fuel ih =>
    refine (visit_keeps f i v s).bind (keeps_chains f) fun nv t => ?_
    split
    · refine Res.Ends.bind (keeps_chains f) ?_ fun _ u => rfl
      unfold enterLeaf
      simp only
      split
      · rfl
      · split
        · rfl
        · exact h t _
    · exact (ih _ _ _ _ t).bind (keeps_chains f) fun w u => ih _ _ _ _ u

theorem genCodesBody_keeps {f : State → β} (h : ∀ s m, f (s.setCode m) = f s) (s : State) :
    (genCodesBody s).Ends (Keeps f) s := by
  refine (requireRoot_keeps f s).bind (keeps_chains f) fun _ t => ?_
  refine Res.Ends.bind (s := t) (keeps_chains f) ?_ fun _ u => rfl
  exact Eq.trans (gen_keeps h _ _ _ _ _ _) (h t _)

theorem ser_keeps {f : State → β} (h : BlindToWriter f) (fuel : Nat) (i : Slot) (v : Nat) (s : State) :
    (ser fuel i v s).Ends (Keeps f) s := by
  induction fuel generalizing i v s with
  | zero => rfl
  | succ fuel ih =>
    refine (visit_keeps f i v s).bind (keeps_chains f) fun nv t => ?_
    split
    · exact (writeBit_keeps h _ t).bind (keeps_chains f) fun _ u =>
        (writeBits_keeps h _ _ u).bind (keeps_chains f) fun _ w => rfl
    · exact (writeBit_keeps h _ t).bind (keeps_chains f) fun _ u => (ih _ _ u).bind (keeps_chains f) fun w x => ih _ _ x

theorem writeHeaderBody_keeps {f : State → β} (h : BlindToWriter f) (s : State) : (writeHeaderBody s).Ends (Keeps f) s :=
  (requireRoot_keeps f s).bind (keeps_chains f) fun _ t => (ser_keeps h _ _ _ t).bind (keeps_chains f) fun _ _ => rfl

theorem parse_keeps {f : State → β} (h : BlindToReader f) (hn : ∀ s n, f (s.setNcnt n) = f s) (ht : ∀ s m, f (s.setTree m) = f s)
    (fuel : Nat) (s : State) : (parse fuel s).Ends (Keeps f) s := by
  induction fuel generalizing s with
  | zero => rfl
  | succ fuel ih =>
    unfold parse
    split
    · rfl
    · refine Res.Ends.bind (s := s) (keeps_chains f) ?_ fun tag t => ?_
      · exact Eq.trans (readBit_keeps h _) (hn s _)
      · split
        · exact (readBits_keeps h 9 t).bind (keeps_chains f) fun _ u => ht u _
        · exact (ih t).bind (keeps_chains f) fun _ u => (ih u).bind (keeps_chains f) fun _ w => ht w _

theorem readHeaderBody_keeps {f : State → β} (h : BlindToReader f) (hn : ∀ s n, f (s.setNcnt n) = f s)
    (ht : ∀ s m, f (s.setTree m) = f s) (hr : ∀ s r, f (s.setRoot r) = f s) (s : State) :
    (readHeaderBody s).Ends (Keeps f) s := by
  refine Res.Ends.bind (s := s) (keeps_chains f) ?_ fun _ t => hr t _
  exact Eq.trans (parse_keeps h hn ht _ _) ((hr _ _).trans (hn s _))

theorem encodeSym_keeps {f : State → β} (h : BlindToWriter f) (sym : Symbol) (s : State) :
    (encodeSym sym s).Ends (Keeps f) s := by
  unfold encodeSym
  split
  · rfl
  · exact writeBits_keeps h _ _ s

theorem walk_keeps {f : State → β} (h : BlindToReader f) (s : State) : (walk s).Ends (Keeps f) s := by
  have hw : ∀ (fuel : Nat) (l r : Slot) (v : Nat) (s : State), (walkFrom fuel l r v s).Ends (Keeps f) s := by
    intro fuel
    induction fuel with
    | zero => intros; rfl
    | succ fuel ih =>
      intro l r v s
      refine (readBit_keeps h s).bind (keeps_chains f) fun b t => (visit_keeps f _ _ t).bind (keeps_chains f) fun nv u => ?_
      split
      · rfl
      · exact ih _ _ _ u
  refine (requireRoot_keeps f s).bind (keeps_chains f) fun _ t => (visit_keeps f _ _ t).bind (keeps_chains f) fun nv u => ?_
  split
  · exact (readBit_keeps h u).bind (keeps_chains f) fun _ w => rfl
  · exact hw _ _ _ _ u

theorem encodeLoop_keeps {f : State → β} (h : BlindToWriter f) (hp : ∀ (s : State) (l : List Token) (t : Token),
      f (s.setPorts { s.ports with offered := l, log := s.ports.log ++ [.took t] }) = f s)
    (fuel : Nat) (c : Word) (s : State) : (encodeLoop fuel c s).Ends (Keeps f) s := by
  induction fuel generalizing c s with
  | zero => rfl
  | succ fuel ih =>
    refine Res.Ends.bind (s := s) (keeps_chains f) ?_ fun t u => ?_
    · unfold inToken
      split
      · rfl
      · exact hp s _ _
    · cases t
      · exact (encodeSym_keeps h _ u).bind (keeps_chains f) fun _ w => ih _ w
      · rfl
      · rfl

theorem decodeLoop_keeps {f : State → β} (h : BlindToReader f) (he : ∀ s b, f (s.setEos b) = f s)
    (hp : ∀ (s : State) (l : List Answer) (o : PortOp), o.token = none →
      f (s.setPorts { s.ports with answers := l, log := s.ports.log ++ [o] }) = f s)
    (fuel : Nat) (c : Word) (s : State) : (decodeLoop fuel c s).Ends (Keeps f) s := by
  induction fuel generalizing c s with
  | zero => rfl
  | succ fuel ih =>
    refine (walk_keeps h s).bind (keeps_chains f) fun sym t => ?_
    split
    · exact (h.reader _ _).trans (he t true)
    · split
      · rfl
      · refine Res.Ends.bind (s := t) (keeps_chains f) ?_ fun _ u => ih _ u
        unfold outByte
        split
        · rfl
        · exact hp t _ _ rfl
        · exact hp t _ _ rfl

end Sys2Proof.Machine
end

