-- ==== Sys2Proof/Laws/Fuel.lean ====
section
/-! SUPPORT. The first arguments that bound recursions and loops are never used up: from the bounds the commands give, a larger
one changes nothing (entry 9). -/

namespace Sys2Proof.Machine

theorem Res.bind_eq_of_ok {α β : Type} {r : Res α} {f g : α → State → Res β} (h : ∀ a t, r = .ok a t → f a t = g a t) :
    r.bind f = r.bind g := by
  cases r with
  | ok a t => exact h a t rfl
  | raise e i t => rfl
  | held t => rfl
  | uninit i t => rfl

theorem keeps_of_ok {α β : Type} {f : State → β} {s t : State} {r : Res α} {a : α} (h : r.Ends (Keeps f) s)
    (hr : r = .ok a t) : f t = f s := by
  rw [hr] at h
  exact h

theorem visit_ok {i : Slot} {v : Nat} {s t : State} {nv : Node × Nat} (h : visit i v s = .ok nv t) :
    t = s ∧ nv.2 = v + 1 ∧ v + 1 ≤ s.cap := by
  unfold visit at h
  split at h
  · cases h
  · split at h
    · cases h
    · unfold node at h
      split at h
      · cases h
        exact ⟨rfl, rfl, by omega⟩
      · cases h

theorem visit_full {i : Slot} {v : Nat} {s : State} (h : s.cap ≤ v) : visit i v s = .raise .treeInvalid i s := by
  unfold visit
  split
  · rfl
  · rw [if_pos (by omega)]

theorem gen_visits {fuel : Nat} {i : Slot} {d p v v' : Nat} {s t : State} (h : gen fuel i d p v s = .ok v' t) : v ≤ v' := by
  induction fuel generalizing i d p v v' s t with
  | zero => cases h
  | succ fuel ih =>
    obtain ⟨nv, u, h1, h2⟩ := Res.bind_eq_ok.1 h
    obtain ⟨-, hnv, -⟩ := visit_ok h1
    split at h2
    · obtain ⟨_, w, -, h3⟩ := Res.bind_eq_ok.1 h2
      cases h3
      omega
    · obtain ⟨a, w, h3, h4⟩ := Res.bind_eq_ok.1 h2
      have := ih h3
      have := ih h4
      omega

/-- GEN_CODES's recursion (41_codetable R111). -/
theorem gen_fuel (fuel : Nat) {i : Slot} {d p v : Nat} {s : State} (h : s.cap < fuel + v) :
    gen (fuel + 1) i d p v s = gen fuel i d p v s := by
  induction fuel generalizing i d p v s with
  | zero =>
    have hv := visit_full (i := i) (v := v) (s := s) (by omega)
    simp only [gen, hv, Res.raise_bind]
  | succ fuel ih =>
    rw [gen, gen]
    refine Res.bind_eq_of_ok fun nv t ht => ?_
    obtain ⟨rfl, hnv, -⟩ := visit_ok ht
    split
    · rfl
    · rw [ih (by omega)]
      refine Res.bind_eq_of_ok fun w u hu => ih ?_
      have : u.cap = t.cap := keeps_of_ok (gen_keeps (f := State.cap) (fun _ _ => rfl) _ _ _ _ _ _) hu
      have := gen_visits hu
      omega

theorem ser_visits {fuel : Nat} {i : Slot} {v v' : Nat} {s t : State} (h : ser fuel i v s = .ok v' t) : v ≤ v' := by
  induction fuel generalizing i v v' s t with
  | zero => cases h
  | succ fuel ih =>
    obtain ⟨nv, u, h1, h2⟩ := Res.bind_eq_ok.1 h
    obtain ⟨-, hnv, -⟩ := visit_ok h1
    split at h2
    · obtain ⟨_, w, -, h3⟩ := Res.bind_eq_ok.1 h2
      obtain ⟨_, x, -, h4⟩ := Res.bind_eq_ok.1 h3
      cases h4
      omega
    · obtain ⟨_, w, -, h3⟩ := Res.bind_eq_ok.1 h2
      obtain ⟨a, x, h4, h5⟩ := Res.bind_eq_ok.1 h3
      have := ih h4
      have := ih h5
      omega

theorem cap_blindToWriter : BlindToWriter State.cap := ⟨fun _ _ => rfl, fun _ _ _ _ => rfl⟩
theorem cap_blindToReader : BlindToReader State.cap := ⟨fun _ _ => rfl, fun _ _ _ => rfl⟩

/-- WRITE_HEADER's recursion (42_header R120). -/
theorem ser_fuel (fuel : Nat) {i : Slot} {v : Nat} {s : State} (h : s.cap < fuel + v) :
    ser (fuel + 1) i v s = ser fuel i v s := by
  induction fuel generalizing i v s with
  | zero =>
    have hv := visit_full (i := i) (v := v) (s := s) (by omega)
    simp only [ser, hv, Res.raise_bind]
  | succ fuel ih =>
    rw [ser, ser]
    refine Res.bind_eq_of_ok fun nv t ht => ?_
    obtain ⟨rfl, hnv, -⟩ := visit_ok ht
    split
    · rfl
    · refine Res.bind_eq_of_ok fun _ u hu => ?_
      have : u.cap = t.cap := keeps_of_ok (writeBit_keeps cap_blindToWriter _ _) hu
      rw [ih (by omega)]
      refine Res.bind_eq_of_ok fun w x hx => ih ?_
      have : x.cap = u.cap := keeps_of_ok (ser_keeps cap_blindToWriter _ _ _ _) hx
      have := ser_visits hx
      omega

theorem ncnt_blindToReader : BlindToReader State.ncnt := ⟨fun _ _ => rfl, fun _ _ _ => rfl⟩

/-- A parse allocates, and never past NODE_CAP. -/
theorem parse_ncnt {fuel : Nat} {s t : State} {a : Slot} (h : parse fuel s = .ok a t) (hs : s.ncnt.toNat ≤ s.cap) :
    s.ncnt.toNat ≤ t.ncnt.toNat ∧ t.ncnt.toNat ≤ t.cap ∧ t.cap = s.cap := by
  induction fuel generalizing s t a with
  | zero => cases h
  | succ fuel ih =>
    have hcap := s.cap_le
    unfold parse at h
    split at h
    · cases h
    · rename_i hne
      obtain ⟨tag, u, h1, h2⟩ := Res.bind_eq_ok.1 h
      have hun : u.ncnt = s.ncnt + 1#11 := keeps_of_ok (readBit_keeps ncnt_blindToReader (s.setNcnt (s.ncnt + 1#11))) h1
      have huc : u.cap = s.cap := keeps_of_ok (readBit_keeps cap_blindToReader (s.setNcnt (s.ncnt + 1#11))) h1
      have hun' : u.ncnt.toNat = s.ncnt.toNat + 1 := by
        rw [hun]
        simp
        omega
      split at h2
      · obtain ⟨sym, w, h3, h4⟩ := Res.bind_eq_ok.1 h2
        have hwn : w.ncnt = u.ncnt := keeps_of_ok (readBits_keeps ncnt_blindToReader _ _) h3
        have hwc : w.cap = u.cap := keeps_of_ok (readBits_keeps cap_blindToReader _ _) h3
        cases h4
        change _ ≤ w.ncnt.toNat ∧ w.ncnt.toNat ≤ w.cap ∧ w.cap = s.cap
        rw [hwn]
        omega
      · obtain ⟨l, w, h3, h4⟩ := Res.bind_eq_ok.1 h2
        obtain ⟨r, x, h5, h6⟩ := Res.bind_eq_ok.1 h4
        have := ih h3 (by omega)
        have := ih h5 (by omega)
        cases h6
        change _ ≤ x.ncnt.toNat ∧ x.ncnt.toNat ≤ x.cap ∧ x.cap = s.cap
        omega

/-- READ_HEADER's recursion (42_header R121). -/
theorem parse_fuel (fuel : Nat) {s : State} (hs : s.ncnt.toNat ≤ s.cap) (h : s.cap ≤ fuel + s.ncnt.toNat) :
    parse (fuel + 1) s = parse fuel s := by
  induction fuel generalizing s with
  | zero =>
    have he : s.ncnt.toNat = s.cap := by omega
    simp only [parse, he, if_true]
  | succ fuel ih =>
    have hcap := s.cap_le
    rw [parse, parse]
    split
    · rfl
    · rename_i hne
      refine Res.bind_eq_of_ok fun tag u h1 => ?_
      have hun : u.ncnt = s.ncnt + 1#11 := keeps_of_ok (readBit_keeps ncnt_blindToReader (s.setNcnt (s.ncnt + 1#11))) h1
      have huc : u.cap = s.cap := keeps_of_ok (readBit_keeps cap_blindToReader (s.setNcnt (s.ncnt + 1#11))) h1
      have hun' : u.ncnt.toNat = s.ncnt.toNat + 1 := by
        rw [hun]
        simp
        omega
      split
      · rfl
      · rw [ih (by omega) (by omega)]
        refine Res.bind_eq_of_ok fun l w h2 => ?_
        have := parse_ncnt h2 (by omega)
        rw [ih (by omega) (by omega)]

/-- The walk's loop (43_stream R136). -/
theorem walkFrom_fuel (fuel : Nat) {l r : Slot} {v : Nat} {s : State} (hv : v ≤ s.cap) (h : s.cap < fuel + v) :
    walkFrom (fuel + 1) l r v s = walkFrom fuel l r v s := by
  induction fuel generalizing l r v s with
  | zero => omega
  | succ fuel ih =>
    rw [walkFrom, walkFrom]
    refine Res.bind_eq_of_ok fun b t ht => Res.bind_eq_of_ok fun nv u hu => ?_
    have : t.cap = s.cap := keeps_of_ok (readBit_keeps cap_blindToReader _) ht
    obtain ⟨rfl, hnv, hle⟩ := visit_ok hu
    split
    · rfl
    · exact ih (by omega) (by omega)

/-- ENCODE_STREAM's loop (43_stream R138). -/
theorem encodeLoop_fuel (fuel : Nat) {c : Word} {s : State} (h : s.ports.offered.length < fuel) :
    encodeLoop (fuel + 1) c s = encodeLoop fuel c s := by
  induction fuel generalizing c s with
  | zero => omega
  | succ fuel ih =>
    rw [encodeLoop, encodeLoop]
    refine Res.bind_eq_of_ok fun t u hu => ?_
    have hlen : u.ports.offered.length + 1 = s.ports.offered.length := by
      unfold inToken at hu
      split at hu
      · cases hu
      · rename_i ho
        cases hu
        simp [ho]
    cases t with
    | byte b =>
      refine Res.bind_eq_of_ok fun _ w hw => ih ?_
      have hk : BlindToWriter fun s : State => s.ports.offered := ⟨fun _ _ => rfl, fun _ _ _ _ => rfl⟩
      have : w.ports.offered = u.ports.offered := keeps_of_ok (encodeSym_keeps hk _ _) hw
      rw [this]
      omega
    | endOfStream => rfl
    | error => rfl

theorem readBit_bitsLeft {s t : State} {b : Bool} (h : readBit s = .ok b t) : t.bitsLeft + 1 = s.bitsLeft := by
  obtain ⟨_, u, h1, h2⟩ := Res.bind_eq_ok.1 h
  have hu : u.bitsLeft = s.bitsLeft ∧ 0 < u.reader.cnt.val := by
    unfold refill at h1
    split at h1
    · rename_i h0
      obtain ⟨tok, w, h3, h4⟩ := Res.bind_eq_ok.1 h1
      unfold inToken at h3
      split at h3
      · cases h3
      · rename_i ho
        cases h3
        cases tok with
        | byte x =>
          cases h4
          simp [State.bitsLeft, ho, h0]
          omega
        | endOfStream => cases h4
        | error => cases h4
    · rename_i h0
      cases h1
      exact ⟨rfl, Nat.pos_of_ne_zero fun he => h0 (Fin.ext he)⟩
  cases h2
  obtain ⟨h3, h4⟩ := hu
  simp only [State.bitsLeft, State.setReader_reader, State.setReader_ports] at h3 ⊢
  omega

/-- Every completed walk uses up a bit. -/
theorem walk_bitsLeft {s t : State} {sym : Symbol} (h : walk s = .ok sym t) : t.bitsLeft < s.bitsLeft := by
  have hw : ∀ (fuel : Nat) {l r : Slot} {v : Nat} {s t : State} {sym : Symbol}, walkFrom fuel l r v s = .ok sym t →
      t.bitsLeft < s.bitsLeft := by
    intro fuel
    induction fuel with
    | zero => intro l r v s t sym h; cases h
    | succ fuel ih =>
      intro l r v s t sym h
      obtain ⟨b, u, h1, h2⟩ := Res.bind_eq_ok.1 h
      obtain ⟨nv, w, h3, h4⟩ := Res.bind_eq_ok.1 h2
      obtain ⟨rfl, -, -⟩ := visit_ok h3
      have := readBit_bitsLeft h1
      split at h4
      · cases h4
        omega
      · have := ih h4
        omega
  obtain ⟨_, u, h1, h2⟩ := Res.bind_eq_ok.1 h
  have hu : u = s := by
    unfold requireRoot at h1
    split at h1
    · cases h1; rfl
    · cases h1
  subst hu
  obtain ⟨nv, w, h3, h4⟩ := Res.bind_eq_ok.1 h2
  obtain ⟨rfl, -, -⟩ := visit_ok h3
  split at h4
  · obtain ⟨b, x, h5, h6⟩ := Res.bind_eq_ok.1 h4
    have := readBit_bitsLeft h5
    cases h6
    omega
  · exact hw _ h4

/-- DECODE_STREAM's loop (43_stream R140). -/
theorem decodeLoop_fuel (fuel : Nat) {c : Word} {s : State} (h : s.bitsLeft < fuel) :
    decodeLoop (fuel + 1) c s = decodeLoop fuel c s := by
  induction fuel generalizing c s with
  | zero => omega
  | succ fuel ih =>
    rw [decodeLoop, decodeLoop]
    refine Res.bind_eq_of_ok fun sym t ht => ?_
    have hlt := walk_bitsLeft ht
    split
    · rfl
    · split
      · rfl
      · refine Res.bind_eq_of_ok fun _ u hu => ih ?_
        have hk : BlindToWriter State.bitsLeft := ⟨fun _ _ => rfl, fun _ _ _ _ => rfl⟩
        have : u.bitsLeft = t.bitsLeft := keeps_of_ok (outByte_keeps hk _ _) hu
        omega

end Sys2Proof.Machine
end

