-- ==== Sys2Proof/Laws/PortErrors.lean ====
section
/-! SUPPORT. How a procedure's port transactions and its error agree (20_memory R52, R53, 40_bitstream R98, 60_exceptions R163,
R169). -/

namespace Sys2Proof.Machine

/-- A transaction after which pseudocode goes on. -/
def Harmless (o : PortOp) : Prop := o ≠ .took .error ∧ ∀ b, o ≠ .sent b .reject

/-- What the transactions `ops` of a piece of pseudocode say of how it ended. -/
def AgreesWith {α : Type} (ops : List PortOp) : Res α → Prop
  | .raise .sinkUnwritable _ _ => ∃ l b, ops = l ++ [.sent b .reject] ∧ ∀ o ∈ l, Harmless o
  | .raise .sourceUnreadable _ _ => ∃ l, ops = l ++ [.took .error] ∧ ∀ o ∈ l, Harmless o
  | .raise .truncatedStream _ _ => (∃ l, ops = l ++ [.took .endOfStream]) ∧ ∀ o ∈ ops, Harmless o
  | _ => ∀ o ∈ ops, Harmless o

/-- A piece of pseudocode, begun in s, performed lawful transactions that agree with its end. -/
def Accounts {α : Type} (s : State) (r : Res α) : Prop :=
  ∃ ops, r.state.ports.log = s.ports.log ++ ops ∧
    s.ports.offered = ops.filterMap PortOp.token ++ r.state.ports.offered ∧
    s.ports.answers = ops.filterMap PortOp.answered ++ r.state.ports.answers ∧ AgreesWith ops r

/-- Errors that no port transaction causes. -/
def ErrorKind.ofPorts : ErrorKind → Bool
  | .sourceUnreadable => true
  | .sinkUnwritable => true
  | .truncatedStream => true
  | .badCommand => false
  | .badLength => false
  | .noCode => false
  | .treeInvalid => false
  | .codeTooLong => false
  | .treeOverflow => false
  | .badSymbol => false

theorem accounts_ok {α : Type} {s t : State} {a : α} (h : t.ports = s.ports) : Accounts s (.ok a t) :=
  ⟨[], by simp [Res.state, h, AgreesWith]⟩

theorem accounts_held {α : Type} (s : State) : Accounts s (.held s : Res α) := ⟨[], by simp [Res.state, AgreesWith]⟩

theorem accounts_uninit {α : Type} (s : State) (i : Slot) : Accounts s (.uninit i s : Res α) :=
  ⟨[], by simp [Res.state, AgreesWith]⟩

theorem accounts_raise {α : Type} {e : ErrorKind} (he : e.ofPorts = false) (i : BitVec 10) (s : State) :
    Accounts s (.raise e i s : Res α) := by
  refine ⟨[], by simp [Res.state], by simp [Res.state], by simp [Res.state], ?_⟩
  cases e <;> simp [AgreesWith, ErrorKind.ofPorts] at he ⊢

theorem AgreesWith.prepend {β : Type} {l ops : List PortOp} (h : ∀ o ∈ l, Harmless o) {r : Res β} (g : AgreesWith ops r) :
    AgreesWith (l ++ ops) r := by
  have hall : (∀ o ∈ ops, Harmless o) → ∀ o ∈ l ++ ops, Harmless o := fun g o ho => by
    rcases List.mem_append.1 ho with ho | ho
    · exact h o ho
    · exact g o ho
  cases r with
  | raise e i t =>
    cases e with
    | sinkUnwritable =>
      obtain ⟨l', b, rfl, g⟩ := g
      refine ⟨l ++ l', b, by simp, fun o ho => ?_⟩
      rcases List.mem_append.1 ho with ho | ho
      · exact h o ho
      · exact g o ho
    | sourceUnreadable =>
      obtain ⟨l', rfl, g⟩ := g
      refine ⟨l ++ l', by simp, fun o ho => ?_⟩
      rcases List.mem_append.1 ho with ho | ho
      · exact h o ho
      · exact g o ho
    | truncatedStream =>
      obtain ⟨⟨l', rfl⟩, g⟩ := g
      exact ⟨⟨l ++ l', by simp⟩, hall g⟩
    | badCommand => exact hall g
    | badLength => exact hall g
    | noCode => exact hall g
    | treeInvalid => exact hall g
    | codeTooLong => exact hall g
    | treeOverflow => exact hall g
    | badSymbol => exact hall g
  | ok a t => exact hall g
  | held t => exact hall g
  | uninit i t => exact hall g

theorem Accounts.bind {α β : Type} {s : State} {r : Res α} {f : α → State → Res β} (h : Accounts s r)
    (hf : ∀ a t, r = .ok a t → Accounts t (f a t)) : Accounts s (r.bind f) := by
  obtain ⟨ops, h1, h2, h3, h4⟩ := h
  cases r with
  | ok a t =>
    obtain ⟨ops', g1, g2, g3, g4⟩ := hf a t rfl
    simp only [Res.state] at h1 h2 h3
    exact ⟨ops ++ ops', by simp [g1, h1], by simp [h2, g2], by simp [h3, g3], AgreesWith.prepend h4 g4⟩
  | raise e i t => exact ⟨ops, h1, h2, h3, by cases e <;> exact h4⟩
  | held t => exact ⟨ops, h1, h2, h3, h4⟩
  | uninit i t => exact ⟨ops, h1, h2, h3, h4⟩

/-- Accounts look at the ports only. -/
theorem Accounts.congr {α : Type} {s t : State} {r : Res α} (h : Accounts s r) (hp : s.ports = t.ports) : Accounts t r := by
  unfold Accounts at h ⊢
  rw [← hp]
  exact h

theorem outByte_accounts (b : Byte) (s : State) : Accounts s (outByte b s) := by
  unfold outByte
  split
  · exact accounts_held s
  · rename_i rest h
    exact ⟨[.sent b .accept], by simp [Res.state, PortOp.token, PortOp.answered, h, AgreesWith, Harmless]⟩
  · rename_i rest h
    refine ⟨[.sent b .reject], by simp [Res.state], by simp [Res.state, PortOp.token],
      by simp [Res.state, PortOp.answered, h], [], b, rfl, by simp⟩

theorem writeBit_accounts (b : Bool) (s : State) : Accounts s (writeBit b s) := by
  unfold writeBit
  simp only
  split
  · exact (outByte_accounts _ s).bind fun _ _ _ => accounts_ok rfl
  · exact accounts_ok rfl

theorem writeBits_accounts (n : Nat) (v : Word) (s : State) : Accounts s (writeBits n v s) := by
  induction n generalizing s with
  | zero => exact accounts_ok rfl
  | succ n ih => exact (writeBit_accounts _ s).bind fun _ t _ => ih t

theorem closeWriter_accounts (s : State) : Accounts s (closeWriter s) := by
  unfold closeWriter
  split
  · exact accounts_ok rfl
  · exact (outByte_accounts _ s).bind fun _ t _ => accounts_ok rfl

theorem refill_accounts (s : State) : Accounts s (refill s) := by
  unfold refill
  split
  · unfold inToken
    split
    · exact accounts_held s
    · rename_i t rest h
      cases t with
      | byte b =>
        exact ⟨[.took (.byte b)], by simp [Res.state, Res.bind, PortOp.token, PortOp.answered, h, AgreesWith, Harmless]⟩
      | endOfStream =>
        refine ⟨[.took .endOfStream], by simp [Res.state, Res.bind], by simp [Res.state, Res.bind, PortOp.token, h],
          by simp [Res.state, Res.bind, PortOp.answered], ⟨[], rfl⟩, by simp [Harmless]⟩
      | error =>
        refine ⟨[.took .error], by simp [Res.state, Res.bind], by simp [Res.state, Res.bind, PortOp.token, h],
          by simp [Res.state, Res.bind, PortOp.answered], [], rfl, by simp⟩
  · exact accounts_ok rfl

theorem readBit_accounts (s : State) : Accounts s (readBit s) :=
  (refill_accounts s).bind fun _ _ _ => accounts_ok rfl

theorem readBits_accounts (n : Nat) (s : State) : Accounts s (readBits n s) := by
  unfold readBits
  generalize 0#32 = acc
  induction n generalizing s acc with
  | zero => exact accounts_ok rfl
  | succ n ih => exact (readBit_accounts s).bind fun _ t _ => ih t _

theorem requireRoot_accounts (s : State) : Accounts s (requireRoot s) := by
  unfold requireRoot
  split
  · exact accounts_ok rfl
  · exact accounts_raise rfl _ s

theorem visit_accounts (i : Slot) (v : Nat) (s : State) : Accounts s (visit i v s) := by
  unfold visit
  split
  · exact accounts_raise rfl _ s
  · split
    · exact accounts_raise rfl _ s
    · refine Accounts.bind ?_ fun _ t _ => accounts_ok rfl
      unfold node
      split
      · exact accounts_ok rfl
      · exact accounts_uninit s i

theorem gen_accounts (fuel : Nat) (i : Slot) (d p v : Nat) (s : State) : Accounts s (gen fuel i d p v s) := by
  induction fuel generalizing i d p v s with
  | zero => exact accounts_raise rfl _ s
  | succ fuel ih =>
    refine (visit_accounts i v s).bind fun nv t _ => ?_
    split
    · refine Accounts.bind ?_ fun _ u _ => accounts_ok rfl
      unfold enterLeaf
      simp only
      split
      · exact accounts_raise rfl _ t
      · split
        · exact accounts_raise rfl _ t
        · exact accounts_ok rfl
    · exact (ih _ _ _ _ t).bind fun w u _ => ih _ _ _ _ u

theorem ser_accounts (fuel : Nat) (i : Slot) (v : Nat) (s : State) : Accounts s (ser fuel i v s) := by
  induction fuel generalizing i v s with
  | zero => exact accounts_raise rfl _ s
  | succ fuel ih =>
    refine (visit_accounts i v s).bind fun nv t _ => ?_
    split
    · exact (writeBit_accounts _ t).bind fun _ u _ => (writeBits_accounts _ _ u).bind fun _ w _ => accounts_ok rfl
    · exact (writeBit_accounts _ t).bind fun _ u _ => (ih _ _ u).bind fun w x _ => ih _ _ x

theorem parse_accounts (fuel : Nat) (s : State) : Accounts s (parse fuel s) := by
  induction fuel generalizing s with
  | zero => exact accounts_raise rfl _ s
  | succ fuel ih =>
    unfold parse
    split
    · exact accounts_raise rfl _ s
    · refine Accounts.bind ((readBit_accounts (s.setNcnt (s.ncnt + 1#11))).congr rfl) fun tag t _ => ?_
      split
      · exact (readBits_accounts 9 t).bind fun _ u _ => accounts_ok rfl
      · exact (ih t).bind fun _ u _ => (ih u).bind fun _ w _ => accounts_ok rfl

theorem encodeSym_accounts (sym : Symbol) (s : State) : Accounts s (encodeSym sym s) := by
  unfold encodeSym
  split
  · exact accounts_raise rfl _ s
  · exact writeBits_accounts _ _ s

theorem walk_accounts (s : State) : Accounts s (walk s) := by
  have hw : ∀ (fuel : Nat) (l r : Slot) (v : Nat) (s : State), Accounts s (walkFrom fuel l r v s) := by
    intro fuel
    induction fuel with
    | zero => intro _ _ _ s; exact accounts_held s
    | succ fuel ih =>
      intro l r v s
      refine (readBit_accounts s).bind fun b t _ => (visit_accounts _ _ t).bind fun nv u _ => ?_
      split
      · exact accounts_ok rfl
      · exact ih _ _ _ u
  refine (requireRoot_accounts s).bind fun _ t _ => (visit_accounts _ _ t).bind fun nv u _ => ?_
  split
  · exact (readBit_accounts u).bind fun _ w _ => accounts_ok rfl
  · exact hw _ _ _ _ u

theorem encodeLoop_accounts (fuel : Nat) (c : Word) (s : State) : Accounts s (encodeLoop fuel c s) := by
  induction fuel generalizing c s with
  | zero => exact accounts_held s
  | succ fuel ih =>
    unfold encodeLoop inToken
    split
    · exact accounts_held s
    · rename_i t rest h
      cases t with
      | byte b =>
        refine Accounts.bind (f := fun t s => _) ?_ fun t u _ => ?_
        · exact ⟨[.took (.byte b)], by simp [Res.state, PortOp.token, PortOp.answered, h, AgreesWith, Harmless]⟩
        · cases t with
          | byte b => exact (encodeSym_accounts _ u).bind fun _ w _ => ih _ w
          | endOfStream => exact accounts_ok rfl
          | error => rename_i he; simp at he
      | endOfStream =>
        exact ⟨[.took .endOfStream], by simp [Res.state, Res.bind, PortOp.token, PortOp.answered, h, AgreesWith, Harmless]⟩
      | error =>
        exact ⟨[.took .error], by simp [Res.state, Res.bind], by simp [Res.state, Res.bind, PortOp.token, h],
          by simp [Res.state, Res.bind, PortOp.answered], [], rfl, by simp⟩

theorem decodeLoop_accounts (fuel : Nat) (c : Word) (s : State) : Accounts s (decodeLoop fuel c s) := by
  induction fuel generalizing c s with
  | zero => exact accounts_held s
  | succ fuel ih =>
    refine (walk_accounts s).bind fun sym t _ => ?_
    split
    · exact accounts_ok rfl
    · split
      · exact accounts_raise rfl _ t
      · exact (outByte_accounts _ t).bind fun _ u _ => ih _ u

/-- Every command's port transactions agree with how it ends. -/
theorem commandBody_accounts (i : Instr) (s : State) : Accounts s (commandBody i s) := by
  cases i with
  | nop => exact accounts_ok rfl
  | writeBits n =>
    change Accounts s (writeBitsBody n s)
    unfold writeBitsBody
    split
    · exact writeBits_accounts _ _ s
    · exact accounts_raise rfl _ s
  | closeWriter => exact closeWriter_accounts s
  | readBits n =>
    change Accounts s (readBitsBody n s)
    unfold readBitsBody
    split
    · exact (readBits_accounts n s).bind fun v t _ => accounts_ok rfl
    · exact accounts_raise rfl _ s
  | readerAlign => exact accounts_ok rfl
  | genCodes =>
    refine (requireRoot_accounts s).bind fun _ t _ => Accounts.bind ?_ fun _ u _ => accounts_ok rfl
    exact (gen_accounts _ _ _ _ _ (t.setCode (clearValid t.code))).congr rfl
  | writeHeader => exact (requireRoot_accounts s).bind fun _ t _ => (ser_accounts _ _ _ t).bind fun _ u _ => accounts_ok rfl
  | readHeader =>
    refine Accounts.bind ?_ fun _ t _ => accounts_ok rfl
    exact (parse_accounts (s.cap + 1) ((s.setNcnt 0#11).setRoot { s.root with valid := false })).congr rfl
  | encodeSymbol => exact encodeSym_accounts _ s
  | encodeStream =>
    exact (encodeLoop_accounts _ _ s).bind fun c t _ => (encodeSym_accounts _ t).bind fun _ u _ =>
      (closeWriter_accounts u).bind fun _ w _ => accounts_ok rfl
  | decodeSymbol => exact (walk_accounts s).bind fun sym t _ => accounts_ok rfl
  | decodeStream =>
    refine Accounts.bind ?_ fun c t _ => accounts_ok rfl
    exact (decodeLoop_accounts _ _ (s.setEos false)).congr rfl
  | reset => exact accounts_ok rfl

/-! ### Which errors the bit-level procedures raise -/

/-- Every error r raises is one of those p says. -/
def RaisesOnly {α : Type} (p : ErrorKind → Prop) (r : Res α) : Prop := ∀ e i t, r = .raise e i t → p e

theorem RaisesOnly.bind {α β : Type} {p : ErrorKind → Prop} {r : Res α} {f : α → State → Res β} (h : RaisesOnly p r)
    (hf : ∀ a t, RaisesOnly p (f a t)) : RaisesOnly p (r.bind f) := by
  cases r with
  | ok a t => exact hf a t
  | raise e i t => intro e' i' t' he; cases he; exact h _ _ _ rfl
  | held t => intro e i t' he; cases he
  | uninit i t => intro e i t' he; cases he

theorem raisesOnly_ok {α : Type} {p : ErrorKind → Prop} (a : α) (s : State) : RaisesOnly p (.ok a s) := by
  intro e i t he; cases he

theorem outByte_raises (b : Byte) (s : State) : RaisesOnly (· = .sinkUnwritable) (outByte b s) := by
  unfold outByte
  intro e i t he
  split at he <;> cases he
  rfl

theorem writeBits_raises (n : Nat) (v : Word) (s : State) : RaisesOnly (· = .sinkUnwritable) (writeBits n v s) := by
  induction n generalizing s with
  | zero => exact raisesOnly_ok _ _
  | succ n ih =>
    refine RaisesOnly.bind ?_ fun _ t => ih t
    unfold writeBit
    simp only
    split
    · exact (outByte_raises _ s).bind fun _ t => raisesOnly_ok _ _
    · exact raisesOnly_ok _ _

theorem readBit_raises (s : State) : RaisesOnly (fun e => e = .truncatedStream ∨ e = .sourceUnreadable) (readBit s) := by
  refine RaisesOnly.bind ?_ fun _ t => raisesOnly_ok _ _
  unfold refill
  split
  · refine RaisesOnly.bind ?_ fun tok t => ?_
    · unfold inToken
      intro e i t he
      split at he <;> cases he
    · cases tok with
      | byte b => exact raisesOnly_ok _ _
      | endOfStream => intro e i t he; cases he; exact .inl rfl
      | error => intro e i t he; cases he; exact .inr rfl
  · exact raisesOnly_ok _ _

theorem readBits_raises (n : Nat) (s : State) :
    RaisesOnly (fun e => e = .truncatedStream ∨ e = .sourceUnreadable) (readBits n s) := by
  unfold readBits
  generalize 0#32 = acc
  induction n generalizing s acc with
  | zero => exact raisesOnly_ok _ _
  | succ n ih => exact (readBit_raises s).bind fun _ t => ih t _

end Sys2Proof.Machine
end

