-- ==== Sys2Proof/Laws/LongerPorts.lean ====
section
/-! SUPPORT. A command with longer ports: where it ended it ends alike, and where it was held its port transactions go on from
those it had performed (70_reset R192, 20_memory R52, R53). -/

namespace Sys2Proof.Machine

/-- s with further tokens offered and further answers of the sink. -/
def State.lengthen (s : State) (x : List Token) (y : List Answer) : State :=
  s.setPorts { offered := s.ports.offered ++ x, answers := s.ports.answers ++ y, log := s.ports.log }

/-- How the end of a piece of pseudocode goes over to longer ports. -/
def GoesOn {α : Type} (x : List Token) (y : List Answer) : Res α → Res α → Prop
  | .ok a s, r' => r' = .ok a (s.lengthen x y)
  | .raise e i s, r' => r' = .raise e i (s.lengthen x y)
  | .uninit i s, r' => r' = .uninit i (s.lengthen x y)
  | .held s, r' => s.ports.log <+: r'.state.ports.log

/-- The piece of pseudocode f performs transactions in order, and goes on with longer ports. -/
structure Extends {α : Type} (f : State → Res α) : Prop where
  log : ∀ s, s.ports.log <+: (f s).state.ports.log
  more : ∀ s x y, GoesOn x y (f s) (f (s.lengthen x y))

/-- Whatever way it ends, the transactions performed stand first. -/
theorem Extends.prefix {α : Type} {f : State → Res α} (h : Extends f) (s : State) (x : List Token) (y : List Answer) :
    (f s).state.ports.log <+: (f (s.lengthen x y)).state.ports.log := by
  have hm := h.more s x y
  cases hf : f s with
  | ok a t => rw [hf] at hm; rw [show f (s.lengthen x y) = _ from hm]; exact List.prefix_rfl
  | raise e i t => rw [hf] at hm; rw [show f (s.lengthen x y) = _ from hm]; exact List.prefix_rfl
  | uninit i t => rw [hf] at hm; rw [show f (s.lengthen x y) = _ from hm]; exact List.prefix_rfl
  | held t => rw [hf] at hm; exact hm

section
variable {α β : Type}

theorem Extends.bind {f : State → Res α} {g : α → State → Res β} (hf : Extends f) (hg : ∀ a, Extends (g a)) :
    Extends fun s => (f s).bind g := by
  refine ⟨fun s => ?_, fun s x y => ?_⟩
  · have h1 := hf.log s
    cases h : f s with
    | ok a t => rw [h] at h1; exact h1.trans ((hg a).log t)
    | raise e i t => rw [h] at h1; exact h1
    | held t => rw [h] at h1; exact h1
    | uninit i t => rw [h] at h1; exact h1
  · have h1 := hf.more s x y
    cases h : f s with
    | ok a t => rw [h] at h1; simp only [show f (s.lengthen x y) = _ from h1]; exact (hg a).more t x y
    | raise e i t => rw [h] at h1; simp only [show f (s.lengthen x y) = _ from h1]; rfl
    | uninit i t => rw [h] at h1; simp only [show f (s.lengthen x y) = _ from h1]; rfl
    | held t =>
      rw [h] at h1
      change t.ports.log <+: ((f (s.lengthen x y)).bind g).state.ports.log
      replace h1 : t.ports.log <+: (f (s.lengthen x y)).state.ports.log := h1
      cases h2 : f (s.lengthen x y) with
      | ok a u => rw [h2] at h1; exact h1.trans ((hg a).log u)
      | raise e i u => rw [h2] at h1; exact h1
      | held u => rw [h2] at h1; exact h1
      | uninit i u => rw [h2] at h1; exact h1

/-- Pseudocode that looks at something no port shows. -/
theorem Extends.reads {κ : Type} (key : State → κ) {F : κ → State → Res α} (hk : ∀ s p, key (s.setPorts p) = key s)
    (h : ∀ c, Extends (F c)) : Extends fun s => F (key s) s := by
  refine ⟨fun s => (h _).log s, fun s x y => ?_⟩
  have : key (s.lengthen x y) = key s := hk _ _
  simp only [this]
  exact (h _).more s x y

theorem extends_raise (e : ErrorKind) (i : BitVec 10) : Extends fun s => (.raise e i s : Res α) :=
  ⟨fun _ => List.prefix_rfl, fun _ _ _ => rfl⟩
theorem extends_uninit (i : Slot) : Extends fun s => (.uninit i s : Res α) :=
  ⟨fun _ => List.prefix_rfl, fun _ _ _ => rfl⟩
theorem extends_held : Extends fun s => (.held s : Res α) := ⟨fun _ => List.prefix_rfl, fun _ _ _ => List.prefix_rfl⟩
/-- An update of the block off the ports. -/
theorem extends_ok (a : α) (g : State → State) (hg : ∀ s p, g (s.setPorts p) = (g s).setPorts p) :
    Extends fun s => .ok a (g s) := by
  have hp : ∀ s, (g s).ports = s.ports := fun s => by
    have := congrArg State.ports (hg s s.ports)
    rwa [show s.setPorts s.ports = s from rfl] at this
  refine ⟨fun s => by simp [Res.state, hp], fun s x y => ?_⟩
  change Res.ok a (g (s.lengthen x y)) = _
  unfold State.lengthen
  rw [hg, hp]
theorem Extends.after {f : State → Res α} (h : Extends f) (g : State → State)
    (hg : ∀ s p, g (s.setPorts p) = (g s).setPorts p) : Extends fun s => f (g s) :=
  (extends_ok () g hg).bind fun _ => h
theorem extends_done (a : α) : Extends fun s => .ok a s := extends_ok a id fun _ _ => rfl
theorem Extends.ite {p : Prop} [Decidable p] {f g : State → Res α} (hf : Extends f) (hg : Extends g) :
    Extends fun s => if p then f s else g s := by
  by_cases h : p
  · simpa only [if_pos h] using hf
  · simpa only [if_neg h] using hg

end

theorem inToken_extends : Extends inToken := by
  refine ⟨fun s => ?_, fun s x y => ?_⟩
  · unfold inToken
    split
    · exact List.prefix_rfl
    · exact ⟨_, rfl⟩
  · cases h : s.ports.offered with
    | nil =>
      have h1 : inToken s = .held s := by simp [inToken, h]
      rw [h1]
      unfold inToken
      split
      · exact List.prefix_rfl
      · exact ⟨_, rfl⟩
    | cons t rest =>
      simp only [inToken, State.lengthen, State.setPorts_ports, h, List.cons_append]
      rfl

theorem outByte_extends (b : Byte) : Extends (outByte b) := by
  refine ⟨fun s => ?_, fun s x y => ?_⟩
  · unfold outByte
    split
    · exact List.prefix_rfl
    · exact ⟨_, rfl⟩
    · exact ⟨_, rfl⟩
  · cases h : s.ports.answers with
    | nil =>
      have h1 : outByte b s = .held s := by simp [outByte, h]
      rw [h1]
      unfold outByte
      split
      · exact List.prefix_rfl
      · exact ⟨_, rfl⟩
      · exact ⟨_, rfl⟩
    | cons a rest =>
      cases a <;> simp only [outByte, State.lengthen, State.setPorts_ports, h, List.cons_append] <;> rfl

theorem writeBit_extends (b : Bool) : Extends (writeBit b) :=
  Extends.reads State.writer (F := fun w s =>
    if w.cnt = 7 then (outByte (setByteBit w.buf (7 - w.cnt.val) b) s).bind fun _ s => .ok () (s.setWriter { buf := 0#8, cnt := 0 })
    else .ok () (s.setWriter { buf := setByteBit w.buf (7 - w.cnt.val) b, cnt := w.cnt + 1 })) (fun _ _ => rfl) fun _ =>
    ((outByte_extends _).bind fun _ => extends_ok () _ fun _ _ => rfl).ite (extends_ok () _ fun _ _ => rfl)

theorem writeBits_extends (n : Nat) (v : Word) : Extends (writeBits n v) := by
  induction n with
  | zero => exact extends_done ()
  | succ n ih => exact (writeBit_extends _).bind fun _ => ih

theorem closeWriter_extends : Extends closeWriter :=
  Extends.reads State.writer (F := fun w s =>
    if w.cnt = 0 then .ok () s else (outByte w.buf s).bind fun _ s => .ok () (s.setWriter { buf := 0#8, cnt := 0 }))
    (fun _ _ => rfl) fun _ => (extends_done ()).ite ((outByte_extends _).bind fun _ => extends_ok () _ fun _ _ => rfl)

theorem readBit_extends : Extends readBit := by
  refine Extends.bind (f := refill) ?_ fun _ => ?_
  · refine Extends.reads State.reader (F := fun r s =>
      if r.cnt = 0 then (inToken s).bind fun t s =>
        match t with
        | .byte b => .ok () (s.setReader { buf := b, cnt := 8 })
        | .endOfStream => .raise .truncatedStream 0#10 s
        | .error => .raise .sourceUnreadable 0#10 s
      else .ok () s) (fun _ _ => rfl) fun _ => (inToken_extends.bind fun t => ?_).ite (extends_done ())
    cases t
    · exact extends_ok () _ fun _ _ => rfl
    · exact extends_raise _ _
    · exact extends_raise _ _
  · exact Extends.reads State.reader (F := fun r s => .ok (r.buf.getLsbD (r.cnt.val - 1))
      (s.setReader { r with cnt := ⟨r.cnt.val - 1, by omega⟩ })) (fun _ _ => rfl) fun _ => extends_ok _ _ fun _ _ => rfl

theorem readBits_extends (n : Nat) : Extends (readBits n) := by
  unfold readBits
  generalize 0#32 = acc
  induction n generalizing acc with
  | zero => exact extends_done acc
  | succ n ih => exact readBit_extends.bind fun _ => ih _

theorem requireRoot_extends : Extends requireRoot :=
  Extends.reads State.root (F := fun r s => if r.valid then .ok () s else .raise .treeInvalid r.idx s) (fun _ _ => rfl)
    fun _ => (extends_done ()).ite (extends_raise _ _)

theorem visit_extends (i : Slot) (v : Nat) : Extends (visit i v) := by
  have hn : Extends (node i) := by
    refine Extends.reads (fun s => s.tree.read i.toNat) (F := fun n s =>
      match n with
      | some n => .ok n s
      | none => .uninit i s) (fun _ _ => rfl) fun n => ?_
    cases n
    · exact extends_uninit i
    · exact extends_done _
  exact Extends.reads State.cap (F := fun c s =>
    if c ≤ i.toNat then .raise .treeInvalid i s else if c < v + 1 then .raise .treeInvalid i s
    else (node i s).bind fun n s => .ok (n, v + 1) s) (fun _ _ => rfl) fun _ =>
    (extends_raise _ _).ite ((extends_raise _ _).ite (hn.bind fun _ => extends_done _))

theorem gen_extends (fuel : Nat) (i : Slot) (d p v : Nat) : Extends (gen fuel i d p v) := by
  induction fuel generalizing i d p v with
  | zero => exact extends_raise _ _
  | succ fuel ih =>
    refine (visit_extends i v).bind fun nv => ?_
    split
    · rename_i sym _
      refine Extends.bind (f := enterLeaf i sym d p) ?_ fun _ => extends_done _
      refine Extends.reads (fun s => s.validCode sym) (F := fun e s =>
        if maxLen < (leafCode d p).1 then .raise .codeTooLong (sym.setWidth 10) s
        else match e with
          | some _ => .raise .treeInvalid i s
          | none => .ok () (s.writeCode sym
              { valid := true, len := BitVec.ofNat 6 (leafCode d p).1, pat := BitVec.ofNat 32 (leafCode d p).2 }))
        (fun _ _ => rfl) fun e => (extends_raise _ _).ite ?_
      cases e
      · exact extends_ok () _ fun _ _ => rfl
      · exact extends_raise _ _
    · exact (ih _ _ _ _).bind fun _ => ih _ _ _ _

theorem ser_extends (fuel : Nat) (i : Slot) (v : Nat) : Extends (ser fuel i v) := by
  induction fuel generalizing i v with
  | zero => exact extends_raise _ _
  | succ fuel ih =>
    refine (visit_extends i v).bind fun nv => ?_
    split
    · exact (writeBit_extends _).bind fun _ => (writeBits_extends _ _).bind fun _ => extends_done _
    · exact (writeBit_extends _).bind fun _ => (ih _ _).bind fun _ => ih _ _

theorem parse_extends (fuel : Nat) : Extends (parse fuel) := by
  induction fuel with
  | zero => exact extends_raise _ _
  | succ fuel ih =>
    refine Extends.reads (fun s => (s.ncnt, s.cap)) (F := fun c s =>
      if c.1.toNat = c.2 then .raise .treeOverflow 0#10 s
      else (readBit (s.setNcnt (c.1 + 1#11))).bind fun tag s =>
        if tag then (readBits 9 s).bind fun sym s =>
          .ok (c.1.setWidth 10) (s.writeTree (c.1.setWidth 10 : Slot).toNat (.leaf (sym.extractLsb' 0 9)))
        else (parse fuel s).bind fun l s => (parse fuel s).bind fun r s =>
          .ok (c.1.setWidth 10) (s.writeTree (c.1.setWidth 10 : Slot).toNat (.internal l r)))
      (fun _ _ => rfl) fun c => (extends_raise _ _).ite ?_
    refine Extends.bind (f := fun s => readBit (s.setNcnt (c.1 + 1#11))) ?_ fun tag => ?_
    · exact readBit_extends.after (fun s => s.setNcnt (c.1 + 1#11)) fun _ _ => rfl
    · refine Extends.ite ((readBits_extends 9).bind fun _ => extends_ok _ _ fun _ _ => rfl) ?_
      exact ih.bind fun _ => ih.bind fun _ => extends_ok _ _ fun _ _ => rfl

theorem encodeSym_extends (sym : Symbol) : Extends (encodeSym sym) := by
  refine Extends.reads (fun s => s.validCode sym) (F := fun e s =>
    match e with
    | none => .raise .noCode (sym.setWidth 10) s
    | some e => writeBits e.len.toNat e.pat s) (fun _ _ => rfl) fun e => ?_
  cases e
  · exact extends_raise _ _
  · exact writeBits_extends _ _

theorem walk_extends : Extends walk := by
  have hw : ∀ (fuel : Nat) (l r : Slot) (v : Nat), Extends (walkFrom fuel l r v) := by
    intro fuel
    induction fuel with
    | zero => intros; exact extends_held
    | succ fuel ih =>
      intro l r v
      refine readBit_extends.bind fun b => (visit_extends _ _).bind fun nv => ?_
      split
      · exact extends_done _
      · exact ih _ _ _
  refine requireRoot_extends.bind fun _ => Extends.reads (fun s => (s.root.idx, s.cap)) (F := fun c s =>
    (visit c.1 0 s).bind fun nv s =>
      match nv.1 with
      | .leaf sym => (readBit s).bind fun _ s => .ok sym s
      | .internal l r => walkFrom (s.cap + 1) l r nv.2 s) (fun _ _ => rfl) fun c => (visit_extends _ _).bind fun nv => ?_
  split
  · exact readBit_extends.bind fun _ => extends_done _
  · exact Extends.reads State.cap (F := fun n s => walkFrom (n + 1) _ _ nv.2 s) (fun _ _ => rfl) fun _ => hw _ _ _ _

theorem encodeLoop_extends (fuel : Nat) (c : Word) : Extends (encodeLoop fuel c) := by
  induction fuel generalizing c with
  | zero => exact extends_held
  | succ fuel ih =>
    refine inToken_extends.bind fun t => ?_
    cases t
    · exact (encodeSym_extends _).bind fun _ => ih _
    · exact extends_done c
    · exact extends_raise _ _

theorem decodeLoop_extends (fuel : Nat) (c : Word) : Extends (decodeLoop fuel c) := by
  induction fuel generalizing c with
  | zero => exact extends_held
  | succ fuel ih =>
    refine walk_extends.bind fun sym => ?_
    refine Extends.ite ?_ (Extends.ite (extends_raise _ _) ((outByte_extends _).bind fun _ => ih _))
    exact Extends.reads State.reader (F := fun r s => .ok c ((s.setEos true).setReader { r with cnt := 0 })) (fun _ _ => rfl)
      fun _ => extends_ok _ _ fun _ _ => rfl

/-- A piece of pseudocode whose bound depends on the ports: any bound that is large enough gives the same. -/
theorem Extends.bounded {α : Type} {F : Nat → State → Res α} {size : State → Nat} (h : ∀ n, Extends (F n))
    (hF : ∀ s n, size s < n → F (n + 1) s = F n s) : Extends fun s => F (size s + 1) s := by
  have hadd : ∀ s k, F (size s + 1 + k) s = F (size s + 1) s := by
    intro s k
    induction k with
    | zero => rfl
    | succ k ih => rw [← Nat.add_assoc, hF s _ (by omega), ih]
  refine ⟨fun s => (h _).log s, fun s x y => ?_⟩
  have h1 := (h (size s + 1 + size (s.lengthen x y))).more s x y
  rw [hadd] at h1
  rw [show size s + 1 + size (s.lengthen x y) = size (s.lengthen x y) + 1 + size s by omega, hadd] at h1
  exact h1

/-- Every command. -/
theorem commandBody_extends (i : Instr) : Extends (commandBody i) := by
  cases i with
  | nop => exact extends_done ()
  | writeBits n =>
    exact Extends.reads State.arg (F := fun a s =>
      if lenLegal n then writeBits n (valueOperand a) s else .raise .badLength (BitVec.ofNat 10 n) s) (fun _ _ => rfl)
      fun _ => (writeBits_extends _ _).ite (extends_raise _ _)
  | closeWriter => exact closeWriter_extends
  | readBits n => exact ((readBits_extends n).bind fun _ => extends_ok () _ fun _ _ => rfl).ite (extends_raise _ _)
  | readerAlign =>
    exact Extends.reads State.reader (F := fun r s => .ok () (s.setReader { r with cnt := 0 })) (fun _ _ => rfl)
      fun _ => extends_ok () _ fun _ _ => rfl
  | genCodes =>
    refine requireRoot_extends.bind fun _ => Extends.reads (fun s => (s.cap, s.root.idx, s.code)) (F := fun c s =>
      (gen (c.1 + 1) c.2.1 0 0 0 (s.setCode (clearValid c.2.2))).bind fun _ s => .ok () s) (fun _ _ => rfl) fun c => ?_
    exact ((gen_extends (c.1 + 1) c.2.1 0 0 0).after (fun s => s.setCode (clearValid c.2.2)) fun _ _ => rfl).bind
      fun _ => extends_done ()
  | writeHeader =>
    exact requireRoot_extends.bind fun _ => Extends.reads (fun s => (s.cap, s.root.idx)) (F := fun c s =>
      (ser (c.1 + 1) c.2 0 s).bind fun _ s => .ok () s) (fun _ _ => rfl) fun c =>
      (ser_extends _ _ _).bind fun _ => extends_done ()
  | readHeader =>
    refine Extends.reads (fun s => (s.cap, s.root)) (F := fun c s =>
      (parse (c.1 + 1) ((s.setNcnt 0#11).setRoot { c.2 with valid := false })).bind fun _ s =>
        .ok () (s.setRoot { idx := 0#10, valid := true })) (fun _ _ => rfl) fun c => ?_
    exact ((parse_extends (c.1 + 1)).after (fun s => (s.setNcnt 0#11).setRoot { c.2 with valid := false }) fun _ _ => rfl).bind
      fun _ => extends_ok () (fun s => s.setRoot { idx := 0#10, valid := true }) fun _ _ => rfl
  | encodeSymbol =>
    exact Extends.reads State.arg (F := fun a s => encodeSym (symbolOperand a) s) (fun _ _ => rfl) fun _ => encodeSym_extends _
  | encodeStream =>
    refine Extends.bind (f := fun s => encodeLoop (s.ports.offered.length + 1) 0#32 s) ?_ fun _ =>
      (encodeSym_extends _).bind fun _ => closeWriter_extends.bind fun _ => extends_ok () _ fun _ _ => rfl
    exact Extends.bounded (F := fun n s => encodeLoop n 0#32 s) (fun n => encodeLoop_extends n _)
      fun s n hn => encodeLoop_fuel n hn
  | decodeSymbol => exact walk_extends.bind fun _ => extends_ok () _ fun _ _ => rfl
  | decodeStream =>
    refine Extends.bind (f := fun s => decodeLoop (s.bitsLeft + 1) 0#32 (s.setEos false)) ?_ fun _ =>
      extends_ok () _ fun _ _ => rfl
    exact Extends.bounded (F := fun n s => decodeLoop n 0#32 (s.setEos false))
      (fun n => (decodeLoop_extends n _).after (fun s => s.setEos false) fun _ _ => rfl)
      fun s n hn => decodeLoop_fuel n (s := s.setEos false) hn
  | reset => exact extends_done ()

/-- The transactions of the pending command are the first ones of every end it comes to with longer ports. -/
theorem pendingOps_first {s u : State} {i : Instr} {x : List Token} {y : List Answer} (hw : s.tree.wf s.cap)
    (hd : decode s.cmd = .ok i)
    (h : (∃ v, commandBody i (s.lengthen x y) = .ok () v ∧ v.ports = u.ports) ∨
      ∃ e info v, commandBody i (s.lengthen x y) = .raise e info v ∧ v.ports = u.ports) :
    ∃ more, u.ports = (s.lengthen x y).ports.perform (pendingOps s ++ more) := by
  have hall := ports_eq_pendingOps (s := s.lengthen x y) hw hd h
  have hp := (commandBody_extends i).prefix (fillTree s) x y
  obtain ⟨ops, ho, -⟩ := commandBody_accounts i (fillTree s)
  obtain ⟨ops', ho', -⟩ := commandBody_accounts i ((fillTree s).lengthen x y)
  obtain ⟨more, hm⟩ := hp
  have h1 : pendingOps s = ops := by
    unfold pendingOps
    rw [hd]
    change (commandBody i (fillTree s)).state.ports.log.drop s.ports.log.length = ops
    rw [ho]
    simp [fillTree]
  have h2 : pendingOps (s.lengthen x y) = ops' := by
    unfold pendingOps
    rw [show (s.lengthen x y).cmd = s.cmd from rfl, hd]
    change (commandBody i ((fillTree s).lengthen x y)).state.ports.log.drop s.ports.log.length = ops'
    rw [ho']
    simp [fillTree, State.lengthen]
  refine ⟨more, ?_⟩
  rw [hall, h1, h2]
  congr 1
  rw [ho, ho'] at hm
  simp only [State.lengthen, State.setPorts_ports, List.append_assoc] at hm
  exact (List.append_cancel_left hm).symm

end Sys2Proof.Machine
end

