-- ==== Sys2Proof/Laws/PerInstr.lean ====
section
/-! SUPPORT. The family TableRow: each command's word has the fixed bits of its row of spec/opcode_table.json (30_encoding R71,
R72: match and mask), one lemma per constructor. -/

namespace Sys2Proof.Laws.TableRow

/-- The mask of a command's row: LEN is free in the rows of WRITE_BITS and READ_BITS, RESET is one exact word, and in the other
rows every bit is fixed. -/
def mask : Instr → Word
  | .nop => 0xFFFFFFFF#32
  | .writeBits _ => 0xFFFFC0FF#32
  | .closeWriter => 0xFFFFFFFF#32
  | .readBits _ => 0xFFFFC0FF#32
  | .readerAlign => 0xFFFFFFFF#32
  | .genCodes => 0xFFFFFFFF#32
  | .writeHeader => 0xFFFFFFFF#32
  | .readHeader => 0xFFFFFFFF#32
  | .encodeSymbol => 0xFFFFFFFF#32
  | .encodeStream => 0xFFFFFFFF#32
  | .decodeSymbol => 0xFFFFFFFF#32
  | .decodeStream => 0xFFFFFFFF#32
  | .reset => 0xFFFFFFFF#32

/-- The match value of a command's row. -/
def pattern : Instr → Word
  | .nop => 0x00000000#32
  | .writeBits _ => 0x00000001#32
  | .closeWriter => 0x00000002#32
  | .readBits _ => 0x00000003#32
  | .readerAlign => 0x00000004#32
  | .genCodes => 0x00000005#32
  | .writeHeader => 0x00000006#32
  | .readHeader => 0x00000007#32
  | .encodeSymbol => 0x00000008#32
  | .encodeStream => 0x00000009#32
  | .decodeSymbol => 0x0000000A#32
  | .decodeStream => 0x0000000B#32
  | .reset => 0x0000000F#32

/-- A well-formed command's word has its row's fixed bits. -/
def Statement (i : Instr) : Prop := i.wellFormed = true → encode i &&& mask i = pattern i

/-- LEN's place in the word: it never reaches the row's fixed bits. -/
theorem len_bits (op : Word) (h : op &&& 0xFFFFC0FF#32 = op) {len : Nat} (hl : len < 64) :
    commandWord op len &&& 0xFFFFC0FF#32 = op := by
  have hz : (BitVec.ofNat 32 len <<< 8) &&& 0xFFFFC0FF#32 = 0#32 := by
    interval_cases len <;> rfl
  unfold commandWord
  rw [BitVec.and_comm, BitVec.and_or_distrib_left, BitVec.and_comm _ op, h, BitVec.and_comm _ (BitVec.ofNat 32 len <<< 8), hz]
  simp

theorem nop : Statement .nop := fun _ => rfl
theorem writeBits (len : Nat) : Statement (.writeBits len) := fun h =>
  len_bits _ rfl (by simpa [Instr.wellFormed, lenFits] using h)
theorem closeWriter : Statement .closeWriter := fun _ => rfl
theorem readBits (len : Nat) : Statement (.readBits len) := fun h =>
  len_bits _ rfl (by simpa [Instr.wellFormed, lenFits] using h)
theorem readerAlign : Statement .readerAlign := fun _ => rfl
theorem genCodes : Statement .genCodes := fun _ => rfl
theorem writeHeader : Statement .writeHeader := fun _ => rfl
theorem readHeader : Statement .readHeader := fun _ => rfl
theorem encodeSymbol : Statement .encodeSymbol := fun _ => rfl
theorem encodeStream : Statement .encodeStream := fun _ => rfl
theorem decodeSymbol : Statement .decodeSymbol := fun _ => rfl
theorem decodeStream : Statement .decodeStream := fun _ => rfl
theorem reset : Statement .reset := fun _ => rfl

end Sys2Proof.Laws.TableRow
end

