-- ==== Sys2Proof/Laws/Words.lean ====
section
/-! SUPPORT. The command word as its four fields (30_encoding R71), and what a word that decodes looks like. -/

namespace Sys2Proof

/-- A word is its fields, side by side. -/
theorem word_fields (w : Word) : w = highReserved w ++ lenField w ++ lowReserved w ++ opField w := by
  unfold highReserved lenField lowReserved opField
  refine BitVec.eq_of_getLsbD_eq fun k hk => ?_
  simp only [BitVec.getLsbD_append, BitVec.getLsbD_extractLsb']
  by_cases h1 : k < 4
  · simp [h1]
  · by_cases h2 : k - 4 < 4
    · simp [h1, h2]; congr 1; omega
    · by_cases h3 : k - 4 - 4 < 6
      · simp [h1, h2, h3]; congr 1; omega
      · have : k - 4 - 4 - 6 < 18 := by omega
        simp [h1, h2, h3, this]; congr 1; omega

/-- OP has sixteen values. -/
theorem op_cases (op : BitVec 4) : op = 0#4 ∨ op = 1#4 ∨ op = 2#4 ∨ op = 3#4 ∨ op = 4#4 ∨ op = 5#4 ∨ op = 6#4 ∨ op = 7#4 ∨
    op = 8#4 ∨ op = 9#4 ∨ op = 10#4 ∨ op = 11#4 ∨ op = 12#4 ∨ op = 13#4 ∨ op = 14#4 ∨ op = 15#4 := by
  revert op; decide

/-- What the checks of 30_encoding R75 leave of a word that decodes. -/
theorem decode_ok {w : Word} {i : Instr} (h : decode w = .ok i) :
    lowReserved w = 0#4 ∧ highReserved w = 0#18 ∧ opTable (opField w) (lenField w).toNat = some i ∧
      (opField w = 1#4 ∨ opField w = 3#4 ∨ lenField w = 0#6) := by
  unfold decode at h
  split at h
  · cases h
  · rename_i j hj
    split at h
    · cases h
    · split at h
      · cases h
      · split at h
        · cases h
        · rename_i h1 h2 h3
          cases h
          refine ⟨by simpa using h1, by simpa using h2, hj, ?_⟩
          by_cases ho : opTakesLen (opField w) = false
          · exact .inr (.inr (by by_contra hc; exact h3 ⟨hc, ho⟩))
          · simp [opTakesLen] at ho
            tauto

end Sys2Proof
end

