-- ==== Sys2Proof/Laws/Turns.lean ====
section
/-! SUPPORT. Everything one event, and so one step, can do when it answers a next state (44_control R157). -/

namespace Sys2Proof.Machine

/-- CMD is the register at offset 4 and at no other word-aligned one (10_state R24). -/
theorem regAt_cmd {off : Offset} (h4 : off.toNat % 4 = 0) : regAt off = .cmd ↔ off = 0x0004#14 := by
  constructor
  · intro h
    unfold regAt at h
    have hk : off.toNat / 4 = 1 := by
      by_contra hne
      split at h <;> simp_all
      split at h
      · cases h
      · split at h
        · split at h <;> cases h
        · cases h
    apply BitVec.eq_of_toNat_eq
    simp
    omega
  · rintro rfl
    rfl

/-- STATUS is the register at offset 16 and at no other word-aligned one (10_state R24). -/
theorem regAt_status {off : Offset} (h4 : off.toNat % 4 = 0) : regAt off = .status ↔ off = 0x0010#14 := by
  constructor
  · intro h
    unfold regAt at h
    have hk : off.toNat / 4 = 4 := by
      by_contra hne
      split at h <;> simp_all
      split at h
      · cases h
      · split at h
        · split at h <;> cases h
        · cases h
    apply BitVec.eq_of_toNat_eq
    simp
    omega
  · rintro rfl
    rfl

/-- The reads by which the host sees a command's end (70_reset R204). -/
theorem showsIdle_regAt {off : Offset} (h4 : off.toNat % 4 = 0) (s : State) :
    (regAt off).showsIdle s = (decide (off = 0x0010#14) && !s.busy) := by
  have h : (regAt off == .status) = decide (off = 0x0010#14) := by
    rw [Bool.eq_iff_iff, beq_iff_eq, decide_eq_true_iff]
    exact regAt_status h4
  rw [Reg.showsIdle, h]

/-- A step is its event, handled with the rest of the agenda to come. -/
theorem step_eq_handle (s : State) : step s = handle s.nextEvent (s.setAgenda s.agenda.tail) := by
  unfold step State.nextEvent
  cases h : s.agenda with
  | nil =>
    have : s.setAgenda [] = s := by rw [← h]; rfl
    simp [this, handle]
  | cons e rest => rfl

/-- The state an event acts on: a write to CMD has ended what the host saw of the command before (70_reset R204). -/
def issued (e : Event) (s : State) : State := s.setSawIdle (!e.isCommand && s.sawIdle)

@[simp] theorem issued_cmd (v : Word) (s : State) : issued (.host (.write 32 0x0004#14 v)) s = s.setSawIdle false := rfl
@[simp] theorem issued_hardwareReset (s : State) : issued .hardwareReset s = s := rfl

/-- A write to any other register leaves that alone. -/
theorem issued_other {off : Offset} (h : off ≠ 0x0004#14) (v : Word) (s : State) :
    issued (.host (.write 32 off v)) s = s := by
  have : (Event.host (.write 32 off v)).isCommand = false := by simp [Event.isCommand, Reg.offset, h]
  rw [issued, this]
  rfl

/-- The ten ways an event answers a next state. -/
inductive Turn : Event → State → State → Prop where
  | reset {e : Event} {s : State} (h : e.resets) : Turn e s (resetBlock (abandon (issued e s)))
  | idle {s : State} (hb : s.busy = false) : Turn .engine s s
  | badWord {s : State} (hb : s.busy = true) (r : DecodeReject) (hd : decode s.cmd = .error r) : Turn .engine s (badCommand s)
  | runs {s t : State} (hb : s.busy = true) (i : Instr) (hd : decode s.cmd = .ok i) (hr : i ≠ .reset)
      (hx : exec i s = .next t) : Turn .engine s t
  | reads {s : State} (off : Offset) (h4 : off.toNat % 4 = 0) : Turn (.host (.read 32 off)) s (hostRead (regAt off) s)
  | drops {s : State} (off : Offset) (v : Word) (h4 : off.toNat % 4 = 0) (hv : off = 0x0004#14 → v ≠ resetWord)
      (h : s.busy = true ∨ (off = 0x0004#14 ∧ s.err ≠ none)) :
      Turn (.host (.write 32 off v)) s (issued (.host (.write 32 off v)) s).setOverrun
  | accepts {s : State} (v : Word) (hb : s.busy = false) (he : s.err = none) (hv : v ≠ resetWord) :
      Turn (.host (.write 32 0x0004#14 v)) s (acceptCommand v (s.setSawIdle false))
  | stores {s : State} (off : Offset) (v : Word) (h4 : off.toNat % 4 = 0) (hc : off ≠ 0x0004#14) (hb : s.busy = false) :
      Turn (.host (.write 32 off v)) s (storeReg (regAt off) v s)
  | offers {s : State} (tok : Token) : Turn (.offer tok) s (offerToken tok s)
  | answers {s : State} (a : Answer) : Turn (.answer a) s (giveAnswer a s)

/-- Only the RESET word decodes to RESET (30_encoding R76). -/
theorem decode_reset {w : Word} (h : decode w = .ok .reset) : w = resetWord := by
  obtain ⟨hl, hh, ht, hlen⟩ := decode_ok h
  have hw := word_fields w
  rcases op_cases (opField w) with ho | ho | ho | ho | ho | ho | ho | ho | ho | ho | ho | ho | ho | ho | ho | ho <;>
    rw [ho] at ht hlen hw <;> simp [opTable] at ht
  have h0 : lenField w = 0#6 := by simpa using hlen
  rw [hl, hh, h0] at hw
  exact hw

theorem turn_of_handle {e : Event} {s t : State} (hl : s.busy = true → s.cmd ≠ resetWord) (h : handle e s = .next t) :
    Turn e s t := by
  cases e with
  | hardwareReset =>
    obtain rfl : resetBlock (abandon s) = t := Host.Outcome.next.inj h
    exact Turn.reset (s := s) (.inl rfl)
  | offer tok =>
    obtain rfl : offerToken tok s = t := Host.Outcome.next.inj h
    exact .offers tok
  | answer a =>
    obtain rfl : giveAnswer a s = t := Host.Outcome.next.inj h
    exact .answers a
  | engine =>
    simp only [handle, engineTurn] at h
    split at h
    · rename_i hb
      unfold engineStep at h
      split at h
      · rename_i i hd
        refine .runs hb i hd ?_ h
        rintro rfl
        exact hl hb (decode_reset hd)
      · rename_i r hd
        obtain rfl := Host.Outcome.next.inj h
        exact .badWord hb r hd
    · rename_i hb
      obtain rfl := Host.Outcome.next.inj h
      exact .idle (by simpa using hb)
  | host a =>
    cases a with
    | read w off =>
      simp only [handle, hostAccess] at h
      split at h
      · rename_i hleg
        simp only [accessLegal, Bool.and_eq_true, beq_iff_eq] at hleg
        obtain ⟨rfl, h4⟩ := hleg
        obtain rfl := Host.Outcome.next.inj h
        exact .reads off h4
      · cases h
    | write w off v =>
      simp only [handle, hostAccess] at h
      split at h
      · rename_i hleg
        simp only [accessLegal, Bool.and_eq_true, beq_iff_eq] at hleg
        obtain ⟨rfl, h4⟩ := hleg
        by_cases hc : off = 0x0004#14
        · subst hc
          change hostWriteCmd v (s.setSawIdle false) = .next t at h
          unfold hostWriteCmd at h
          split at h
          · rename_i hv
            subst hv
            obtain rfl : resetBlock (abandon (s.setSawIdle false)) = t := Host.Outcome.next.inj h
            exact Turn.reset (s := s) (e := .host (.write 32 0x0004#14 resetWord)) (.inr rfl)
          · rename_i hv
            split at h
            · rename_i hb
              obtain rfl := Host.Outcome.next.inj h
              exact .drops _ v h4 (fun _ => hv) (.inl hb)
            · rename_i hb
              split at h
              · rename_i he
                obtain rfl := Host.Outcome.next.inj h
                exact .drops _ v h4 (fun _ => hv) (.inr ⟨rfl, he⟩)
              · rename_i he
                obtain rfl := Host.Outcome.next.inj h
                exact .accepts v (by simpa using hb) (by simpa using he) hv
        · have hw : hostWrite (regAt off) v s = .next (hostStore (regAt off) v s) := by
            unfold hostWrite
            split
            · rename_i hr
              exact absurd ((regAt_cmd h4).1 hr) hc
            · rfl
          rw [hw] at h
          obtain rfl := Host.Outcome.next.inj h
          unfold hostStore
          split
          · rename_i hb
            have := Turn.drops (s := s) off v h4 (fun he => absurd he hc) (.inl hb)
            rwa [issued_other hc] at this
          · rename_i hb
            exact .stores off v h4 hc (by simpa using hb)
      · cases h

/-- Everything a step that answers a next state has done. -/
theorem turn_of_step {s t : State} (hl : s.busy = true → s.cmd ≠ resetWord) (h : step s = .next t) :
    Turn s.nextEvent (s.setAgenda s.agenda.tail) t := by
  rw [step_eq_handle] at h
  exact turn_of_handle hl h

/-- What a host store can change (10_state R28, R37, R40). -/
theorem storeReg_frame (r : Reg) (v : Word) (s : State):
    storeReg r v s =
      { s with arg := (storeReg r v s).arg, root := (storeReg r v s).root, tree := (storeReg r v s).tree } := by
  cases r <;> simp only [storeReg] <;> (try split) <;> rfl

/-- An event leaves the agenda to the step, and of what the host has seen it changes only this (70_reset R204). -/
theorem Turn.record {e : Event} {s t : State} (h : Turn e s t) :
    t.agenda = s.agenda ∧
      t.sawIdle = ((decide (e = .host (.read 32 0x0010#14)) && !s.busy) || (!e.isCommand && s.sawIdle)) := by
  have ha : ∀ u : State, (abandon u).agenda = u.agenda ∧ (abandon u).sawIdle = u.sawIdle := fun u => by
    unfold abandon; split <;> exact ⟨rfl, rfl⟩
  cases h with
  | reset h =>
    obtain ⟨h1, h2⟩ := ha (issued e s)
    rcases h with rfl | rfl
    · exact ⟨h1, h2⟩
    · exact ⟨h1, h2⟩
  | idle hb => exact ⟨rfl, rfl⟩
  | badWord hb r hd => exact ⟨rfl, rfl⟩
  | runs hb i hd hr hx =>
    rcases exec_next_cases hr hx with ⟨u, -, hl, rfl⟩ | ⟨e, info, u, -, hl, rfl⟩ | ⟨-, rfl⟩
    · exact ⟨hl.frame.agenda, hl.frame.sawIdle⟩
    · exact ⟨rfl, rfl⟩
    · exact ⟨rfl, rfl⟩
  | reads off h4 =>
    refine ⟨rfl, ?_⟩
    simp [hostRead, showsIdle_regAt h4, Event.isCommand]
  | drops off v h4 hv h => exact ⟨rfl, by simp [issued]⟩
  | accepts v hb he hv => exact ⟨rfl, rfl⟩
  | stores off v h4 hc hb =>
    have hi : (Event.host (.write 32 off v)).isCommand = false := by simp [Event.isCommand, Reg.offset, hc]
    rw [storeReg_frame]
    exact ⟨rfl, by simp [hi]⟩
  | offers tok => exact ⟨rfl, rfl⟩
  | answers a => exact ⟨rfl, rfl⟩

end Sys2Proof.Machine
end

