-- ==== Sys2Proof/Laws/Registers.lean ====
section
/-! SUPPORT. The register map by offset (10_state R24), and the fields of the words a host read returns (R30 to R43). -/

namespace Sys2Proof.Machine

/-! ### What stands where -/

/-- Beyond the ten registers: the tree window, the code window, or reserved. -/
theorem regAt_high {off : Offset} {n : Nat} (h : off.toNat / 4 = n + 10) :
    regAt off = if 0x400 ≤ n + 10 ∧ n + 10 < 0x800 then .tree (n + 10 - 0x400)
      else if 0x800 ≤ n + 10 ∧ n + 10 < 0xC00 then
        if (n + 10) % 2 = 0 then .clen ((n + 10 - 0x800) / 2) else .cpat ((n + 10 - 0x800) / 2)
      else .reserved := by
  unfold regAt
  rw [h]
  rfl

theorem regAt_tree {i : Nat} (hi : i < 1024) {off : Offset} (h : off.toNat = 0x1000 + 4 * i) : regAt off = .tree i := by
  obtain ⟨n, hn, hi⟩ : ∃ n, off.toNat / 4 = n + 10 ∧ n + 10 = 0x400 + i := ⟨0x3F6 + i, by omega, by omega⟩
  rw [regAt_high hn, if_pos (by omega)]
  exact congrArg Reg.tree (by omega)

theorem regAt_clen (sym : Symbol) {off : Offset} (h : off.toNat = 0x2000 + 8 * sym.toNat) : regAt off = .clen sym.toNat := by
  have := sym.isLt
  obtain ⟨n, hn, hi⟩ : ∃ n, off.toNat / 4 = n + 10 ∧ n + 10 = 0x800 + 2 * sym.toNat := ⟨0x7F6 + 2 * sym.toNat, by omega, by omega⟩
  rw [regAt_high hn, if_neg (by omega), if_pos (by omega), if_pos (by omega)]
  exact congrArg Reg.clen (by omega)

theorem regAt_cpat (sym : Symbol) {off : Offset} (h : off.toNat = 0x2004 + 8 * sym.toNat) : regAt off = .cpat sym.toNat := by
  have := sym.isLt
  obtain ⟨n, hn, hi⟩ : ∃ n, off.toNat / 4 = n + 10 ∧ n + 10 = 0x801 + 2 * sym.toNat := ⟨0x7F7 + 2 * sym.toNat, by omega, by omega⟩
  rw [regAt_high hn, if_neg (by omega), if_pos (by omega), if_neg (by omega)]
  exact congrArg Reg.cpat (by omega)

theorem regAt_reserved {off : Offset} (h : (0x0028 ≤ off.toNat ∧ off.toNat < 0x1000) ∨ 0x3000 ≤ off.toNat) :
    regAt off = .reserved := by
  obtain ⟨n, hn⟩ : ∃ n, off.toNat / 4 = n + 10 := ⟨off.toNat / 4 - 10, by omega⟩
  have := off.isLt
  rw [regAt_high hn, if_neg (by omega), if_neg (by omega)]

/-! ### Host accesses at legal offsets -/

theorem handle_read {s : State} {off : Offset} (h : off.toNat % 4 = 0) :
    handle (.host (.read 32 off)) s = .next (hostRead (regAt off) s) := by
  simp [handle, hostAccess, accessLegal, h]

theorem handle_write {s : State} {off : Offset} {v : Word} (h : off.toNat % 4 = 0) :
    handle (.host (.write 32 off v)) s = hostWrite (regAt off) v s := by
  simp [handle, hostAccess, accessLegal, h]

/-! ### The fields of the words -/

/-- A field of a word, bit by bit. -/
theorem field_eq {w : Word} {lo n : Nat} {x : BitVec n} (h : ∀ k, k < n → w.getLsbD (lo + k) = x.getLsbD k) :
    w.extractLsb' lo n = x :=
  BitVec.eq_of_getLsbD_eq fun k hk => by rw [BitVec.getLsbD_extractLsb']; simp [hk, h k hk]

theorem statusWord_bits (s : State) :
    (statusWord s).getLsbD 0 = s.busy ∧ (statusWord s).getLsbD 1 = s.eos ∧ (statusWord s).getLsbD 2 = s.overrun := by
  simp only [statusWord, BitVec.getLsbD_append]
  simp

theorem statusWord_fields (s : State) :
    (statusWord s).extractLsb' 3 5 = 0#5 ∧ (statusWord s).extractLsb' 8 4 = errField s.err ∧
      (statusWord s).extractLsb' 12 4 = 0#4 ∧ (statusWord s).extractLsb' 16 10 = s.errInfo ∧
      (statusWord s).extractLsb' 26 6 = 0#6 := by
  refine ⟨?_, ?_, ?_, ?_, ?_⟩ <;> refine field_eq fun k hk => ?_ <;>
    simp only [statusWord, BitVec.getLsbD_append] <;> interval_cases k <;> simp

theorem wstateWord_fields (w : Writer) :
    (wstateWord w).extractLsb' 0 8 = w.buf ∧ (wstateWord w).extractLsb' 8 3 = BitVec.ofNat 3 w.cnt.val ∧
      (wstateWord w).extractLsb' 11 21 = 0#21 := by
  refine ⟨?_, ?_, ?_⟩ <;> refine field_eq fun k hk => ?_ <;>
    simp only [wstateWord, BitVec.getLsbD_append] <;> interval_cases k <;> simp

theorem rstateWord_fields (r : Reader) :
    (rstateWord r).extractLsb' 0 8 = r.buf ∧ (rstateWord r).extractLsb' 8 4 = BitVec.ofNat 4 r.cnt.val ∧
      (rstateWord r).extractLsb' 12 20 = 0#20 := by
  refine ⟨?_, ?_, ?_⟩ <;> refine field_eq fun k hk => ?_ <;>
    simp only [rstateWord, BitVec.getLsbD_append] <;> interval_cases k <;> simp

theorem rootWord_fields (r : Root) :
    (rootWord r).extractLsb' 0 10 = r.idx ∧ (rootWord r).extractLsb' 10 21 = 0#21 ∧ (rootWord r).getLsbD 31 = r.valid := by
  refine ⟨?_, ?_, ?_⟩
  · refine field_eq fun k hk => ?_
    simp only [rootWord, BitVec.getLsbD_append]
    interval_cases k <;> simp
  · refine field_eq fun k hk => ?_
    simp only [rootWord, BitVec.getLsbD_append]
    interval_cases k <;> simp
  · simp only [rootWord, BitVec.getLsbD_append]
    simp

theorem ncntWord_fields (n : BitVec 11) : (ncntWord n).extractLsb' 0 11 = n ∧ (ncntWord n).extractLsb' 11 21 = 0#21 := by
  refine ⟨field_eq fun k hk => ?_, field_eq fun k hk => ?_⟩
  · simp only [ncntWord, BitVec.getLsbD_setWidth]
    simp
    omega
  · simp only [ncntWord, BitVec.getLsbD_setWidth]
    simp

theorem paramWord_toNat (s : State) : (paramWord s.params).toNat = s.cap := by
  have h := s.params.nodeCap.upper
  simp only [paramWord, State.cap]
  rw [BitVec.toNat_ofNat, Nat.mod_eq_of_lt (by omega)]

theorem clenWord_fields (v : Bool) (len : BitVec 6) :
    (clenWord v len).getLsbD 31 = v ∧ (clenWord v len).extractLsb' 6 25 = 0#25 ∧ (clenWord v len).extractLsb' 0 6 = len := by
  refine ⟨?_, ?_, ?_⟩
  · simp only [clenWord, BitVec.getLsbD_append]
    simp
  · refine field_eq fun k hk => ?_
    simp only [clenWord, BitVec.getLsbD_append]
    interval_cases k <;> simp
  · refine field_eq fun k hk => ?_
    simp only [clenWord, BitVec.getLsbD_append]
    interval_cases k <;> simp

theorem nodeWord_leaf (sym : Symbol) : nodeWord (.leaf sym) = 0x80000000#32 ||| sym.setWidth 32 := by
  refine BitVec.eq_of_getLsbD_eq fun k hk => ?_
  simp only [nodeWord, BitVec.getLsbD_append, BitVec.getLsbD_or, BitVec.getLsbD_setWidth]
  interval_cases k <;> simp

theorem nodeWord_internal (l r : Slot) : nodeWord (.internal l r) = (l.setWidth 32 <<< 16) ||| r.setWidth 32 := by
  refine BitVec.eq_of_getLsbD_eq fun k hk => ?_
  simp only [nodeWord, BitVec.getLsbD_append, BitVec.getLsbD_or, BitVec.getLsbD_shiftLeft, BitVec.getLsbD_setWidth]
  interval_cases k <;> simp

/-- Writing a tree word and reading it back clears the discarded bits (30_encoding R77). -/
theorem nodeWord_nodeOfWord (v : Word) :
    nodeWord (nodeOfWord v) = if v.getLsbD 31 then v &&& 0x800001FF#32 else v &&& 0x03FF03FF#32 := by
  unfold nodeOfWord
  by_cases hv : v.getLsbD 31 = true
  · rw [if_pos hv, if_pos hv, nodeWord_leaf]
    refine BitVec.eq_of_getLsbD_eq fun k hk => ?_
    simp only [BitVec.getLsbD_or, BitVec.getLsbD_and, BitVec.getLsbD_setWidth, BitVec.getLsbD_extractLsb']
    interval_cases k <;> simp_all
  · rw [if_neg hv, if_neg hv, nodeWord_internal]
    refine BitVec.eq_of_getLsbD_eq fun k hk => ?_
    simp only [BitVec.getLsbD_or, BitVec.getLsbD_and, BitVec.getLsbD_shiftLeft, BitVec.getLsbD_setWidth, BitVec.getLsbD_extractLsb']
    interval_cases k <;> simp_all

end Sys2Proof.Machine
end

