-- ==== Sys2Proof/Tests/Slice0.lean ====
section
/-! SUPPORT. Tests by evaluation. Expected values are those of spec/95_test_vectors.md, named by their ids, or are worked out
from the rule cited. Then, for every statement with hypotheses, states that meet them, also at the ends of their ranges. -/

namespace Sys2Proof.Tests

open Sys2Proof.Machine

/-! ### Helpers -/

/-- The outcome is a next state that passes the test p. -/
def answers (o : Host.Outcome State Fault Refusal) (p : State → Bool) : Bool :=
  match o with
  | .next t => p t
  | .fault _ => false
  | .refused _ => false

theorem next_of {o : Host.Outcome State Fault Refusal} (P : State → Prop) [DecidablePred P]
    (h : answers o (fun t => decide (P t)) = true) : ∃ t, o = .next t ∧ P t := by
  cases o with
  | next t => exact ⟨t, rfl, of_decide_eq_true h⟩
  | fault f => cases h
  | refused r => cases h

/-- From reset, with tokens on IN and answers of the sink. -/
def start (toks : List Token) (ans : List Answer) : State :=
  { State.reset with ports := { offered := toks, answers := ans, log := [] } }

/-- The same with a tree loaded, its root in slot 0. -/
def loaded (m : Memory Node) (toks : List Token) (ans : List Answer) : State :=
  { start toks ans with tree := m, root := { idx := 0#10, valid := true } }

/-- The smallest NODE_CAP the spec allows. -/
def smallest : Params := { nodeCap := ⟨513, by decide, by decide⟩, base := 0 }

/-- The aaaa tree of 95_test_vectors. -/
def aaaa : Memory Node := [(0, .internal 1#10 2#10), (1, .leaf 257#9), (2, .leaf 97#9)]

def aaaaTree : HTree := .node (.leaf 257#9) (.leaf 97#9)

/-- The table of CT-1. -/
def aaaaCodes : Memory CodeEntry :=
  [(97, { valid := true, len := 1#6, pat := 1#32 }), (257, { valid := true, len := 1#6, pat := 0#32 })]

def accepting (n : Nat) : List Answer := List.replicate n .accept

def bytes (l : List (BitVec 8)) : List Token := l.map .byte

/-- The tree below a slot, by search. -/
def treeOf (cap : Nat) (m : Memory Node) : Nat → Slot → Option HTree
  | 0, _ => none
  | fuel + 1, i =>
    if i.toNat < cap then
      match m.read i.toNat with
      | none => none
      | some (.leaf sym) => some (.leaf sym)
      | some (.internal a b) =>
        match treeOf cap m fuel a, treeOf cap m fuel b with
        | some l, some r => some (.node l r)
        | _, _ => none
    else none

theorem treeOf_sound {cap : Nat} {m : Memory Node} (fuel : Nat) {i : Slot} {t : HTree}
    (h : treeOf cap m fuel i = some t) : treeAt cap m i t := by
  induction fuel generalizing i t with
  | zero => cases h
  | succ fuel ih =>
    unfold treeOf at h
    split at h
    · rename_i hi
      split at h
      · cases h
      · rename_i sym hr
        cases h
        exact ⟨hi, hr⟩
      · rename_i a b hr
        split at h
        · rename_i l r hl hrr
          cases h
          exact ⟨hi, a, b, hr, ih hl, ih hrr⟩
        · cases h
    · cases h

theorem hasTree_of {s : State} (fuel : Nat) {t : HTree} (hv : s.root.valid = true)
    (h : treeOf s.cap s.tree fuel s.root.idx = some t) (hs : t.size ≤ s.cap) : s.hasTree t :=
  ⟨hv, treeOf_sound fuel h, hs⟩

/-- States near reset meet the invariant. -/
theorem inv_near_reset (p : Ports) (m : Memory Node) (r : Root) (c : Word) (b : Bool) (ag : List Event)
    (hm : Memory.wf 1024 m) (hc : b = true → c ≠ resetWord) :
    Inv { State.reset with ports := p, tree := m, root := r, cmd := c, busy := b, agenda := ag } where
  tree_wf := hm
  code_wf := ⟨List.Pairwise.nil, fun _ h => nomatch h⟩
  ncnt_le := Nat.zero_le _
  errInfo_zero := fun _ => rfl
  not_busy := fun h => absurd rfl h
  latched := hc
  saw_idle := fun h => nomatch h
  writer_clean := fun _ => (by decide : State.reset.writer.clean)
  code_whole := fun _ _ _ h => nomatch h

/-! ### Well-formedness: the one check, and terms it refuses (30_encoding R71) -/

theorem smoke_writeBits_refused : (Instr.writeBits 64).wellFormed = false := by decide
theorem smoke_readBits_refused : (Instr.readBits 64).wellFormed = false := by decide
theorem smoke_len_ends : (Instr.writeBits 63).wellFormed = true ∧ (Instr.readBits 0).wellFormed = true := by decide

/-! ### Every row of the opcode table, its word written out (30_encoding R72); the words the check refuses (R75, BC-1 to BC-9) -/

theorem test_decode_control : decode 0x00000000#32 = .ok .nop ∧ decode 0x0000000F#32 = .ok .reset := by decide
theorem test_decode_writer : decode 0x00000301#32 = .ok (.writeBits 3) ∧ decode 0x00000002#32 = .ok .closeWriter := by decide
theorem test_decode_reader : decode 0x00002003#32 = .ok (.readBits 32) ∧ decode 0x00000004#32 = .ok .readerAlign := by decide
theorem test_decode_tables :
    decode 0x00000005#32 = .ok .genCodes ∧ decode 0x00000006#32 = .ok .writeHeader ∧ decode 0x00000007#32 = .ok .readHeader := by
  decide
theorem test_decode_codec :
    decode 0x00000008#32 = .ok .encodeSymbol ∧ decode 0x00000009#32 = .ok .encodeStream ∧
      decode 0x0000000A#32 = .ok .decodeSymbol ∧ decode 0x0000000B#32 = .ok .decodeStream := by decide
theorem test_decode_rejects :
    decode 0x0000000C#32 = .error .reservedOp ∧ decode 0x0000000E#32 = .error .reservedOp ∧
      decode 0x00000011#32 = .error .reservedLowBits ∧ decode 0x000000F0#32 = .error .reservedLowBits ∧
      decode 0x00000105#32 = .error .lenOnOtherOp ∧ decode 0x00000100#32 = .error .lenOnOtherOp ∧
      decode 0x0000010F#32 = .error .lenOnOtherOp ∧ decode 0x00040000#32 = .error .reservedHighBits ∧
      decode 0x00004001#32 = .error .reservedHighBits := by decide
theorem test_table_word : decodeTableWord 32 0x00000901 = some (.writeBits 9) ∧ decodeTableWord 8 0x05 = some .genCodes := by
  decide

/-! ### Commands, one step each -/

/-- NP-1 -/
theorem test_nop : answers (exec .nop { State.reset with busy := true }) (fun t => decide (t = State.reset)) = true := by decide

/-- BW-1, second command -/
theorem test_writeBits : answers
    (exec (.writeBits 5) { start [] (accepting 1) with arg := 0x1F#32, writer := { buf := 0xA0#8, cnt := 3 } })
    (fun t => decide (t.outStream = [0xBF#8] ∧ t.writer = { buf := 0#8, cnt := 0 })) = true := by decide

/-- BW-5, second command -/
theorem test_writeBits_wide : answers
    (exec (.writeBits 32) { start [] (accepting 4) with arg := 0xDEADBEEF#32, writer := { buf := 0xA0#8, cnt := 3 } })
    (fun t => decide (t.outStream = [0xBB#8, 0xD5#8, 0xB7#8, 0xDD#8] ∧ t.writer = { buf := 0xE0#8, cnt := 3 })) = true := by
  decide

/-- BW-2, BW-3 -/
theorem test_closeWriter : answers
    (exec .closeWriter { start [] (accepting 1) with writer := { buf := 0xA0#8, cnt := 3 } })
    (fun t => decide (t.outStream = [0xA0#8] ∧ t.writer = { buf := 0#8, cnt := 0 })) = true ∧
    answers (exec .closeWriter (start [] (accepting 1))) (fun t => decide (t.outStream = [])) = true := by decide

/-- BR-3, second command -/
theorem test_readBits : answers
    (exec (.readBits 32) { start (bytes [0x12#8, 0x34#8, 0x56#8, 0x78#8]) [] with reader := { buf := 0xA5#8, cnt := 3 } })
    (fun t => decide (t.result = 0xA2468ACF#32 ∧ t.reader = { buf := 0x78#8, cnt := 3 } ∧ t.consumed.length = 4)) = true := by
  decide

/-- BR-4 and BR-5 -/
theorem test_readBits_runs_out :
    answers (exec (.readBits 4) { start [.endOfStream] [] with reader := { buf := 0x78#8, cnt := 3 } })
      (fun t => decide (t.err = some .truncatedStream ∧ t.consumed = [.endOfStream])) = true ∧
    answers (exec (.readBits 1) (start [.error] [])) (fun t => decide (t.err = some .sourceUnreadable)) = true := by decide

/-- BR-2, second command -/
theorem test_readerAlign : answers (exec .readerAlign { State.reset with reader := { buf := 0xA5#8, cnt := 4 } })
    (fun t => decide (t.reader = { buf := 0xA5#8, cnt := 0 } ∧ t.consumed = [])) = true := by decide

/-- CT-1 -/
theorem test_genCodes : answers (exec .genCodes (loaded aaaa [] [])) (fun t => decide (t.code = aaaaCodes)) = true := by decide

/-- CT-7 -/
theorem test_genCodes_duplicate : answers
    (exec .genCodes (loaded [(0, .internal 1#10 2#10), (1, .leaf 65#9), (2, .leaf 65#9)] [] []))
    (fun t => decide (t.err = some .treeInvalid ∧ t.errInfo = 2#10 ∧ t.busy = false)) = true := by decide

/-- WH-1 and WH-4 -/
theorem test_writeHeader :
    answers (exec .writeHeader (loaded aaaa [] (accepting 2)))
      (fun t => decide (t.outStream = [0x60#8, 0x33#8] ∧ t.writer = { buf := 0x08#8, cnt := 5 })) = true ∧
    answers (exec .writeHeader { loaded aaaa [] (accepting 3) with writer := { buf := 0xA0#8, cnt := 3 } })
      (fun t => decide (t.outStream = [0xAC#8, 0x06#8, 0x61#8] ∧ t.writer.cnt = 0)) = true := by decide

set_option maxRecDepth 20000 in
/-- WH-7: the cycle, at the smallest NODE_CAP -/
theorem test_writeHeader_cycle : answers
    (exec .writeHeader { loaded [(0, .internal 0#10 0#10)] [] (accepting 64) with params := smallest })
    (fun t => decide (t.err = some .treeInvalid ∧ t.errInfo = 0#10 ∧ t.outStream.length = 64)) = true := by decide

/-- RH-1 -/
theorem test_readHeader : answers (exec .readHeader (start (bytes [0x60#8, 0x33#8, 0x0F#8, 0x80#8]) []))
    (fun t => decide (t.tree = aaaa ∧ t.ncnt = 3#11 ∧ t.root = { idx := 0#10, valid := true } ∧
      t.reader = { buf := 0x0F#8, cnt := 3 } ∧ t.consumed.length = 3)) = true := by decide

/-- HV-4, second row -/
theorem test_readHeader_truncated :
    answers (exec .readHeader (start (bytes [0x4C#8, 0x26#8, 0x03#8] ++ [.endOfStream]) []))
    (fun t => decide (t.err = some .truncatedStream ∧ t.consumed.length = 4)) = true := by decide

/-- SE-2 and SE-4 -/
theorem test_encodeSymbol :
    answers (exec .encodeSymbol { State.reset with code := aaaaCodes, arg := 0xFFFFFF01#32 })
      (fun t => decide (t.writer = { buf := 0#8, cnt := 1 } ∧ t.outStream = [])) = true ∧
    answers (exec .encodeSymbol { State.reset with code := aaaaCodes, arg := 98#32 })
      (fun t => decide (t.err = some .noCode ∧ t.errInfo = 0x062#10)) = true := by decide

/-- ES-1 -/
theorem test_encodeStream : answers
    (exec .encodeStream
      { start (bytes [0x61#8, 0x61#8, 0x61#8, 0x61#8] ++ [.endOfStream]) (accepting 2) with
        code := aaaaCodes, writer := { buf := 0x08#8, cnt := 5 } })
    (fun t => decide (t.outStream = [0x0F#8, 0x80#8] ∧ t.result = 4#32 ∧ t.consumed.length = 5 ∧
      t.writer = { buf := 0#8, cnt := 0 })) = true := by decide

/-- ES-3: the byte without a code; nothing of the byte before it went out -/
theorem test_encodeStream_noCode : answers
    (exec .encodeStream { start (bytes [0x61#8, 0x62#8] ++ [.endOfStream]) (accepting 2) with
      code := aaaaCodes, writer := { buf := 0x08#8, cnt := 5 } })
    (fun t => decide (t.err = some .noCode ∧ t.errInfo = 0x062#10 ∧ t.outStream = [] ∧ t.consumed.length = 2)) = true := by decide

/-- SD-1, fourth and fifth commands -/
theorem test_decodeSymbol :
    answers (exec .decodeSymbol { loaded aaaa (bytes [0x80#8]) [] with reader := { buf := 0x0F#8, cnt := 0 } })
      (fun t => decide (t.result = 97#32 ∧ t.eos = false ∧ t.reader = { buf := 0x80#8, cnt := 7 })) = true ∧
    answers (exec .decodeSymbol { loaded aaaa [] [] with reader := { buf := 0x80#8, cnt := 7 } })
      (fun t => decide (t.result = 257#32 ∧ t.eos = true ∧ t.reader.cnt = 6)) = true := by decide

/-- SD-3: a root that is a leaf takes one bit, unchecked -/
theorem test_decodeSymbol_leaf : answers (exec .decodeSymbol (loaded [(0, .leaf 65#9)] (bytes [0x80#8]) []))
    (fun t => decide (t.result = 65#32 ∧ t.reader.cnt = 7)) = true := by decide

/-- DS-1 -/
theorem test_decodeStream : answers
    (exec .decodeStream { loaded aaaa (bytes [0x80#8]) (accepting 4) with reader := { buf := 0x0F#8, cnt := 3 } })
    (fun t => decide (t.outStream = [0x61#8, 0x61#8, 0x61#8, 0x61#8] ∧ t.result = 4#32 ∧ t.eos = true ∧
      t.reader = { buf := 0x80#8, cnt := 0 })) = true := by decide

/-- DS-3 -/
theorem test_decodeStream_badSymbol : answers
    (exec .decodeStream (loaded [(0, .internal 1#10 2#10), (1, .leaf 256#9), (2, .leaf 257#9)] (bytes [0#8]) []))
    (fun t => decide (t.err = some .badSymbol ∧ t.errInfo = 0x100#10 ∧ t.outStream = [] ∧ t.consumed.length = 1)) = true := by
  decide

/-- RS-3: RESET of an idle block in which everything differs from its reset value -/
theorem test_reset : answers
    (exec .reset { loaded aaaa [] [] with
      cmd := 0xC#32, arg := 0x1234#32, result := 1#32, eos := true, overrun := true, err := some .badCommand, errInfo := 0xC#10,
      writer := { buf := 1#8, cnt := 2 }, reader := { buf := 3#8, cnt := 4 }, ncnt := 3#11, code := aaaaCodes })
    (fun t => decide (t = State.reset)) = true := by decide

/-- RS-4: held, nothing consumed, still busy; and RS-5 -/
theorem test_held :
    answers (step (({ loaded aaaa [] [] with cmd := 0#32 } : State).withFetchWord 32 0x0000000A))
      (fun t => decide (statusWord t = 0x00000001#32 ∧ t.consumed = [])) = true ∧
    answers (handle (.host (.write 32 0x0008#14 5#32)) { loaded aaaa [] [] with cmd := 0xA#32, busy := true })
      (fun t => decide (t.arg = 0#32 ∧ t.overrun = true)) = true := by decide

/-- BC-1 by STATUS, and RS-1 -/
theorem test_badCommand :
    answers (step (State.reset.withFetchWord 32 0x0000000C))
      (fun t => decide (t.err = some .badCommand ∧ t.errInfo = 0xC#10 ∧ t.cmd = 0xC#32 ∧ t.busy = false)) = true ∧
    answers (handle (.host (.write 32 0x0004#14 0#32)) { State.reset with err := some .badCommand, errInfo := 0xC#10, cmd := 0xC#32 })
      (fun t => decide (statusWord t = 0x000C0404#32 ∧ t.cmd = 0xC#32)) = true := by decide

/-! ### Witnesses: states and operands that meet the hypotheses of the statements -/

/-- A pending word on a block otherwise as after reset. -/
def pending (w : Word) (toks : List Token) (ans : List Answer) : State := { start toks ans with cmd := w, busy := true }

theorem inv_pending (w : Word) (toks : List Token) (ans : List Answer) (h : w ≠ resetWord) : Inv (pending w toks ans) :=
  inv_near_reset _ [] { idx := 0#10, valid := false } w true [] (Memory.wf_nil _) fun _ => h

theorem witness_encoding : (Instr.readBits 63).wellFormed = true ∧ decode 0x00003F03#32 = .ok (.readBits 63) := by decide

/-- The four checks at the ends of their fields, and words that pass. -/
theorem witness_wordCheck :
    failsCheck 0xC#32 ∧ failsCheck 0xE#32 ∧ failsCheck 0x10#32 ∧ failsCheck 0x80#32 ∧ failsCheck 0x4000#32 ∧
      failsCheck 0x80000000#32 ∧ failsCheck 0x100#32 ∧ failsCheck 0x10F#32 ∧ ¬ failsCheck 0x3F01#32 ∧ ¬ failsCheck 0xF#32 ∧
      decode 0#32 = .ok .nop := by
  refine ⟨?_, ?_, ?_, ?_, ?_, ?_, ?_, ?_, ?_, ?_, ?_⟩ <;> decide

theorem witness_lengths :
    decode 0x00000001#32 = .ok (.writeBits 0) ∧ decode 0x00002103#32 = .ok (.readBits 33) ∧
      (∃ t, exec (.writeBits 1) State.reset = .next t ∧ t.err = none) ∧
      ∃ t, exec (.readBits 32) (start (bytes [1#8, 2#8, 3#8, 4#8]) []) = .next t ∧ t.err = none :=
  ⟨by decide, by decide, next_of (fun t => t.err = none) (by decide), next_of (fun t => t.err = none) (by decide)⟩

theorem witness_stepRuns : (pending 2#32 [] []).busy = true ∧ decode (pending 2#32 [] []).cmd = .ok .closeWriter ∧
    ({ pending 2#32 [] [] with agenda := [.engine] } : State).agenda = .engine :: [] ∧ (pending 2#32 [] []).agenda = [] ∧
    Instr.reset.wellFormed = true ∧ (Instr.writeBits 0).wellFormed = true := by decide

theorem witness_nextEvent : ({ State.reset with agenda := [.offer .error] } : State).agenda = .offer .error :: [] ∧
    State.reset.agenda = [] ∧ State.reset.busy = false := by decide

theorem witness_commandWrite : (pending 0#32 [] []).busy = true ∧ (1#32 : Word) ≠ 0x0000000F#32 ∧
    ({ State.reset with err := some .badSymbol } : State).busy = false ∧
    ({ State.reset with err := some .badSymbol } : State).err ≠ none ∧ State.reset.busy = false ∧ State.reset.err = none := by
  decide

/-- The four ends of an engine turn, each in a busy state that meets the invariant. -/
theorem witness_engineTurn :
    (∃ s : State, Inv s ∧ s.busy = true ∧ handle .engine s = .fault (.uninit 5#10)) ∧
    (∃ s : State, Inv s ∧ s.busy = true ∧ handle .engine s = .next s) ∧
    (∃ s : State, Inv s ∧ s.busy = true ∧ ∃ t, handle .engine s = .next t ∧ t.err = none ∧ t.busy = false) ∧
    ∃ s : State, Inv s ∧ s.busy = true ∧ ∃ t, handle .engine s = .next t ∧ t.err = some .noCode :=
  ⟨⟨_, inv_near_reset { offered := [], answers := [], log := [] } [] { idx := 5#10, valid := true } 5#32 true [] (Memory.wf_nil _)
      (by decide), rfl, rfl⟩,
    ⟨_, inv_pending 0x00000103#32 [] [] (by decide), rfl, rfl⟩,
    ⟨_, inv_pending 0#32 [] [] (by decide), rfl, next_of (fun t => t.err = none ∧ t.busy = false) (by decide)⟩,
    ⟨_, inv_pending 8#32 [] [] (by decide), rfl, next_of (fun t => t.err = some .noCode) (by decide)⟩⟩

theorem witness_pendingStands : (pending 3#32 [] []).busy = true ∧ Event.offer .error ≠ .engine ∧ ¬ (Event.offer .error).resets ∧
    ∃ t, handle (.offer .error) (pending 3#32 [] []) = .next t := ⟨rfl, by decide, by decide, _, rfl⟩

/-- A pending word that is no command; one that would complete after two transactions; one that would be held after one, and
completes with one token more. -/
theorem witness_abandoned :
    (∃ s : State, Inv s ∧ s.busy = true ∧ failsCheck s.cmd) ∧
    (∃ s : State, Inv s ∧ s.busy = true ∧ decode s.cmd = .ok (.readBits 16) ∧
      ∃ u, exec (.readBits 16) s = .next u ∧ u.busy = false) ∧
    ∃ s : State, Inv s ∧ s.busy = true ∧ decode s.cmd = .ok (.readBits 16) ∧ exec (.readBits 16) s = .next s ∧
      ∃ u, exec (.readBits 16) { s with ports := { s.ports with offered := s.ports.offered ++ bytes [8#8] } } = .next u ∧
        u.busy = false :=
  ⟨⟨_, inv_pending 0xC#32 [] [] (by decide), rfl, by decide⟩,
    ⟨_, inv_pending 0x00001003#32 (bytes [7#8, 8#8]) [] (by decide), rfl, by decide,
      next_of (fun t => t.busy = false) (by decide)⟩,
    ⟨_, inv_pending 0x00001003#32 (bytes [7#8]) [] (by decide), rfl, by decide, rfl, next_of (fun t => t.busy = false) (by decide)⟩⟩

theorem aaaa_hasTree (toks : List Token) (ans : List Answer) : (loaded aaaa toks ans).hasTree aaaaTree :=
  hasTree_of 3 rfl (by rfl) (by change 3 ≤ 1024; decide)

/-- Each of the three appending commands, with a sink that accepts exactly what it sends. -/
theorem witness_appends :
    Appends { State.reset with arg := 1#32 } (.writeBits 1) [true] ∧
    (Appends { start [] (accepting 4) with arg := 0xFFFFFFFF#32 } (.writeBits 32) (List.replicate 32 true) ∧
      (start [] (accepting 4)).sinkAccepts 4) ∧
    Appends { State.reset with code := aaaaCodes, arg := 97#32 } .encodeSymbol [true] ∧
    (Appends (loaded aaaa [] (accepting 2)) .writeHeader aaaaTree.header ∧
      (loaded aaaa [] (accepting 2)).sinkAccepts ((0 + aaaaTree.header.length) / 8)) :=
  ⟨.writeBits 1 (by decide) (by decide), ⟨.writeBits 32 (by decide) (by decide), by decide⟩, .encodeSymbol _ (by decide),
    .writeHeader aaaaTree (aaaa_hasTree _ _), by decide⟩

/-- The sink stops them at the first byte and at the last. -/
theorem witness_appendsStopped :
    (Appends (loaded aaaa [] []) .writeHeader aaaaTree.header ∧
      (loaded aaaa [] []).ports.answers = List.replicate 0 .accept ++ [] ∧ 0 < (0 + aaaaTree.header.length) / 8) ∧
    (Appends (loaded aaaa [] [.accept, .reject]) .writeHeader aaaaTree.header ∧
      (loaded aaaa [] [.accept, .reject]).ports.answers = List.replicate 1 .accept ++ .reject :: [] ∧
      1 < (0 + aaaaTree.header.length) / 8) ∧
    (Appends (start [] [.reject]) (.writeBits 8) (fieldBits 8 0#32) ∧
      (start [] [.reject]).ports.answers = List.replicate 0 .accept ++ .reject :: [] ∧ 0 < (0 + 8) / 8) ∧
    Appends { start [] [.reject] with code := aaaaCodes, arg := 97#32, writer := { buf := 0#8, cnt := 7 } } .encodeSymbol [true] ∧
      0 < (7 + 1) / 8 :=
  ⟨⟨.writeHeader aaaaTree (aaaa_hasTree _ _), by decide, by decide⟩,
    ⟨.writeHeader aaaaTree (aaaa_hasTree _ _), by decide, by decide⟩,
    ⟨.writeBits 8 (by decide) (by decide), by decide, by decide⟩, .encodeSymbol _ (by decide), by decide⟩

theorem witness_closeWriter :
    State.reset.writer.cnt = 0 ∧
    ({ start [] [] with writer := { buf := 0x80#8, cnt := 1 } } : State).writer.cnt ≠ 0 ∧ (start [] []).ports.answers = [] ∧
    (start [] [.accept]).ports.answers = .accept :: [] ∧ (start [] [.reject]).ports.answers = .reject :: [] ∧
    ({ buf := 0xFE#8, cnt := 7 } : Writer).clean := by decide

/-- n = 1 from a held bit (no token), and n = 32 from an empty reader (four tokens). -/
theorem witness_readBits :
    1 ≤ ({ State.reset with reader := { buf := 1#8, cnt := 1 } } : State).inBits.length ∧
    (1 - 1 + 7) / 8 = 0 ∧ 32 ≤ (start (bytes [1#8, 2#8, 3#8, 4#8]) []).inBits.length ∧ (32 - 0 + 7) / 8 = 4 := by decide

/-- The three starving commands; IN then offers nothing, End, Error. -/
theorem witness_starves :
    (Starves State.reset (.readBits 1) ∧ State.reset.ports.offered.drop 0 = []) ∧
    (Starves (start (bytes [0xCB#8] ++ [.endOfStream]) []) .readHeader ∧
      (start (bytes [0xCB#8] ++ [.endOfStream]) []).ports.offered.drop 1 = .endOfStream :: []) ∧
    (Starves (loaded aaaa [.error] []) .decodeSymbol ∧ (loaded aaaa [.error] []).ports.offered.drop 0 = .error :: []) ∧
    Starves (loaded [(0, .internal 0#10 9#10)] (bytes [0#8]) []) .decodeSymbol :=
  ⟨⟨.readBits 1 (by decide) (by decide) (by decide), rfl⟩,
    ⟨.readHeader (.leaf 300#9) [false, false] (by decide) (by decide), rfl⟩,
    ⟨.decodeSymbol ⟨rfl, by decide, 0#10, .internal 1#10 2#10, rfl, by decide, rfl, .inr rfl⟩, rfl⟩,
    .decodeSymbol ⟨rfl, by decide, 0#10, .internal 0#10 9#10, by decide, by decide, rfl, .inl ⟨_, _, rfl⟩⟩⟩

/-- The depth-33 comb of CT-6. -/
def deepComb : Memory Node :=
  ((List.range 33).map fun i => (i, Node.internal (BitVec.ofNat 10 (i + 1)) (BitVec.ofNat 10 (64 + i)))) ++
    (33, Node.leaf 256#9) :: (List.range 33).map fun i => (64 + i, Node.leaf (BitVec.ofNat 9 (i + 1)))

/-- The comb goes down to the left, slot by slot. -/
theorem deepComb_comesTo (n : Nat) (hn : n ≤ 33) : comesTo 1024 deepComb 0#10 (List.replicate n .left) (BitVec.ofNat 10 n) := by
  have key : ∀ n k, n + k ≤ 33 → comesTo 1024 deepComb (BitVec.ofNat 10 k) (List.replicate n .left) (BitVec.ofNat 10 (k + n)) := by
    intro n
    induction n with
    | zero => intro k _; rfl
    | succ n ih =>
      intro k hk
      have hslot : ∀ k < 33, deepComb.read (BitVec.ofNat 10 k).toNat =
          some (.internal (BitVec.ofNat 10 (k + 1)) (BitVec.ofNat 10 (64 + k))) := by decide
      refine ⟨by rw [BitVec.toNat_ofNat]; omega, _, _, hslot k (by omega), ?_⟩
      rw [show k + (n + 1) = (k + 1) + n by omega]
      exact ih (k + 1) (by omega)
  simpa using key n 0 (by omega)

/-- A comb of n internal nodes, with t at its lower left end. -/
def deepTree : Nat → HTree → HTree
  | 0, t => t
  | n + 1, t => deepTree n (.node t (.leaf (BitVec.ofNat 9 (n + 1))))

/-- A tree of 515 nodes, two more than the smallest NODE_CAP: a comb to the left. -/
def longTree : HTree := .node (deepTree 256 (.leaf 0#9)) (.leaf 0#9)

theorem longTree_size : longTree.size = 515 := by
  have hs : ∀ n t, (deepTree n t).size = t.size + 2 * n := fun n => by
    induction n with
    | zero => intro t; rfl
    | succ n ih => intro t; simp [deepTree, ih, HTree.size]; omega
  simp [longTree, HTree.size, hs]

/-- A starved header that could not fit. -/
theorem witness_starvedLongHeader : ({ State.reset with params := smallest } : State).cap < longTree.size ∧
    Starves { State.reset with params := smallest } .readHeader :=
  ⟨by rw [longTree_size]; decide,
    .readHeader longTree (longTree.headerUpTo 513) (by rw [longTree, headerUpTo_node]; simp) (List.nil_append _)⟩

theorem witness_noRoot : State.reset.root.valid = false := rfl

/-- A root index equal to NODE_CAP, at its least value, and the last slot below it, never written. -/
theorem witness_rootSlot :
    ({ State.reset with params := smallest, root := { idx := 513#10, valid := true } } : State).cap ≤ 513 ∧
    512 < ({ State.reset with params := smallest, root := { idx := 512#10, valid := true } } : State).cap ∧
    State.reset.tree.read 512 = none := by decide

theorem leadingBytes_bytes (l : List Byte) : leadingBytes (bytes l) = l := by
  induction l with
  | nil => rfl
  | cons b l ih => simpa [bytes, leadingBytes] using ih

/-- The cycle of CT-8, WH-6 and SD-5, with a sink and a source that last to the fault. -/
theorem witness_selfLoop : ∃ (s : State) (rest : List Bool), s.root = { idx := 0#10, valid := true } ∧ (0#10 : Slot).toNat < s.cap ∧
    s.tree.read 0 = some (.internal 0#10 0#10) ∧ s.sinkAccepts ((s.writer.cnt.val + s.cap) / 8) ∧
    s.inBits = List.replicate s.cap false ++ rest := by
  obtain ⟨bs, pad, -, hb⟩ := exists_padded (List.replicate 1024 false)
  refine ⟨loaded [(0, .internal 0#10 0#10)] (bytes bs) (accepting 128), List.replicate pad false, rfl, ?_, rfl, ?_, ?_⟩
  · change 0 < 1024
    decide
  · change List.replicate ((0 + 1024) / 8) Answer.accept <+: accepting 128
    exact List.prefix_refl _
  · change streamBits (leadingBytes (bytes bs)) = List.replicate 1024 false ++ _
    rw [leadingBytes_bytes, hb]

theorem witness_genCodes :
    ((loaded aaaa [] []).hasTree aaaaTree ∧ aaaaTree.symbols.Nodup ∧ ∀ c ∈ aaaaTree.codes, c.1.length ≤ 32) ∧
    (∃ t, exec .genCodes (loaded aaaa [] []) = .next t ∧ t.err = none) ∧ 2 ≤ aaaaTree.leaves ∧
    (loaded [(0, .leaf 257#9)] [] []).hasTree (.leaf 257#9) ∧
    (∃ t, exec .genCodes (loaded [(0, .leaf 257#9)] [] []) = .next t ∧ t.err = none) ∧ (HTree.leaf 257#9).leaves = 1 ∧
    (258#9 : Symbol) ∉ aaaaTree.symbols :=
  ⟨⟨aaaa_hasTree _ _, by decide, by decide⟩, next_of (fun t => t.err = none) (by decide), by decide,
    hasTree_of 1 rfl (by decide) (by decide), next_of (fun t => t.err = none) (by decide), by decide, by decide⟩

/-- Faulting leaves in a RAM that holds no whole tree: a repeated symbol before a slot never written (2) and before a cycle; and
CT-6's leaf at depth 33. -/
theorem witness_firstFault :
    (comesTo 1024 [(0, .internal 1#10 2#10), (1, .internal 3#10 4#10), (3, .leaf 65#9), (4, .leaf 65#9)] 0#10
        [.left, .right (.leaf 65#9)] 4#10 ∧ visitsSoFar [.left, .right (.leaf 65#9)] = 3 ∧
      leavesSoFar [.left, .right (.leaf 65#9)] = [([false, false], 65#9)]) ∧
    (comesTo 1024 [(0, .internal 1#10 0#10), (1, .leaf 65#9)] 0#10 [.right (.leaf 65#9), .left] 1#10 ∧
      leavesSoFar [.right (.leaf 65#9), .left] = [([false], 65#9)]) ∧
    (comesTo 1024 deepComb 0#10 (List.replicate 33 .left) 33#10 ∧ deepComb.read 33 = some (.leaf 256#9) ∧
      (List.replicate 33 Descent.left).length = 33) :=
  ⟨⟨⟨by decide, 1#10, 2#10, rfl, by decide, 3#10, 4#10, rfl, ⟨by decide, rfl⟩, rfl⟩, by decide, by decide⟩,
    ⟨⟨by decide, 1#10, 0#10, rfl, ⟨by decide, rfl⟩, by decide, 1#10, 0#10, rfl, rfl⟩, by decide⟩,
    ⟨deepComb_comesTo 33 (by decide), by decide, rfl⟩⟩

/-- A leaf on the left, and on the right a slot never written. -/
def halfTree (ans : List Answer) : State := loaded [(0, .internal 1#10 2#10), (1, .leaf 65#9)] [] ans

/-- WRITE_HEADER on its way to the slot never written, a byte before it; the sink silent, and rejecting. -/
theorem witness_headerAtTheSink :
    ∀ ans, (halfTree ans).root.valid = true ∧
      comesTo (halfTree ans).cap (halfTree ans).tree (halfTree ans).root.idx [.right (.leaf 65#9)] 2#10 ∧
      visitsSoFar [.right (.leaf 65#9)] ≤ (halfTree ans).cap ∧ (halfTree []).ports.answers = List.replicate 0 .accept ++ [] ∧
      (halfTree [.reject]).ports.answers = List.replicate 0 .accept ++ .reject :: [] ∧
      0 < ((halfTree ans).writer.cnt.val + (headerSoFar [.right (.leaf 65#9)]).length) / 8 :=
  fun _ => ⟨rfl, ⟨by change 0 < 1024; decide, 1#10, 2#10, rfl, ⟨by change 1 < 1024; decide, rfl⟩, rfl⟩,
    by change 2 ≤ 1024; decide, rfl, rfl, by change 0 < (0 + 11) / 8; decide⟩

theorem witness_headers :
    (start (bytes [0x60#8, 0x33#8, 0x0F#8]) []).inBits = aaaaTree.header ++ [true, true, true] ∧ aaaaTree.size ≤ 513 ∧
    (loaded aaaa [] (accepting 3)).hasTree aaaaTree ∧ (loaded aaaa [] (accepting 3)).writer = { buf := 0#8, cnt := 0 } ∧
    (loaded aaaa [] (accepting 3)).sinkAccepts [0x60#8, 0x33#8, 0x08#8].length ∧
    streamBits [0x60#8, 0x33#8, 0x08#8] = aaaaTree.header ++ List.replicate 3 false ∧
    (start (bytes [0x60#8, 0x33#8, 0x08#8] ++ [.error]) []).ports.offered = [0x60#8, 0x33#8, 0x08#8].map .byte ++ [.error] :=
  ⟨by decide, by decide, aaaa_hasTree _ _, by decide, by decide, by decide, by simp [start, bytes]⟩

/-- The first 513 nodes of a header of 515: the header is incomplete, and cannot fit. -/
theorem witness_longHeader : ∃ (s : State) (rest : List Bool), s.cap < longTree.size ∧
    s.inBits = longTree.headerUpTo s.cap ++ rest := by
  obtain ⟨bs, pad, -, hb⟩ := exists_padded (longTree.headerUpTo 513)
  refine ⟨{ start (bytes bs) [] with params := smallest }, List.replicate pad false, by rw [longTree_size]; change 513 < 515; decide, ?_⟩
  change streamBits (leadingBytes (bytes bs)) = _
  rw [leadingBytes_bytes, hb]
  rfl

theorem witness_encodeSymbolWithoutCode : State.reset.codeOf (State.reset.arg.extractLsb' 0 9) = none := rfl

/-- Two bytes with codes; then nothing, End (257 with and without a code), Error, or a byte without a code. -/
theorem witness_encodeStream :
    (∃ bits, ({ start (bytes [0x61#8, 0x61#8] ++ [.endOfStream]) (accepting 1) with code := aaaaCodes } : State).encodeAll
        ([0x61#8, 0x61#8].map (BitVec.setWidth 9) ++ [257#9]) = some bits ∧ bits = [true, true, false] ∧
      State.reset.writer.clean ∧ (start [] (accepting 1)).sinkAccepts ((0 + bits.length + 7) / 8)) ∧
    ({ State.reset with code := aaaaCodes } : State).encodeAll ([0x61#8].map (BitVec.setWidth 9)) = some [true] ∧
    ({ State.reset with code := aaaaCodes } : State).codeOf ((0x62#8).setWidth 9) = none ∧
    ({ State.reset with code := [(97, { valid := true, len := 1#6, pat := 1#32 })] } : State).codeOf 257#9 = none :=
  ⟨⟨[true, true, false], by decide, rfl, by decide, by decide⟩, by decide, by decide, by decide⟩

/-- A root that is its own left child, with a leaf on the right: no tree, yet the bit 1 leads to the leaf. -/
def loopWith (sym : Symbol) (toks : List Token) : State := loaded [(0, .internal 0#10 1#10), (1, .leaf sym)] toks (accepting 1)

theorem loopWith_walks (sym : Symbol) (toks : List Token) : (loopWith sym toks).walksTo [true] sym :=
  ⟨rfl, .inl ⟨by decide, by change 1 < 1024; decide, 1#10, rfl, by change 1 < 1024; decide, rfl⟩⟩

theorem loopWith_goesOn (sym : Symbol) (toks : List Token) : (loopWith sym toks).walkGoesOn [false] :=
  ⟨rfl, by change 1 < 1024; decide, 0#10, .internal 0#10 1#10, rfl, by change 0 < 1024; decide, rfl, .inl ⟨_, _, rfl⟩⟩

/-- Walks over a RAM that holds no tree, over a held bit and over a consumed byte; and at a root that is a leaf, over the bit 1. -/
theorem witness_walk :
    ((loopWith 97#9 (bytes [0x80#8])).walksTo [true] 97#9 ∧
      (loopWith 97#9 (bytes [0x80#8])).inBits = [true] ++ List.replicate 7 false ∧ tokensFor 0 1 = 1) ∧
    (({ loopWith 97#9 [] with reader := { buf := 1#8, cnt := 1 } } : State).walksTo [true] 97#9 ∧
      ({ loopWith 97#9 [] with reader := { buf := 1#8, cnt := 1 } } : State).inBits = [true] ++ [] ∧ tokensFor 1 1 = 0) ∧
    (loaded [(0, .leaf 257#9)] [] []).walksTo [true] 257#9 :=
  ⟨⟨loopWith_walks _ _, by decide, rfl⟩, ⟨loopWith_walks _ [], by decide, rfl⟩,
    ⟨rfl, .inr ⟨rfl, by change 0 < 1024; decide, rfl⟩⟩⟩

/-- DECODE_STREAM over a byte and pseudo-EOF; no bytes and a symbol that is neither; and a walk that runs out, IN then offering
nothing, End, Error. -/
theorem witness_decodeStream :
    (loaded aaaa (bytes [0x80#8]) (accepting 1)).walksThrough ([0x61#8].map (BitVec.setWidth 9) ++ [257#9])
      (loaded aaaa (bytes [0x80#8]) (accepting 1)).inBits (List.replicate 6 false) ∧
    (loaded aaaa (bytes [0x80#8]) (accepting 1)).sinkAccepts [0x61#8].length ∧
    ((loopWith 256#9 (bytes [0x80#8])).walksThrough ([] : List Symbol) (loopWith 256#9 (bytes [0x80#8])).inBits
        ([true] ++ List.replicate 7 false) ∧ (loopWith 256#9 (bytes [0x80#8])).walksTo [true] 256#9) ∧
    (loopWith 511#9 []).walksTo [true] 511#9 ∧
    (({ loopWith 97#9 [] with reader := { buf := 2#8, cnt := 2 } } : State).walksThrough ([0x61#8].map (BitVec.setWidth 9))
        ({ loopWith 97#9 [] with reader := { buf := 2#8, cnt := 2 } } : State).inBits [false] ∧
      ({ loopWith 97#9 [] with reader := { buf := 2#8, cnt := 2 } } : State).walkGoesOn [false]) ∧
    (loopWith 97#9 []).ports.offered.drop 0 = [] ∧ (loopWith 97#9 [.endOfStream]).ports.offered.drop 0 = .endOfStream :: [] ∧
    (loopWith 97#9 [.error]).ports.offered.drop 0 = .error :: [] :=
  ⟨⟨[true], List.replicate 7 false, by decide, (aaaa_hasTree _ _).walksTo (by decide), [false],
      List.replicate 6 false, by decide, (aaaa_hasTree _ _).walksTo (by decide), rfl⟩,
    by decide, ⟨by change _ = _; decide, loopWith_walks _ _⟩, loopWith_walks _ _,
    ⟨⟨[true], [false], by decide, loopWith_walks _ [], rfl⟩, loopWith_goesOn _ []⟩, rfl, rfl, rfl⟩

/-- A sink that is silent at a byte whose code fills a byte, and one that rejects after End, whose padding does. -/
def silentSink : State := { start (bytes [0x61#8]) [] with code := aaaaCodes, writer := { buf := 0#8, cnt := 7 } }

def rejectingSink : State := { start [.endOfStream] [.reject] with code := aaaaCodes }

theorem witness_encodeStreamAtTheSink :
    (silentSink.ports.offered = ([] : List Byte).map .byte ++ .byte 0x61#8 :: [] ∧
      silentSink.encodeAll (([] : List Byte).map (BitVec.setWidth 9)) = some [] ∧
      silentSink.codeOf ((0x61#8).setWidth 9) = some [true] ∧ silentSink.ports.answers = List.replicate 0 .accept ++ [] ∧
      (silentSink.writer.cnt.val + 0) / 8 ≤ 0 ∧ 0 < (silentSink.writer.cnt.val + 0 + 1 + 0) / 8) ∧
    (rejectingSink.ports.offered = ([] : List Byte).map .byte ++ .endOfStream :: [] ∧
      rejectingSink.codeOf 257#9 = some [false] ∧ rejectingSink.writer.clean ∧
      rejectingSink.ports.answers = List.replicate 0 .accept ++ .reject :: [] ∧
      (8 - (rejectingSink.writer.cnt.val + 0 + 1) % 8) % 8 = 7 ∧ 0 < (rejectingSink.writer.cnt.val + 0 + 1 + 7) / 8) :=
  ⟨⟨rfl, rfl, by decide, rfl, by decide, by decide⟩, rfl, by decide, by decide, rfl, by decide, by decide⟩

/-- DECODE_STREAM at its first byte; the sink silent, and rejecting. -/
theorem witness_decodeStreamAtTheSink :
    (loaded aaaa (bytes [0x80#8]) []).walksThrough (([] ++ [0x61#8]).map (BitVec.setWidth 9))
      (loaded aaaa (bytes [0x80#8]) []).inBits (List.replicate 7 false) ∧
    (loaded aaaa (bytes [0x80#8]) []).ports.answers = List.replicate 0 .accept ++ [] ∧
    (loaded aaaa (bytes [0x80#8]) [.reject]).ports.answers = List.replicate 0 .accept ++ .reject :: [] :=
  ⟨⟨[true], _, by decide, (aaaa_hasTree _ _).walksTo (by decide), rfl⟩, rfl, rfl⟩

/-- A right child at NODE_CAP or above (CT-9), one never written, and a cycle to the bound. -/
theorem witness_badSlots :
    (comesTo 513 [(0, .internal 1#10 513#10), (1, .leaf 65#9)] 0#10 [.right (.leaf 65#9)] 513#10 ∧
      513 ≤ (513#10 : Slot).toNat ∧ visitsSoFar [.right (.leaf 65#9)] ≤ 513 ∧
      ((leavesSoFar [.right (.leaf 65#9)]).map Prod.snd).Nodup ∧
      ∀ c ∈ leavesSoFar [.right (.leaf 65#9)], c.1.length ≤ 32) ∧
    (comesTo 513 [(0, .internal 512#10 1#10)] 0#10 [.left] 512#10 ∧
      Memory.read [(0, Node.internal 512#10 1#10)] 512 = none ∧ (512#10 : Slot).toNat < 513 ∧ visitsSoFar [.left] < 513) ∧
    (comesTo 513 [(0, .internal 0#10 0#10)] 0#10 (List.replicate 513 .left) 0#10 ∧
      visitsSoFar (List.replicate 513 .left) = 513) :=
  ⟨⟨⟨by decide, 1#10, 513#10, by decide, ⟨by decide, by decide⟩, rfl⟩, by decide, by decide, by decide, by decide⟩,
    ⟨⟨by decide, 512#10, 1#10, by decide, rfl⟩, by decide, by decide, by decide⟩,
    comesTo_loop (r := 0#10) (by decide) (by decide) 513, visitsSoFar_lefts 513⟩

/-- A walk to such a slot, after one that yields a byte. -/
theorem witness_badWalks :
    let s := loaded [(0, .internal 1#10 2#10), (1, .leaf 65#9)] (bytes [0x40#8]) (accepting 1)
    s.root.valid = true ∧ s.leafAlong [false] ((65#8).setWidth 9) ∧ slotAlong s.cap s.tree s.root.idx [true] = some 2#10 ∧
    s.inBits = ([([false], 65#8)] : List (List Bool × Byte)).flatMap Prod.fst ++ [true] ++ List.replicate 6 false ∧
    s.sinkAccepts 1 ∧ s.tree.read 2 = none ∧
    slotAlong 513 [(0, .internal 0#10 1023#10)] 0#10 [true] = some 1023#10 ∧
    slotAlong 513 [(0, .internal 0#10 1023#10)] 0#10 (List.replicate 513 false) = some 0#10 :=
  ⟨rfl, ⟨by decide, by decide, 1#10, by decide, by decide, by decide⟩, by decide, by decide, by decide, by decide, by decide,
    slotAlong_loop (r := 1023#10) (by decide) (by decide) 513⟩

/-- HV-2: all the hypotheses of the round trip together, and a block for the other half. -/
theorem witness_roundTrip :
    let s := loaded aaaa (bytes [0x61#8, 0x61#8, 0x61#8, 0x61#8] ++ [.endOfStream]) (accepting 23)
    let v := start (bytes [0x60#8, 0x33#8, 0x0F#8, 0x80#8] ++ [.endOfStream]) (accepting 4)
    (s.busy = false ∧ s.err = none ∧ s.writer = { buf := 0#8, cnt := 0 } ∧ s.hasTree aaaaTree ∧ aaaaTree.symbols.Nodup ∧
      (∀ c ∈ aaaaTree.codes, c.1.length ≤ 32) ∧ 257#9 ∈ aaaaTree.symbols ∧
      (∀ b ∈ [0x61#8, 0x61#8, 0x61#8, 0x61#8], b.setWidth 9 ∈ aaaaTree.symbols) ∧
      s.ports.offered = [0x61#8, 0x61#8, 0x61#8, 0x61#8].map .byte ++ .endOfStream :: [] ∧
      s.sinkAccepts ((aaaaTree.header.length + 32 * (4 + 1) + 7) / 8)) ∧
    (v.busy = false ∧ v.err = none ∧ v.reader.cnt = 0 ∧ aaaaTree.size ≤ v.cap ∧ v.sinkAccepts 4 ∧
      v.ports.offered = [0x60#8, 0x33#8, 0x0F#8, 0x80#8].map .byte ++ [.endOfStream]) :=
  ⟨⟨rfl, rfl, rfl, aaaa_hasTree _ _, by decide, by decide, by decide, by decide, by decide, by decide⟩,
    rfl, rfl, rfl, by decide, by decide, by decide⟩

/-- A fault of each kind the port statement names, and one that no port causes. -/
theorem witness_faults :
    (∃ t, exec (.writeBits 8) (start [] [.reject]) = .next t ∧ t.err = some .sinkUnwritable) ∧
    (∃ t, exec (.readBits 1) (start [.error] []) = .next t ∧ t.err = some .sourceUnreadable) ∧
    (∃ t, exec (.readBits 1) (start [.endOfStream] []) = .next t ∧ t.err = some .truncatedStream) ∧
    ∃ t, exec .genCodes State.reset = .next t ∧ t.err ≠ none :=
  ⟨next_of (fun t => t.err = some .sinkUnwritable) (by decide), next_of (fun t => t.err = some .sourceUnreadable) (by decide),
    next_of (fun t => t.err = some .truncatedStream) (by decide), next_of (fun t => t.err ≠ none) (by decide)⟩

/-- A block in error, as a fault leaves it; the next event is no reset, or is one. -/
def inError (ag : List Event) : State := { State.reset with cmd := 0xC#32, err := some .badCommand, errInfo := 0xC#10, agenda := ag }

theorem inv_inError (ag : List Event) : Inv (inError ag) where
  tree_wf := Memory.wf_nil _
  code_wf := Memory.wf_nil _
  ncnt_le := Nat.zero_le _
  errInfo_zero := fun h => nomatch h
  not_busy := fun _ => rfl
  latched := fun h => nomatch h
  saw_idle := fun _ => rfl
  writer_clean := fun h => nomatch h
  code_whole := fun h => nomatch h

theorem witness_sticky :
    (Inv (inError [.host (.write 32 0x0004#14 0#32)]) ∧
      ¬ (inError [.host (.write 32 0x0004#14 0#32)]).nextEvent.resets ∧
      ∃ t, step (inError [.host (.write 32 0x0004#14 0#32)]) = .next t ∧ t.overrun = true) ∧
    (Inv (inError [.hardwareReset]) ∧ (inError [.hardwareReset]).nextEvent.resets ∧
      ∃ t, step (inError [.hardwareReset]) = .next t ∧ t.err = none) ∧
    (Inv State.reset ∧ ¬ State.reset.nextEvent.resets ∧ ∃ t, step State.reset = .next t ∧ t.overrun = false) :=
  ⟨⟨inv_inError _, by decide, next_of (fun t => t.overrun = true) (by decide)⟩,
    ⟨inv_inError _, by decide, next_of (fun t => t.err = none) (by decide)⟩,
    ⟨inv_near_reset _ [] _ 0#32 false [] (Memory.wf_nil _) (by decide), by decide,
      next_of (fun t => t.overrun = false) (by decide)⟩⟩

/-- An idle block at reset, with events to come. -/
def waiting (saw : Bool) (ag : List Event) : State := { State.reset with sawIdle := saw, agenda := ag }

theorem inv_waiting (saw : Bool) (ag : List Event) : Inv (waiting saw ag) where
  tree_wf := Memory.wf_nil _
  code_wf := Memory.wf_nil _
  ncnt_le := Nat.zero_le _
  errInfo_zero := fun _ => rfl
  not_busy := fun _ => rfl
  latched := fun h => nomatch h
  saw_idle := fun _ => rfl
  writer_clean := fun _ => (by decide : State.reset.writer.clean)
  code_whole := fun _ k e h => nomatch h

/-- R204: the STATUS read that ends a sequence, IN still offering; one that does not, a command being still to come; a pending
command; and a sequence that has ended. -/
theorem witness_runEnds :
    (Inv (waiting false [.host (.read 32 0x0010#14), .offer .error]) ∧
      (waiting false [.host (.read 32 0x0010#14), .offer .error]).ended = false ∧
      ∃ t, step (waiting false [.host (.read 32 0x0010#14), .offer .error]) = .next t ∧ t.ended = true) ∧
    (Inv (waiting false [.host (.read 32 0x0010#14), .host (.write 32 0x0004#14 0#32)]) ∧
      (waiting false [.host (.read 32 0x0010#14), .host (.write 32 0x0004#14 0#32)]).ended = false ∧
      ∃ t, step (waiting false [.host (.read 32 0x0010#14), .host (.write 32 0x0004#14 0#32)]) = .next t ∧ t.ended = false) ∧
    (Inv (pending 3#32 [] []) ∧ (pending 3#32 [] []).busy = true ∧ ∃ t, step (pending 3#32 [] []) = .next t ∧ t.ended = false) ∧
    (Inv (waiting true [.offer .error]) ∧ (waiting true [.offer .error]).ended = true ∧
      ¬ (waiting true [.offer .error]).nextEvent.resets ∧
      ∃ t, step (waiting true [.offer .error]) = .next t ∧ t.ended = true) :=
  ⟨⟨inv_waiting _ _, rfl, next_of (fun t => t.ended = true) (by decide)⟩,
    ⟨inv_waiting _ _, rfl, next_of (fun t => t.ended = false) (by decide)⟩,
    ⟨inv_pending _ _ _ (by decide), rfl, next_of (fun t => t.ended = false) (by decide)⟩,
    ⟨inv_waiting _ _, rfl, by decide, next_of (fun t => t.ended = true) (by decide)⟩⟩

/-- STATUS with the highest code. -/
theorem witness_errorCode : (inError []).err = some .badCommand ∧
    (statusWord { inError [] with err := some .badSymbol }).extractLsb' 8 4 = 10#4 := by decide

theorem witness_access : (16 : Nat) ≠ 32 ∧ (0x0002#14 : Offset).toNat % 4 ≠ 0 ∧ (0x3FFC#14 : Offset).toNat % 4 = 0 := by decide

/-- The ends of the windows: reserved 0x28, 0xFFC, 0x3000, 0x3FFC; tree slots 0 and 1023; entries 0 and 511. -/
theorem witness_offsets :
    (0x0FFC#14 : Offset).toNat < 0x1000 ∧ 0x0028 ≤ (0x0028#14 : Offset).toNat ∧ 0x3000 ≤ (0x3000#14 : Offset).toNat ∧
    (0x1000#14 : Offset).toNat = 0x1000 + 4 * 0 ∧ (0x1FFC#14 : Offset).toNat = 0x1000 + 4 * 1023 ∧
    (0x2000#14 : Offset).toNat = 0x2000 + 8 * (0#9 : Symbol).toNat ∧ (0x2FF8#14 : Offset).toNat = 0x2000 + 8 * (511#9 : Symbol).toNat ∧
    (0x2FFC#14 : Offset).toNat = 0x2004 + 8 * (511#9 : Symbol).toNat ∧
    ({ State.reset with params := smallest } : State).cap ≤ 513 ∧ (loaded aaaa [] []).tree.read 0 = some (.internal 1#10 2#10) ∧
    (loaded aaaa [] []).tree.read 1 = some (.leaf 257#9) ∧
    ({ State.reset with code := aaaaCodes } : State).code.read (97#9 : Symbol).toNat =
      some { valid := true, len := 1#6, pat := 1#32 } := by decide

theorem witness_idleWrite : State.reset.busy = false ∧ (0x1FFC#14 : Offset) ≠ 0x0004#14 ∧ 1023 < State.reset.cap ∧
    (0x0028#14 : Offset) ≠ 0x0008#14 ∧ (0x0028#14 : Offset) ≠ 0x001C#14 := by decide

theorem witness_busyAccess : (pending 3#32 [] []).busy = true ∧ (0x0020#14 : Offset).toNat < 0x0024 ∧
    0x1000 ≤ (0x2FFC#14 : Offset).toNat ∧ (0x2FFC#14 : Offset).toNat < 0x3000 := by decide

/-- GEN_CODES changes the table in a step from a state that meets the invariant. -/
theorem witness_codeTable : ∃ s : State, Inv s ∧ ∃ t, step s = .next t ∧ t.code ≠ s.code :=
  ⟨_, inv_near_reset { offered := [], answers := [], log := [] } aaaa { idx := 0#10, valid := true } 5#32 true [] (by decide)
      (by decide), next_of (fun t => t.code ≠ []) (by decide)⟩

/-- A command other than RESET that completes, from a block without an error. -/
theorem witness_frame : Instr.decodeStream ≠ .reset ∧ State.reset.err = none ∧
    ∃ t, exec .decodeStream (loaded [(0, .leaf 257#9)] (bytes [0#8]) []) = .next t ∧ t.err = none :=
  ⟨by decide, rfl, next_of (fun t => t.err = none) (by decide)⟩

end Sys2Proof.Tests
end

section
/-! SUPPORT. One step by the shape of the agenda (log entries 1, 2), and the turn of an idle engine (70_reset R193). -/

namespace Sys2Proof.Machine

theorem step_of_agenda_cons {s : State} {e : Event} {rest : List Event} (h : s.agenda = e :: rest) :
    step s = handle e (s.setAgenda rest) := by
  rw [step_eq_handle, State.nextEvent, h, List.headD_cons, List.tail_cons]

theorem step_of_agenda_nil {s : State} (h : s.agenda = []) : step s = handle .engine s := by
  have hkeep : s.setAgenda [] = s := by rw [← h]; rfl
  rw [step_eq_handle, State.nextEvent, h, List.headD_nil, List.tail_nil, hkeep]

theorem handle_engine_idle {s : State} (h : s.busy = false) : handle .engine s = .next s := by
  simp [handle, engineTurn, h]

@[simp] theorem handle_offer (t : Token) (s : State) : handle (.offer t) s = .next (offerToken t s) := rfl

@[simp] theorem handle_answer (a : Answer) (s : State) : handle (.answer a) s = .next (giveAnswer a s) := rfl

/-- Settles O7: the agenda is empty or not, a port's event joins its queue, and an idle engine waits. -/
theorem stepHandlesTheNextEvent : Obligations.StepHandlesTheNextEvent :=
  ⟨fun _ _ _ => step_of_agenda_cons, fun _ => step_of_agenda_nil, fun s t => handle_offer t s,
    fun s a => handle_answer a s, fun _ => handle_engine_idle⟩

end Sys2Proof.Machine
end

section
/-! SUPPORT. The invariant of a run (Safety.lean): reset and fault entry establish it, and every turn of `Turn` keeps it. -/

namespace Sys2Proof.Machine

/-- What the invariant does not speak of may change freely, the tree RAM canonically, the record of log entry 14 while idle. -/
theorem Inv.update {s : State} (h : Inv s) {m : Memory Node} (hm : m.wf s.cap) {b : Bool} (hb : b = true → s.busy = false)
    (a : Word) (o : Bool) (r : Root) (p : Ports) (l : List Event) (w : List Word) (d : Nat) :
    Inv { s with
      arg := a, overrun := o, root := r, tree := m, ports := p, agenda := l, reads := w, sawIdle := b, draws := d } where
  tree_wf := hm
  code_wf := h.code_wf
  ncnt_le := h.ncnt_le
  errInfo_zero := h.errInfo_zero
  not_busy := h.not_busy
  latched := h.latched
  saw_idle := hb
  writer_clean := h.writer_clean
  code_whole := h.code_whole

theorem inv_resetBlock (s : State) : Inv (resetBlock s) where
  tree_wf := Memory.wf_nil _
  code_wf := Memory.wf_nil _
  ncnt_le := Nat.zero_le _
  errInfo_zero _ := rfl
  not_busy _ := rfl
  latched h := by cases h
  saw_idle _ := rfl
  writer_clean _ := clean_empty
  code_whole _ _ _ he := by cases he

theorem inv_faultEntry (e : ErrorKind) (i : BitVec 10) (s : State) : Inv (faultEntry e i s) where
  tree_wf := by rw [faultEntry_tree]; exact Memory.wf_tabulate _ _
  code_wf := by rw [faultEntry_code]; exact Memory.wf_tabulate _ _
  ncnt_le := faultEntry_ncnt_le e i s
  errInfo_zero h := by cases h
  not_busy _ := rfl
  latched h := by cases h
  saw_idle _ := rfl
  writer_clean h := by cases h
  code_whole h := by cases h

/-- Pseudocode that ran to its end, with BUSY cleared, keeps the invariant. -/
theorem BodyLaw.inv_setBusy {s u : State} (h : BodyLaw s u) (hs : Inv s) : Inv (u.setBusy false) where
  tree_wf := (h.tree ⟨hs.tree_wf, hs.ncnt_le⟩).1
  code_wf := h.codeWf hs.code_wf
  ncnt_le := (h.tree ⟨hs.tree_wf, hs.ncnt_le⟩).2
  errInfo_zero he := h.frame.errInfo.trans (hs.errInfo_zero (h.frame.err.symm.trans he))
  not_busy _ := rfl
  latched hb := by cases hb
  saw_idle _ := rfl
  writer_clean he := h.clean (hs.writer_clean (h.frame.err.symm.trans he))
  code_whole he := h.codeWhole (hs.code_whole (h.frame.err.symm.trans he))

theorem exec_keeps_inv {i : Instr} (hi : i ≠ .reset) {s t : State} (h : Inv s) (hx : exec i s = .next t) : Inv t := by
  rcases exec_next_cases hi hx with ⟨u, -, hl, rfl⟩ | ⟨e, info, u, -, -, rfl⟩ | ⟨-, rfl⟩
  · exact hl.inv_setBusy h
  · exact inv_faultEntry e info _
  · exact h

/-- A host store writes the tree RAM only below NODE_CAP. -/
theorem storeReg_tree_wf (r : Reg) (v : Word) {s : State} (h : s.tree.wf s.cap) : (storeReg r v s).tree.wf s.cap := by
  cases r with
  | tree i =>
    simp only [storeReg]
    split
    · next hi => exact Memory.wf_write _ h hi
    · exact h
  | _ => exact h

theorem acceptCommand_inv {s : State} {v : Word} (h : Inv s) (he : s.err = none) (hv : v ≠ resetWord) :
    Inv (acceptCommand v (s.setSawIdle false)) where
  tree_wf := h.tree_wf
  code_wf := h.code_wf
  ncnt_le := h.ncnt_le
  errInfo_zero := h.errInfo_zero
  not_busy hne := absurd he hne
  latched _ := hv
  saw_idle hw := by cases hw
  writer_clean := h.writer_clean
  code_whole := h.code_whole

theorem Turn.keeps_inv {e : Event} {s t : State} (h : Turn e s t) (hs : Inv s) : Inv t := by
  cases h with
  | reset _ => exact inv_resetBlock _
  | idle _ => exact hs
  | badWord _ _ _ => exact inv_faultEntry _ _ s
  | runs _ i _ hr hx => exact exec_keeps_inv hr hs hx
  | reads off _ =>
    refine hs.update hs.tree_wf (fun hw => ?_) _ _ _ _ _ _ _
    rcases Bool.or_eq_true_iff.1 hw with hw | hw
    · simpa using (Bool.and_eq_true_iff.1 hw).2
    · exact hs.saw_idle hw
  | drops off v _ _ _ =>
    exact hs.update hs.tree_wf (fun hw => hs.saw_idle (Bool.and_eq_true_iff.1 hw).2) _ true _ _ _ _ _
  | accepts v _ he hv => exact acceptCommand_inv hs he hv
  | stores off v _ _ _ =>
    rw [storeReg_frame]
    exact hs.update (storeReg_tree_wf _ v hs.tree_wf) hs.saw_idle _ _ _ _ _ _ _
  | offers tok => exact hs.update hs.tree_wf hs.saw_idle _ _ _ _ _ _ _
  | answers a => exact hs.update hs.tree_wf hs.saw_idle _ _ _ _ _ _ _

/-- Everything a step from a state of the invariant has done. -/
theorem Inv.turn {s t : State} (h : Inv s) (hx : step s = .next t) : Turn s.nextEvent (s.setAgenda s.agenda.tail) t :=
  turn_of_step h.latched hx

/-- Settles O48: taking the event off the agenda changes nothing the invariant speaks of, and every turn keeps it. -/
theorem everyStepKeepsTheInvariant : Obligations.EveryStepKeepsTheInvariant := fun _ _ h hx =>
  (h.turn hx).keeps_inv (h.update h.tree_wf h.saw_idle _ _ _ _ _ _ _)

/-- Settles O49: the state after reset is a block that has been reset. -/
theorem invariantHoldsAtReset : Obligations.InvariantHoldsAtReset := inv_resetBlock State.reset

end Sys2Proof.Machine
end

section
/-! SUPPORT. The frame of each command ("Flags written", "State written" of 40_bitstream to 44_control): which commands set
RESULT and EOS, use the bit writer and the bit reader, load the tree, write the code table; and that no command but RESET
writes CMD, ARG or OVERRUN. -/

namespace Sys2Proof

/-- The commands that set RESULT (10_state R29). -/
def Instr.setsResult : Instr → Bool
  | .readBits _ | .encodeStream | .decodeSymbol | .decodeStream => true
  | _ => false

/-- The commands that set EOS (10_state R32). -/
def Instr.setsEos : Instr → Bool
  | .decodeSymbol | .decodeStream => true
  | _ => false

/-- The commands that use the bit writer (20_memory R62). -/
def Instr.usesWriter : Instr → Bool
  | .writeBits _ | .closeWriter | .writeHeader | .encodeSymbol | .encodeStream => true
  | _ => false

/-- The commands that use the bit reader (20_memory R61). -/
def Instr.usesReader : Instr → Bool
  | .readBits _ | .readerAlign | .readHeader | .decodeSymbol | .decodeStream => true
  | _ => false

end Sys2Proof

namespace Sys2Proof.Machine

/-- f sees nothing that command i may write. What f does not see anyway is the default of each field. -/
structure Unseen {β : Type} (i : Instr) (f : State → β) : Prop where
  result : i.setsResult = true → ∀ s w, f (s.setResult w) = f s := by intros; rfl
  eos : i.setsEos = true → ∀ s b, f (s.setEos b) = f s := by intros; rfl
  writer : i.usesWriter = true → BlindToWriter f := by exact fun _ => ⟨fun _ _ => rfl, fun _ _ _ _ => rfl⟩
  reader : i.usesReader = true → BlindToReader f := by exact fun _ => ⟨fun _ _ => rfl, fun _ _ _ => rfl⟩
  rawIn : i = .encodeStream → ∀ (s : State) (l : List Token) (t : Token),
    f (s.setPorts { s.ports with offered := l, log := s.ports.log ++ [.took t] }) = f s := by intros; rfl
  rawOut : i = .decodeStream → ∀ (s : State) (l : List Answer) (o : PortOp), o.token = none →
    f (s.setPorts { s.ports with answers := l, log := s.ports.log ++ [o] }) = f s := by intros; rfl
  root : i = .readHeader → ∀ s r, f (s.setRoot r) = f s := by intros; rfl
  ncnt : i = .readHeader → ∀ s n, f (s.setNcnt n) = f s := by intros; rfl
  tree : i = .readHeader → ∀ s m, f (s.setTree m) = f s := by intros; rfl
  code : i = .genCodes → ∀ s m, f (s.setCode m) = f s := by intros; rfl

section Bodies
variable {β : Type} {f : State → β}

theorem writeBitsBody_keeps (h : BlindToWriter f) (n : Nat) (s : State) : (writeBitsBody n s).Ends (Keeps f) s := by
  unfold writeBitsBody
  split
  · exact writeBits_keeps h _ _ s
  · rfl

theorem readBitsBody_keeps (h : BlindToReader f) (hr : ∀ s w, f (s.setResult w) = f s) (n : Nat) (s : State) :
    (readBitsBody n s).Ends (Keeps f) s := by
  unfold readBitsBody
  split
  · exact (readBits_keeps h n s).bind (keeps_chains f) fun v t => hr t v
  · rfl

theorem encodeStreamBody_keeps (h : BlindToWriter f) (hr : ∀ s w, f (s.setResult w) = f s)
    (hp : ∀ (s : State) (l : List Token) (t : Token),
      f (s.setPorts { s.ports with offered := l, log := s.ports.log ++ [.took t] }) = f s) (s : State) :
    (encodeStreamBody s).Ends (Keeps f) s :=
  (encodeLoop_keeps h hp _ _ s).bind (keeps_chains f) fun c t =>
    (encodeSym_keeps h _ t).bind (keeps_chains f) fun _ u => (closeWriter_keeps h u).bind (keeps_chains f) fun _ w => hr w c

theorem decodeSymbolBody_keeps (h : BlindToReader f) (hr : ∀ s w, f (s.setResult w) = f s)
    (he : ∀ s b, f (s.setEos b) = f s) (s : State) : (decodeSymbolBody s).Ends (Keeps f) s :=
  (walk_keeps h s).bind (keeps_chains f) fun _ t => (he _ _).trans (hr t _)

theorem decodeStreamBody_keeps (h : BlindToReader f) (hr : ∀ s w, f (s.setResult w) = f s)
    (he : ∀ s b, f (s.setEos b) = f s)
    (hp : ∀ (s : State) (l : List Answer) (o : PortOp), o.token = none →
      f (s.setPorts { s.ports with answers := l, log := s.ports.log ++ [o] }) = f s) (s : State) :
    (decodeStreamBody s).Ends (Keeps f) s := by
  refine Res.Ends.bind (s := s) (keeps_chains f) ?_ fun c t => hr t c
  exact Eq.trans (decodeLoop_keeps h he hp _ _ _) (he s false)

/-- What a command's pseudocode may not write it leaves alone, however it ends. -/
theorem commandBody_keeps {i : Instr} (h : Unseen i f) (s : State) : (commandBody i s).Ends (Keeps f) s := by
  cases i with
  | nop => rfl
  | writeBits n => exact writeBitsBody_keeps (h.writer rfl) n s
  | closeWriter => exact closeWriter_keeps (h.writer rfl) s
  | readBits n => exact readBitsBody_keeps (h.reader rfl) (h.result rfl) n s
  | readerAlign => exact (h.reader rfl).reader s _
  | genCodes => exact genCodesBody_keeps (h.code rfl) s
  | writeHeader => exact writeHeaderBody_keeps (h.writer rfl) s
  | readHeader => exact readHeaderBody_keeps (h.reader rfl) (h.ncnt rfl) (h.tree rfl) (h.root rfl) s
  | encodeSymbol => exact encodeSym_keeps (h.writer rfl) _ s
  | encodeStream => exact encodeStreamBody_keeps (h.writer rfl) (h.result rfl) (h.rawIn rfl) s
  | decodeSymbol => exact decodeSymbolBody_keeps (h.reader rfl) (h.result rfl) (h.eos rfl) s
  | decodeStream => exact decodeStreamBody_keeps (h.reader rfl) (h.result rfl) (h.eos rfl) (h.rawOut rfl) s
  | reset => rfl

/-- What a command may not write is as before when it has not faulted. -/
theorem exec_keeps {i : Instr} (hi : i ≠ .reset) (h : Unseen i f) (hb : ∀ s b, f (s.setBusy b) = f s) {s t : State}
    (hx : exec i s = .next t) (he : t.err = none) : f t = f s := by
  rcases exec_next_cases hi hx with ⟨u, hu, -, rfl⟩ | ⟨e, info, u, -, -, rfl⟩ | ⟨-, rfl⟩
  · exact (hb u false).trans (keeps_of_ok (commandBody_keeps h s) hu)
  · cases he
  · rfl

end Bodies

/-! ### What each register and RAM is written by -/

section Registers
variable {i : Instr}

theorem unseen_result (h : i.setsResult ≠ true) : Unseen i State.result where
  result h' := absurd h' h

theorem unseen_eos (h : i.setsEos ≠ true) : Unseen i State.eos where
  eos h' := absurd h' h

theorem unseen_writer (h : i.usesWriter ≠ true) : Unseen i State.writer where
  writer h' := absurd h' h

theorem unseen_reader (h : i.usesReader ≠ true) : Unseen i State.reader where
  reader h' := absurd h' h

theorem unseen_code (h : i ≠ .genCodes) : Unseen i State.code where
  code h' := absurd h' h

/-- ROOT, NCNT and the tree RAM. -/
def State.treeSide (s : State) : Root × BitVec 11 × Memory Node := (s.root, s.ncnt, s.tree)

theorem unseen_treeSide (h : i ≠ .readHeader) : Unseen i State.treeSide where
  root h' := absurd h' h
  ncnt h' := absurd h' h
  tree h' := absurd h' h

/-- The OUT side of the ports. -/
def State.outSide (s : State) : List Answer × List Byte := (s.ports.answers, s.outStream)

theorem outSide_took (s : State) (l : List Token) (t : Token) :
    (s.setPorts { s.ports with offered := l, log := s.ports.log ++ [.took t] }).outSide = s.outSide := by
  simp [State.outSide, State.outStream, PortOp.accepted]

theorem unseen_outSide (h : i.usesWriter ≠ true) (hd : i ≠ .decodeStream) : Unseen i State.outSide where
  writer h' := absurd h' h
  reader _ := ⟨fun _ _ => rfl, outSide_took⟩
  rawIn _ := outSide_took
  rawOut h' := absurd h' hd

/-- The IN side of the ports. -/
def State.inSide (s : State) : List Token × List Token := (s.ports.offered, s.consumed)

theorem inSide_sent (s : State) (l : List Answer) (o : PortOp) (ho : o.token = none) :
    (s.setPorts { s.ports with answers := l, log := s.ports.log ++ [o] }).inSide = s.inSide := by
  simp [State.inSide, State.consumed, ho]

theorem unseen_inSide (h : i.usesReader ≠ true) (he : i ≠ .encodeStream) : Unseen i State.inSide where
  writer _ := ⟨fun _ _ => rfl, inSide_sent⟩
  reader h' := absurd h' h
  rawIn h' := absurd h' he
  rawOut _ := inSide_sent

theorem unseen_errInfo : Unseen i State.errInfo := {}

theorem unseen_draws : Unseen i State.draws := {}

/-! ### The commands of each kind, listed -/

theorem setsResult_iff : i.setsResult = true ↔
    i = .encodeStream ∨ i = .decodeSymbol ∨ i = .decodeStream ∨ ∃ n, i = .readBits n := by
  cases i <;> simp [Instr.setsResult]

theorem setsEos_iff : i.setsEos = true ↔ i = .decodeSymbol ∨ i = .decodeStream := by
  cases i <;> simp [Instr.setsEos]

theorem usesWriter_iff : i.usesWriter = true ↔
    i = .closeWriter ∨ i = .writeHeader ∨ i = .encodeSymbol ∨ i = .encodeStream ∨ ∃ n, i = .writeBits n := by
  cases i <;> simp [Instr.usesWriter]

theorem usesReader_iff : i.usesReader = true ↔
    i = .readerAlign ∨ i = .readHeader ∨ i = .decodeSymbol ∨ i = .decodeStream ∨ ∃ n, i = .readBits n := by
  cases i <;> simp [Instr.usesReader]

end Registers

/-- Settles O52: each register, RAM and port side is one that the commands not named for it may not write. -/
theorem commandsWriteOnlyTheirOwnState : Obligations.CommandsWriteOnlyTheirOwnState := by
  intro i s t hi hx hs ht
  have keeps : ∀ {β : Type} (f : State → β), (∀ u b, f (u.setBusy b) = f u) → Unseen i f → f t = f s :=
    fun _ hb hf => exec_keeps hi hf hb hx ht
  refine ⟨keeps State.errInfo (fun _ _ => rfl) unseen_errInfo, keeps State.draws (fun _ _ => rfl) unseen_draws,
    fun h1 h2 h3 h4 => ?_, fun h1 h2 => ?_, fun h1 h2 h3 h4 h5 => ⟨?_, fun h6 => ?_⟩,
    fun h1 h2 h3 h4 h5 => ⟨?_, fun h6 => ?_⟩, fun h1 => ?_, fun h1 => ?_⟩
  · refine keeps State.result (fun _ _ => rfl) (unseen_result ?_)
    rw [Ne, setsResult_iff]
    simp [h1, h2, h3, h4]
  · refine keeps State.eos (fun _ _ => rfl) (unseen_eos ?_)
    rw [Ne, setsEos_iff]
    simp [h1, h2]
  · refine keeps State.writer (fun _ _ => rfl) (unseen_writer ?_)
    rw [Ne, usesWriter_iff]
    simp [h1, h2, h3, h4, h5]
  · refine Prod.mk.inj (keeps State.outSide (fun _ _ => rfl) (unseen_outSide ?_ h6))
    rw [Ne, usesWriter_iff]
    simp [h1, h2, h3, h4, h5]
  · refine keeps State.reader (fun _ _ => rfl) (unseen_reader ?_)
    rw [Ne, usesReader_iff]
    simp [h1, h2, h3, h4, h5]
  · refine Prod.mk.inj (keeps State.inSide (fun _ _ => rfl) (unseen_inSide ?_ h6))
    rw [Ne, usesReader_iff]
    simp [h1, h2, h3, h4, h5]
  · obtain ⟨hr, hnt⟩ := Prod.mk.inj (keeps State.treeSide (fun _ _ => rfl) (unseen_treeSide h1))
    exact ⟨hr, Prod.mk.inj hnt⟩
  · exact keeps State.code (fun _ _ => rfl) (unseen_code h1)

/-- Settles O51: none of the three ends of a command touches its operands or the model's records. -/
theorem commandsKeepTheirOperands : Obligations.CommandsKeepTheirOperands := by
  intro i s t hi hx
  rcases exec_next_cases hi hx with ⟨u, -, hl, rfl⟩ | ⟨e, info, u, -, -, rfl⟩ | ⟨-, rfl⟩
  · have h := hl.frame
    exact ⟨h.params, h.cmd, h.arg, h.overrun, h.agenda, h.reads, h.sawIdle⟩
  · exact ⟨rfl, rfl, rfl, rfl, rfl, rfl, rfl⟩
  · exact ⟨rfl, rfl, rfl, rfl, rfl, rfl, rfl⟩

end Sys2Proof.Machine
end

section
/-! SUPPORT. Reset, and what only a reset undoes: the first error with its ERRINFO (60_exceptions R167), OVERRUN (10_state R33);
and the three kinds of step that write the code table (10_state R42). -/

namespace Sys2Proof.Machine

/-! ### Reset -/

theorem abandon_idle {s : State} (h : s.busy = false) : abandon s = s := by
  simp [abandon, h]

/-- Abandoning a command moves the ports and the draw counter only. -/
theorem abandon_frame (s : State) : abandon s = { s with ports := (abandon s).ports, draws := (abandon s).draws } := by
  unfold abandon
  split <;> rfl

/-- Settles O12: the block's elements take the values of State.reset, and the rest is what `abandon` leaves. -/
theorem resetGivesEveryElementItsValue : Obligations.ResetGivesEveryElementItsValue := by
  intro s
  refine ⟨(abandon s).ports, (abandon s).draws, ?_, rfl, fun hb => by simp [abandon_idle hb]⟩
  change Host.Outcome.next (resetBlock (abandon s)) = _
  rw [abandon_frame s]
  rfl

/-- Settles O11: by evaluation; STATUS is built from fields that are all 0. -/
theorem resetStateValues : Obligations.ResetStateValues :=
  ⟨rfl, rfl, rfl, rfl, rfl, rfl, rfl, rfl, rfl, rfl, rfl, rfl, fun _ => rfl, fun _ => rfl⟩

/-! ### Turns that are a reset, and turns that are none -/

/-- A reset event resets the block, whatever its state. -/
theorem Turn.of_resets {e : Event} {s t : State} (h : Turn e s t) (he : e.resets) : t = resetBlock (abandon (issued e s)) := by
  cases h with
  | reset _ => rfl
  | drops off v _ hv _ =>
    rcases he with he | he
    · cases he
    · cases he
      exact absurd rfl (hv rfl)
  | accepts v _ _ hv =>
    rcases he with he | he
    · cases he
    · cases he
      exact absurd rfl hv
  | stores off v _ hc _ =>
    rcases he with he | he
    · cases he
    · cases he
      exact absurd rfl hc
  | _ => rcases he with he | he <;> cases he

/-- While an error is recorded and nothing is pending, only a reset changes ERR, ERRINFO, CMD or BUSY. -/
theorem Turn.keeps_error {e : Event} {s t : State} (h : Turn e s t) (hr : ¬ e.resets) (hs : s.err ≠ none)
    (hb : s.busy = false) : t.err = s.err ∧ t.errInfo = s.errInfo ∧ t.cmd = s.cmd ∧ t.busy = false := by
  cases h with
  | reset h' => exact absurd h' hr
  | badWord hb' _ _ => rw [hb] at hb'; cases hb'
  | runs hb' _ _ _ _ => rw [hb] at hb'; cases hb'
  | accepts _ _ he _ => exact absurd he hs
  | stores off v _ _ _ =>
    rw [storeReg_frame]
    exact ⟨rfl, rfl, rfl, hb⟩
  | _ => exact ⟨rfl, rfl, rfl, hb⟩

/-- Settles O40: with ERR ≠ 0 nothing is pending, so every step but a reset leaves the error alone. -/
theorem errorIsSticky : Obligations.ErrorIsSticky := by
  intro s t e hs he hx
  have hne : s.err ≠ none := by simp [he]
  refine ⟨fun hr => ?_, fun hr => ?_⟩
  · obtain ⟨h1, h2⟩ := (hs.turn hx).keeps_error hr hne (hs.not_busy hne)
    exact ⟨h1.trans he, h2⟩
  · rw [(hs.turn hx).of_resets hr]
    exact ⟨rfl, rfl⟩

/-! ### OVERRUN -/

/-- The host writes that the block drops in state s (10_state R33). -/
def droppedWrite (e : Event) (s : State) : Prop :=
  ∃ off v, e = .host (.write 32 off v) ∧ (s.busy = true ∨ (off = 0x0004#14 ∧ s.err ≠ none))

theorem Turn.overrun_iff {e : Event} {s t : State} (h : Turn e s t) (hr : ¬ e.resets) :
    t.overrun = true ↔ s.overrun = true ∨ droppedWrite e s := by
  have kept : t.overrun = s.overrun → ¬ droppedWrite e s → (t.overrun = true ↔ s.overrun = true ∨ droppedWrite e s) := by
    intro h1 h2
    rw [h1, or_iff_left h2]
  have noWrite : (∀ off v, e ≠ .host (.write 32 off v)) → ¬ droppedWrite e s := by
    rintro h1 ⟨off, v, h2, -⟩
    exact h1 off v h2
  cases h with
  | reset h' => exact absurd h' hr
  | idle _ => exact kept rfl (noWrite nofun)
  | badWord _ _ _ => exact kept rfl (noWrite nofun)
  | runs _ i _ hi hx =>
    obtain ⟨-, -, -, ho, -⟩ := commandsKeepTheirOperands i s t hi hx
    exact kept ho (noWrite nofun)
  | reads _ _ => exact kept rfl (noWrite nofun)
  | drops off v _ _ hd => exact iff_of_true rfl (.inr ⟨off, v, rfl, hd⟩)
  | accepts v hb he _ =>
    refine kept rfl ?_
    rintro ⟨off, w, -, hb' | ⟨-, he'⟩⟩
    · rw [hb] at hb'; cases hb'
    · exact he' he
  | stores off v _ hc hb =>
    refine kept (by rw [storeReg_frame]) ?_
    rintro ⟨off', w, hw, hb' | ⟨rfl, -⟩⟩
    · rw [hb] at hb'; cases hb'
    · cases hw
      exact hc rfl
  | offers _ => exact kept rfl (noWrite nofun)
  | answers _ => exact kept rfl (noWrite nofun)

/-- Settles O41: turn by turn, OVERRUN is set by a dropped write and cleared by a reset. -/
theorem overrunIsSticky : Obligations.OverrunIsSticky := by
  intro s t hs hx
  refine ⟨fun hr => (hs.turn hx).overrun_iff hr, fun hr => ?_⟩
  rw [(hs.turn hx).of_resets hr]
  rfl

/-! ### The code table -/

theorem opTable_genCodes {op : BitVec 4} {len : Nat} (h : opTable op len = some .genCodes) : op = 5#4 := by
  unfold opTable at h
  split at h <;> cases h
  next hop => exact BitVec.eq_of_toNat_eq hop

/-- Only GEN_CODES' own word decodes to GEN_CODES (30_encoding R72). -/
theorem decode_genCodes {w : Word} (h : decode w = .ok .genCodes) : w = 0x00000005#32 := by
  obtain ⟨hlow, hhigh, htab, hlen⟩ := decode_ok h
  have hop := opTable_genCodes htab
  have h0 : lenField w = 0#6 := by simpa [hop] using hlen
  rw [word_fields w, hlow, hhigh, hop, h0]
  rfl

/-- A command that changes the code table is GEN_CODES, or faults. -/
theorem exec_code {i : Instr} (hi : i ≠ .reset) {s t : State} (hx : exec i s = .next t) (hc : t.code ≠ s.code) :
    i = .genCodes ∨ t.err ≠ none := by
  by_cases he : t.err = none
  · refine .inl (by_contra fun hg => hc ?_)
    exact exec_keeps hi (unseen_code hg) (fun _ _ => rfl) hx he
  · exact .inr he

theorem Turn.code {e : Event} {s t : State} (h : Turn e s t) (hc : t.code ≠ s.code) :
    e.resets ∨ (e = .engine ∧ s.busy = true ∧ (s.cmd = 0x00000005#32 ∨ t.err ≠ none)) := by
  cases h with
  | reset h' => exact .inl h'
  | badWord hb _ _ => exact .inr ⟨rfl, hb, .inr nofun⟩
  | runs hb i hd hi hx =>
    refine .inr ⟨rfl, hb, (exec_code hi hx hc).imp_left ?_⟩
    rintro rfl
    exact decode_genCodes hd
  | stores off v _ _ _ =>
    rw [storeReg_frame] at hc
    exact absurd rfl hc
  | _ => exact absurd rfl hc

/-- Settles O50: an engine's turn that changes the table runs GEN_CODES or records an error, and a pending command has none
recorded yet. -/
theorem codeTableChangesOnlyByGenCodes : Obligations.CodeTableChangesOnlyByGenCodes := by
  intro s t hs hx hc
  refine ((hs.turn hx).code hc).imp_right ?_
  rintro ⟨he, hb, h⟩
  have hn : s.err = none := by
    by_contra hne
    rw [State.setAgenda_busy, hs.not_busy hne] at hb
    cases hb
  exact ⟨he, hb, h.imp_right fun ht => ⟨hn, ht⟩⟩

end Sys2Proof.Machine
end

section
/-! SUPPORT. The host port (10_state R23 to R47): which accesses are refused, what a write to a busy and to an idle block
does, what the events beside a pending command change, and what a read returns. -/

namespace Sys2Proof.Machine

/-! ### Refused accesses -/

theorem accessLegal_eq_false {width : Nat} {off : Offset} (h : width ≠ 32 ∨ off.toNat % 4 ≠ 0) :
    accessLegal width off = false := by
  rcases h with h | h <;> simp [accessLegal, h]

theorem hostAccess_read_illegal {width : Nat} {off : Offset} (h : accessLegal width off = false) (s : State) :
    hostAccess (.read width off) s = .refused (.badAccess width off) := by
  simp [hostAccess, h]

theorem hostAccess_write_illegal {width : Nat} {off : Offset} (h : accessLegal width off = false) (v : Word) (s : State) :
    hostAccess (.write width off v) s = .refused (.badAccess width off) := by
  simp [hostAccess, h]

/-! ### Writes by register -/

/-- A write to any register but CMD is a store; one to CMD is the command protocol, by definition. -/
theorem hostWrite_other {r : Reg} (h : r ≠ .cmd) (v : Word) (s : State) : hostWrite r v s = .next (hostStore r v s) := by
  unfold hostWrite
  split
  · exact absurd rfl h
  · rfl

theorem hostWriteCmd_reset (s : State) : hostWriteCmd resetWord s = exec .reset s := if_pos rfl

theorem hostWriteCmd_busy {v : Word} {s : State} (hv : v ≠ resetWord) (hb : s.busy = true) :
    hostWriteCmd v s = .next s.setOverrun := by
  simp [hostWriteCmd, hv, hb]

theorem hostWriteCmd_next (v : Word) (s : State) : ∃ t, hostWriteCmd v s = .next t := by
  unfold hostWriteCmd
  split
  · exact ⟨_, rfl⟩
  · split
    · exact ⟨_, rfl⟩
    · split <;> exact ⟨_, rfl⟩

theorem hostWrite_next (r : Reg) (v : Word) (s : State) : ∃ t, hostWrite r v s = .next t := by
  by_cases h : r = .cmd
  · subst h
    exact hostWriteCmd_next v _
  · exact ⟨_, hostWrite_other h v s⟩

/-- Settles O42: legality is the first test of an access, and a legal one answers a next state. -/
theorem onlyIllegalAccessesAreRefused : Obligations.OnlyIllegalAccessesAreRefused := by
  intro s width off v
  refine ⟨fun h => ?_, fun h => ⟨⟨_, handle_read h⟩, ?_⟩⟩
  · have hl := accessLegal_eq_false h
    exact ⟨hostAccess_read_illegal hl s, hostAccess_write_illegal hl v s⟩
  · rw [handle_write h]
    exact hostWrite_next _ v s

/-! ### A busy block -/

/-- Settles O45: the case split of `hostWrite`, each side on a busy block. -/
theorem busyWritesAreDropped : Obligations.BusyWritesAreDropped := by
  intro s off v hb h4
  rw [handle_write h4]
  by_cases hc : off = 0x0004#14
  · subst hc
    rw [if_neg (by simp)]
    by_cases hv : v = 0x0000000F#32
    · subst hv
      exact hostWriteCmd_reset _
    · rw [if_neg hv]
      exact hostWriteCmd_busy hv hb
  · rw [if_pos hc, hostWrite_other fun h => hc ((regAt_cmd h4).1 h), hostStore, if_pos hb]
    rfl

/-- Settles O10: reads and port events change their own records and queues, and a write is dropped. -/
theorem pendingCommandStands : Obligations.PendingCommandStands := by
  intro s t e hb he hr h
  cases e with
  | engine => exact absurd rfl he
  | hardwareReset => exact absurd (.inl rfl) hr
  | offer tok =>
    cases h
    exact ⟨rfl, rfl, ⟨[tok], rfl⟩, List.prefix_rfl⟩
  | answer a =>
    cases h
    exact ⟨rfl, rfl, List.prefix_rfl, ⟨[a], rfl⟩⟩
  | host a =>
    cases a with
    | read width off =>
      simp only [handle, hostAccess] at h
      split at h
      · cases h
        exact ⟨rfl, rfl, List.prefix_rfl, List.prefix_rfl⟩
      · cases h
    | write width off v =>
      by_cases hl : width ≠ 32 ∨ off.toNat % 4 ≠ 0
      · rw [((onlyIllegalAccessesAreRefused s width off v).1 hl).2] at h
        cases h
      · rw [not_or, not_not, not_not] at hl
        obtain ⟨rfl, h4⟩ := hl
        rw [busyWritesAreDropped s off v hb h4] at h
        split at h
        · cases h
          exact ⟨rfl, rfl, List.prefix_rfl, List.prefix_rfl⟩
        · split at h
          · next hoff hv =>
            rw [not_not] at hoff
            subst hoff hv
            exact absurd (.inr rfl) hr
          · cases h
            exact ⟨rfl, rfl, List.prefix_rfl, List.prefix_rfl⟩

/-! ### Stores to an idle block -/

theorem handle_store {s : State} {off : Offset} (hb : s.busy = false) (h4 : off.toNat % 4 = 0) (hc : off ≠ 0x0004#14)
    (v : Word) : handle (.host (.write 32 off v)) s = .next (storeReg (regAt off) v s) := by
  rw [handle_write h4, hostWrite_other fun h => hc ((regAt_cmd h4).1 h), hostStore, if_neg (by simp [hb])]

theorem storeReg_tree {i : Nat} {s : State} (h : i < s.cap) (v : Word) :
    storeReg (.tree i) v s = s.setTree (s.tree.write i (nodeOfWord v)) := if_pos h

/-- What stands at an offset says which offset it is, but at a reserved one (10_state R24). -/
theorem offset_regAt {off : Offset} (h4 : off.toNat % 4 = 0) (h : regAt off ≠ .reserved) : (regAt off).offset = off := by
  refine BitVec.eq_of_toNat_eq ?_
  have hlt := off.isLt
  rcases Nat.lt_or_ge (off.toNat / 4) 10 with hk | hk
  · unfold regAt
    generalize hq : off.toNat / 4 = k at hk
    interval_cases k <;> simp only [Reg.offset, BitVec.toNat_ofNat] <;> omega
  · obtain ⟨n, hn⟩ := Nat.exists_eq_add_of_le' hk
    rw [regAt_high hn] at h ⊢
    split
    · simp only [Reg.offset, BitVec.toNat_ofNat]
      omega
    · split
      · split <;> simp only [Reg.offset, BitVec.toNat_ofNat] <;> omega
      · next h1 h2 => exact absurd (by rw [if_neg h1, if_neg h2]) h

/-- Settles O46: a store acts on ARG, ROOT and the tree RAM, each at its own offsets. -/
theorem idleWritesStore : Obligations.IdleWritesStore := by
  intro s off v hb h4 hc
  rw [handle_store hb h4 hc]
  have hcap := s.cap_le
  refine ⟨?_, ?_, fun i hi ho => ?_, fun harg hroot htree => congrArg _ ?_⟩
  · rintro rfl; rfl
  · rintro rfl; rfl
  · rw [regAt_tree (by omega) ho, storeReg_tree hi]
    exact ⟨_, rfl, Memory.read_write_same _ _ _, fun j hj => Memory.read_write_other _ _ hj⟩
  · have hoff := offset_regAt h4
    cases hr : regAt off with
    | arg => exact absurd (hoff (by simp [hr])).symm (by rw [hr]; exact harg)
    | root => exact absurd (hoff (by simp [hr])).symm (by rw [hr]; exact hroot)
    | tree i =>
      refine if_neg fun hi => htree i hi ?_
      rw [← hoff (by simp [hr]), hr, Reg.offset, BitVec.toNat_ofNat]
      omega
    | _ => rfl

/-- Settles O47: the slot written is the slot read, and `nodeOfWord` has discarded the other bits. -/
theorem treeWordReadsBackCanonical : Obligations.TreeWordReadsBackCanonical := by
  intro s i v hb hi
  have hcap := s.cap_le
  have hoff : (BitVec.ofNat 14 (0x1000 + 4 * i)).toNat = 0x1000 + 4 * i := by
    rw [BitVec.toNat_ofNat]
    omega
  have h4 : (BitVec.ofNat 14 (0x1000 + 4 * i)).toNat % 4 = 0 := by omega
  have hc : BitVec.ofNat 14 (0x1000 + 4 * i) ≠ 0x0004#14 := by
    intro h
    rw [h] at hoff
    simp at hoff
    omega
  have hreg := regAt_tree (by omega) hoff
  refine ⟨_, _, handle_store hb h4 hc v, handle_read h4, ?_⟩
  rw [hreg, storeReg_tree hi, ← nodeWord_nodeOfWord]
  simp [hostRead, readValue, regValue, hb, hi, Memory.read_write_same]

/-! ### Reads -/

/-- A read returns what the register shows, and records itself (log entries 6, 11, 14). -/
theorem handle_read_eq {s : State} {off : Offset} (h4 : off.toNat % 4 = 0) :
    handle (.host (.read 32 off)) s = .next { s with
      reads := s.reads ++ [readValue (regAt off) (Config.freeRead s.draws) s]
      sawIdle := (decide (off = 0x0010#14) && !s.busy) || s.sawIdle
      draws := s.draws + 1 } := by
  rw [handle_read h4, hostRead, showsIdle_regAt h4]

theorem readValue_idle {s : State} (h : s.busy = false) (r : Reg) (any : Word) : readValue r any s = regValue r any s := by
  simp [readValue, h]

theorem readValue_stable {r : Reg} (h : r.changeable = false) (any : Word) (s : State) :
    readValue r any s = regValue r any s := by
  simp [readValue, h]

theorem readValue_free {s : State} {r : Reg} (hb : s.busy = true) (h : r.changeable = true) (any : Word) :
    readValue r any s = any := by
  simp [readValue, h, hb]

theorem regValue_tree {s : State} {i : Nat} {n : Node} (hi : i < s.cap) (h : s.tree.read i = some n) (any : Word) :
    regValue (.tree i) any s = nodeWord n := by
  simp [regValue, hi, h]

theorem regValue_tree_above {s : State} {i : Nat} (hi : s.cap ≤ i) (any : Word) : regValue (.tree i) any s = 0#32 :=
  if_neg (by omega)

theorem regValue_clen {s : State} {k : Nat} {e : CodeEntry} (h : s.code.read k = some e) (any : Word) :
    regValue (.clen k) any s = clenWord e.valid e.len := by
  simp [regValue, h]

theorem regValue_clen_unwritten {s : State} {k : Nat} (h : s.code.read k = none) (any : Word) :
    regValue (.clen k) any s = clenWord false (any.extractLsb' 0 6) := by
  simp [regValue, h]

theorem regValue_cpat {s : State} {k : Nat} {e : CodeEntry} (h : s.code.read k = some e) (any : Word) :
    regValue (.cpat k) any s = e.pat := by
  simp [regValue, h]

/-- The CLEN word of a symbol shows whether it has a code, written or not (10_state R42, R43). -/
theorem clen_fields (s : State) (sym : Symbol) (any : Word) :
    (regValue (.clen sym.toNat) any s).getLsbD 31 = (s.validCode sym).isSome ∧
      (regValue (.clen sym.toNat) any s).extractLsb' 6 25 = 0#25 ∧
      ∀ e, s.code.read sym.toNat = some e → (regValue (.clen sym.toNat) any s).extractLsb' 0 6 = e.len := by
  cases h : s.code.read sym.toNat with
  | none =>
    obtain ⟨hv, hz, -⟩ := clenWord_fields false (any.extractLsb' 0 6)
    rw [regValue_clen_unwritten h]
    exact ⟨by rw [hv, State.validCode, h]; rfl, hz, nofun⟩
  | some e =>
    obtain ⟨hv, hz, hl⟩ := clenWord_fields e.valid e.len
    rw [regValue_clen h]
    refine ⟨?_, hz, fun e' he => by cases he; exact hl⟩
    rw [hv, State.validCode, h]
    cases he : e.valid <;> simp [he]

/-- Settles O43: what each register shows, read off its word. -/
theorem idleReadsReturnTheRegisters : Obligations.IdleReadsReturnTheRegisters := by
  intro s off hb h4
  have hcap := s.cap_le
  refine ⟨regValue (regAt off) (Config.freeRead s.draws) s, ?_, ?_, ?_, ?_, ?_, ?_, ?_, ?_, ?_, ?_, ?_, fun h => ?_,
    fun i hi ho => ?_, fun sym ho => ?_, fun sym e ho he => ?_⟩
  · rw [handle_read_eq h4, readValue_idle hb, hb, Bool.not_false, Bool.and_true]
  · rintro rfl; rfl
  · rintro rfl; rfl
  · rintro rfl; rfl
  · rintro rfl; rfl
  · rintro rfl
    obtain ⟨hbusy, heos, hover⟩ := statusWord_bits s
    exact ⟨hbusy.trans hb, heos, hover, statusWord_fields s⟩
  · rintro rfl
    obtain ⟨hbuf, hcnt, hres⟩ := wstateWord_fields s.writer
    refine ⟨hbuf, (congrArg BitVec.toNat hcnt).trans ?_, hres⟩
    rw [BitVec.toNat_ofNat, Nat.mod_eq_of_lt s.writer.cnt.isLt]
  · rintro rfl
    obtain ⟨hbuf, hcnt, hres⟩ := rstateWord_fields s.reader
    have hlt := s.reader.cnt.isLt
    refine ⟨hbuf, (congrArg BitVec.toNat hcnt).trans ?_, hres⟩
    rw [BitVec.toNat_ofNat, Nat.mod_eq_of_lt (by omega)]
  · rintro rfl; exact rootWord_fields s.root
  · rintro rfl; exact ncntWord_fields s.ncnt
  · rintro rfl; exact paramWord_toNat s
  · rw [regAt_reserved h]; rfl
  · rw [regAt_tree hi ho]
    refine ⟨fun h => regValue_tree_above h _, fun sym hlt hr => ?_, fun l r hlt hr => ?_⟩
    · rw [regValue_tree hlt hr, nodeWord_leaf]
    · rw [regValue_tree hlt hr, nodeWord_internal]
  · rw [regAt_clen sym ho]
    exact clen_fields s sym _
  · rw [regAt_cpat sym ho]
    exact regValue_cpat he _

/-- The registers whose reads are free while BUSY = 1, by offset (10_state R46). -/
theorem regAt_changeable {off : Offset} (h4 : off.toNat % 4 = 0) (h : off = 0x000C#14 ∨
    (0x0014 ≤ off.toNat ∧ off.toNat < 0x0024) ∨ (0x1000 ≤ off.toNat ∧ off.toNat < 0x3000)) :
    (regAt off).changeable = true := by
  rcases h with rfl | h | h
  · rfl
  · obtain hk | hk | hk | hk : off.toNat / 4 = 5 ∨ off.toNat / 4 = 6 ∨ off.toNat / 4 = 7 ∨ off.toNat / 4 = 8 := by omega
    all_goals rw [regAt, hk]; rfl
  · obtain ⟨n, hn⟩ : ∃ n, off.toNat / 4 = n + 10 := ⟨off.toNat / 4 - 10, by omega⟩
    rw [regAt_high hn]
    split
    · rfl
    · rw [if_pos (by omega)]
      split <;> rfl

/-- Settles O44: the stable registers show what an idle block would, the changeable ones the free draw. -/
theorem busyReadsAreFreeOrStable : Obligations.BusyReadsAreFreeOrStable := by
  intro s off hb h4
  refine ⟨readValue (regAt off) (Config.freeRead s.draws) s, ?_, ?_, ?_, ?_, ?_, ?_, fun h => ?_, fun h => ?_⟩
  · rw [handle_read_eq h4, hb, Bool.not_true, Bool.and_false, Bool.false_or]
  · rintro rfl; exact readValue_stable rfl _ s
  · rintro rfl; exact readValue_stable rfl _ s
  · rintro rfl; exact readValue_stable rfl _ s
  · rintro rfl
    have hv : readValue (regAt 0x0010#14) (Config.freeRead s.draws) s = statusWord s := readValue_stable rfl _ s
    obtain ⟨hbusy, -, -⟩ := statusWord_bits s
    rw [hv]
    exact ⟨rfl, hbusy.trans hb⟩
  · rintro rfl
    exact (congrArg BitVec.toNat (readValue_stable (r := .param) rfl _ s)).trans (paramWord_toNat s)
  · rw [regAt_reserved h]
    exact readValue_stable rfl _ s
  · exact readValue_free hb (regAt_changeable h4 h) _

end Sys2Proof.Machine
end

section
/-! SUPPORT. The commands that read the input stream or traverse the tree, each from the exact law of its procedure
(Laws/BitStream.lean, Laws/Traversal.lean, Laws/Reading.lean, Laws/BadSlots.lean). -/

namespace Sys2Proof.Machine

/-! ### READ_BITS -/

theorem readBitsBody_eq {n : Nat} (h1 : 1 ≤ n) (h2 : n ≤ 32) (s : State) :
    readBitsBody n s = (readBits n s).bind fun v s => .ok () (s.setResult v) :=
  if_pos (by simp [lenLegal, h1, h2])

/-- Settles O18: `readBits` takes the first n readable bits and answers their value. -/
theorem readBitsReadsTheNextBits : Obligations.ReadBitsReadsTheNextBits := by
  intro s n h1 h2 hn
  obtain ⟨t, ht, r, k, rfl, hk, -, hin, hcnt, hbuf⟩ := readBits_takes hn
  rw [List.length_take, Nat.min_eq_left hn] at hk hcnt
  subst hk
  have hbody := readBitsBody_eq h1 h2 s
  rw [ht, Res.ok_bind] at hbody
  exact ⟨r, exec_of_ok (i := .readBits n) nofun hbody, hin, hcnt, hbuf⟩

/-! ### DECODE_SYMBOL -/

theorem decodeSymbolBody_eq (s : State) : decodeSymbolBody s =
    (walk s).bind fun sym s => .ok () ((s.setResult (sym.setWidth 32)).setEos (eosOf sym)) := rfl

/-- Settles O34: one walk takes the path's bits and ends at its symbol. -/
theorem decodeSymbolWalksTheTree : Obligations.DecodeSymbolWalksTheTree := by
  intro s path rest sym hw hin
  obtain ⟨t, ht, r, k, rfl, rfl, -, hbits, hcnt, hbuf⟩ := walk_ends hw hin
  have hbody := decodeSymbolBody_eq s
  rw [ht, Res.ok_bind] at hbody
  exact ⟨r, exec_of_ok (i := .decodeSymbol) nofun hbody, List.append_cancel_left (hbits.symm.trans hin), hcnt, hbuf⟩

/-! ### READ_HEADER -/

theorem ncnt_eq_ofNat {n : BitVec 11} {k : Nat} (h : n.toNat = k) : n = BitVec.ofNat 11 k := by
  rw [← h, BitVec.ofNat_toNat, BitVec.setWidth_eq]

/-- READ_HEADER on a header that fits: what its parse, from slot 0, has done, and then ROOT. -/
theorem readHeaderBody_eq {s : State} {T : HTree} {rest : List Bool} (hin : s.inBits = T.header ++ rest)
    (hT : T.size ≤ s.cap) :
    ∃ t, readHeaderBody s = .ok () (t.setRoot { idx := 0#10, valid := true }) ∧
      Parsed ((s.setNcnt 0#11).setRoot { s.root with valid := false }) t T := by
  obtain ⟨t, ht, hp⟩ := parse_header T (s := (s.setNcnt 0#11).setRoot { s.root with valid := false }) (rest := rest)
    (fuel := s.cap + 1) hin (by simpa using hT) (by omega)
  refine ⟨t, ?_, hp⟩
  rw [readHeaderBody, ht, Res.ok_bind]

/-- Settles O28: `parse` lays the tree out from slot 0, and a tree so laid out is loaded. -/
theorem readHeaderLoadsTheTree : Obligations.ReadHeaderLoadsTheTree := by
  intro s T rest hin hsize
  have hcap := s.cap_le
  obtain ⟨t, hbody, hframe, htakes, hncnt, hnodes, hothers⟩ := readHeaderBody_eq hin hsize
  obtain ⟨r, k, heq, rfl, -, -, hcnt, hsame, hlast⟩ := id htakes
  have hr : t.reader = r := congrArg State.reader heq
  have hp : t.ports = s.ports.perform (tookAll (s.ports.offered.take (tokensFor s.reader.cnt.val T.header.length))) :=
    congrArg State.ports heq
  subst hr
  simp only [State.setRoot_ncnt, State.setNcnt_ncnt, BitVec.toNat_ofNat, Nat.zero_mod, Nat.zero_add] at hncnt hnodes hothers
  have hn : t.ncnt = BitVec.ofNat 11 T.size := ncnt_eq_ofNat hncnt
  have hrest : t.inBits = rest := List.append_cancel_left (htakes.inBits.symm.trans hin)
  have hend : t.setRoot { idx := 0#10, valid := true } = _ := congrArg (State.setRoot · _) hframe
  refine ⟨t.reader, t.tree, _, exec_of_ok (i := .readHeader) nofun hbody, ?_, hrest, hcnt, hsame, hlast,
    hnodes, fun j hj => hothers j (.inr hj), ?_⟩
  · rw [hend, hn, hp]
    rfl
  · have htc : t.cap = s.cap := by rw [hframe]; rfl
    refine ⟨rfl, ?_, by simpa [htc] using hsize⟩
    exact treeAt_of_layout T (base := 0) t.cap_le (by simpa [htc] using hsize) (by simpa using hnodes)

/-! ### GEN_CODES -/

theorem read_generated {m : Memory CodeEntry} {T : HTree} (hd : T.symbols.Nodup) {c : List Bool × Symbol}
    (hc : c ∈ T.codes) :
    (generated m T).read c.2.toNat = some (entryOf c.1) :=
  read_enterAll_mem _ _ (by rwa [codes_symbols]) hc

theorem read_generated_other (m : Memory CodeEntry) {T : HTree} {sym : Symbol} (h : sym ∉ T.symbols) :
    (generated m T).read sym.toNat = (m.read sym.toNat).map fun e => { e with valid := false } := by
  rw [generated, read_enterAll_other _ _ (by rwa [codes_symbols]), Memory.read_clearValid]

/-- Settles O24: the table is `generated`. -/
theorem genCodesBuildsTheTable : Obligations.GenCodesBuildsTheTable := by
  intro s T hT hd hlen
  exact ⟨generated s.code T, exec_of_ok (i := .genCodes) nofun (genCodesBody_eq hT hlen hd), fun _ hc => read_generated hd hc,
    fun _ hs => read_generated_other s.code hs⟩

end Sys2Proof.Machine
end

section
/-! SUPPORT. The four tree commands at a slot they cannot visit (41_codetable R110, 60_exceptions R170): at the root, where a
traversal comes to it, and where a walk comes to it. -/

namespace Sys2Proof.Machine

/-- How a command in s that comes to the bad slot j ends: TREE_INVALID with its port transactions standing, or UNINIT. -/
def BadSlot.outcome (k : BadSlot) (j : Slot) (s : State) : Host.Outcome State Fault Refusal :=
  match k with
  | .invalid => .next (faultEntry .treeInvalid j s)
  | .unwritten => .fault (.uninit j)

theorem exec_of_bad {i : Instr} (hi : i ≠ .reset) {s t : State} {k : BadSlot} {j : Slot}
    (h : commandBody i s = k.res j t) : exec i s = k.outcome j { s with ports := t.ports } := by
  cases k with
  | invalid => exact exec_of_raise hi h
  | unwritten => exact exec_of_uninit hi h

/-- The reasons of the statements, as `BadSlot.holds` has them. -/
theorem holds_invalid {cap : Nat} {m : Memory Node} {j : Slot} {n : Nat} (h : cap ≤ j.toNat ∨ n = cap) :
    BadSlot.invalid.holds cap m j n := h.imp_right Eq.ge

/-! ### At the root -/

/-- ROOT is not valid, or names a slot that cannot be visited. -/
def BadSlot.atRoot (k : BadSlot) (s : State) : Prop :=
  (s.root.valid = false ∧ k = .invalid) ∨ (s.root.valid = true ∧ k.holds s.cap s.tree s.root.idx 0)

theorem requireRoot_raise {s : State} (h : s.root.valid = false) : requireRoot s = .raise .treeInvalid s.root.idx s := by
  simp [requireRoot, h]

theorem writeHeaderBody_eq {s : State} (h : s.root.valid = true) :
    writeHeaderBody s = (ser (s.cap + 1) s.root.idx 0 s).bind fun _ s => .ok () s := by
  rw [writeHeaderBody, requireRoot_ok h, Res.ok_bind]

section
variable {k : BadSlot} {s : State} (h : k.atRoot s)
include h

theorem genCodesBody_badRoot : ∃ t, genCodesBody s = k.res s.root.idx t ∧ t.ports = s.ports := by
  rcases h with ⟨hv, rfl⟩ | ⟨hv, hk⟩
  · exact ⟨s, by rw [genCodesBody, requireRoot_raise hv]; rfl, rfl⟩
  · exact genCodesBody_bad (ds := []) hv rfl hk (Nat.zero_le _) (List.forall_mem_nil _) List.nodup_nil

theorem writeHeaderBody_badRoot : writeHeaderBody s = k.res s.root.idx s := by
  rcases h with ⟨hv, rfl⟩ | ⟨hv, hk⟩
  · rw [writeHeaderBody, requireRoot_raise hv]
    rfl
  · rw [writeHeaderBody_eq hv, ser, visit_bad hk, BadSlot.res_bind, BadSlot.res_bind]

theorem walk_badRoot : walk s = k.res s.root.idx s := by
  rcases h with ⟨hv, rfl⟩ | ⟨hv, hk⟩
  · rw [walk, requireRoot_raise hv]
    rfl
  · rw [walk, requireRoot_ok hv, Res.ok_bind, visit_bad hk, BadSlot.res_bind]

theorem decodeSymbolBody_badRoot : decodeSymbolBody s = k.res s.root.idx s := by
  rw [decodeSymbolBody_eq, walk_badRoot h, BadSlot.res_bind]

theorem decodeStreamBody_badRoot : decodeStreamBody s = k.res s.root.idx (s.setEos false) := by
  have hw : walk (s.setEos false) = k.res s.root.idx (s.setEos false) := walk_badRoot (s := s.setEos false) h
  rw [decodeStreamBody, decodeLoop, hw, BadSlot.res_bind, BadSlot.res_bind]

/-- The four tree commands check the root before anything else, and alike. -/
theorem exec_badRoot {i : Instr} (hi : i = .genCodes ∨ i = .writeHeader ∨ i = .decodeSymbol ∨ i = .decodeStream) :
    exec i s = k.outcome s.root.idx s := by
  rcases hi with rfl | rfl | rfl | rfl
  · obtain ⟨t, hb, hp⟩ := genCodesBody_badRoot h
    rw [exec_of_bad (i := .genCodes) nofun hb, hp]
  · exact exec_of_bad (i := .writeHeader) nofun (writeHeaderBody_badRoot h)
  · exact exec_of_bad (i := .decodeSymbol) nofun (decodeSymbolBody_badRoot h)
  · exact exec_of_bad (i := .decodeStream) (t := s.setEos false) nofun (decodeStreamBody_badRoot h)

end

/-- Settles O21: an invalid ROOT is one of the ways in which the root is a bad slot. -/
theorem treeCommandsNeedARoot : Obligations.TreeCommandsNeedARoot := fun _ _ hi hv =>
  exec_badRoot (k := .invalid) (.inl ⟨hv, rfl⟩) hi

/-- Settles O22: the range check of the root's slot comes before the read of it. -/
theorem rootSlotIsCheckedThenRead : Obligations.RootSlotIsCheckedThenRead := fun s _ hi hv =>
  ⟨fun hj => exec_badRoot (k := .invalid) (.inr ⟨hv, .inl hj⟩) hi,
    fun hj hr => exec_badRoot (k := .unwritten) (.inr ⟨hv, hj, Nat.zero_lt_of_lt s.le_cap, hr⟩) hi⟩

/-! ### Where a traversal comes to -/

section
variable {s : State} {ds : List Descent} {j : Slot} {k : BadSlot} (hv : s.root.valid = true)
  (hc : comesTo s.cap s.tree s.root.idx ds j) (hn : visitsSoFar ds ≤ s.cap) (hk : k.holds s.cap s.tree j (visitsSoFar ds))
include hv hc hn hk

theorem exec_genCodes_bad (hlen : ∀ c ∈ leavesSoFar ds, c.1.length ≤ 32) (hd : ((leavesSoFar ds).map Prod.snd).Nodup) :
    exec .genCodes s = k.outcome j s := by
  obtain ⟨t, hb, hp⟩ := genCodesBody_bad hv hc hk hn hlen hd
  rw [exec_of_bad (i := .genCodes) nofun hb, hp]

/-- WRITE_HEADER has sent the whole bytes of the header bits of the nodes visited before. -/
theorem exec_writeHeader_bad (ha : s.sinkAccepts ((s.writer.cnt.val + (headerSoFar ds).length) / 8)) :
    ∃ bs, bs.length = (s.writer.cnt.val + (headerSoFar ds).length) / 8 ∧
      streamBits bs <+: s.writer.pending ++ headerSoFar ds ∧
      exec .writeHeader s = k.outcome j { s with ports := s.ports.perform (sentAll bs) } := by
  obtain ⟨t, ht, bs, w, rfl, hbits, -⟩ := ser_bad ds hc (s := s) (v := 0) (fuel := s.cap + 1) rfl rfl
    (by rwa [Nat.zero_add]) (by omega) (by omega) ha
  have hb := writeHeaderBody_eq hv
  rw [ht, BadSlot.res_bind] at hb
  exact ⟨bs, (emits_count hbits).1, ⟨w.pending, hbits⟩, exec_of_bad (i := .writeHeader) nofun hb⟩

end

/-- Settles O53: both traversals, for both reasons why a slot cannot be visited. -/
theorem traversalStopsAtABadSlot : Obligations.TraversalStopsAtABadSlot := by
  intro s ds j hv hc hn
  refine ⟨fun hd hlen => ⟨fun h => ?_, fun h1 h2 h3 => ?_⟩, fun ha => ⟨fun h => ?_, fun h1 h2 h3 => ?_⟩⟩
  · exact exec_genCodes_bad hv hc hn (holds_invalid h) hlen hd
  · exact exec_genCodes_bad (k := .unwritten) hv hc hn ⟨h1, h2, h3⟩ hlen hd
  · exact exec_writeHeader_bad hv hc hn (holds_invalid h) ha
  · obtain ⟨_, -, -, hx⟩ := exec_writeHeader_bad (k := .unwritten) hv hc hn ⟨h1, h2, h3⟩ ha
    exact hx

/-! ### Where a walk comes to -/

/-- Walks along the paths of `codes`, to the symbols of its bytes. -/
theorem walksThrough_codes {s : State} (hv : s.root.valid = true) {codes : List (List Bool × Byte)}
    (h : ∀ c ∈ codes, s.leafAlong c.1 (c.2.setWidth 9)) (rest : List Bool) :
    s.walksThrough ((codes.map Prod.snd).map byteSymbol) (codes.flatMap Prod.fst ++ rest) rest := by
  induction codes with
  | nil => rfl
  | cons c codes ih =>
    refine ⟨c.1, codes.flatMap Prod.fst ++ rest, by simp, ⟨hv, .inl (h c (by simp))⟩, ih fun d hd => h d (by simp [hd])⟩

section
variable {s : State} {path rest : List Bool} {j : Slot} {k : BadSlot} (hv : s.root.valid = true)
  (hj : slotAlong s.cap s.tree s.root.idx path = some j) (hn : path.length ≤ s.cap)
  (hk : k.holds s.cap s.tree j path.length)
include hv hj hn hk

theorem exec_decodeSymbol_bad (hin : s.inBits = path ++ rest) :
    exec .decodeSymbol s = k.outcome j
      { s with ports := s.ports.perform (tookAll (s.ports.offered.take (tokensFor s.reader.cnt.val path.length))) } := by
  obtain ⟨t, ht, r, n, rfl, rfl, -⟩ := walk_bad hv hj hin hn hk
  have hb := decodeSymbolBody_eq s
  rw [ht, BadSlot.res_bind] at hb
  exact exec_of_bad (i := .decodeSymbol) nofun hb

/-- DECODE_STREAM whose walks first reach the leaves of `codes`: their bytes are sent, the bits of all the paths taken. -/
theorem decodeStreamBody_bad {codes : List (List Bool × Byte)} (hc : ∀ c ∈ codes, s.leafAlong c.1 (c.2.setWidth 9))
    (hin : s.inBits = codes.flatMap Prod.fst ++ path ++ rest) (ha : s.sinkAccepts codes.length) :
    ∃ t, decodeStreamBody s = k.res j t ∧
      Yields (s.setEos false) t (codes.flatMap Prod.fst ++ path) (codes.map Prod.snd) := by
  rw [List.append_assoc] at hin
  have hw := walksThrough_codes hv hc (path ++ rest)
  rw [← hin] at hw
  obtain ⟨t, used, f, hbody, hy, htin⟩ := decodeStreamBody_bytes (codes.map Prod.snd) hw (by simpa using ha)
  have hused : used = codes.flatMap Prod.fst := by
    have hsplit : s.inBits = used ++ t.inBits := hy.inBits
    rw [htin, hin] at hsplit
    exact (List.append_cancel_right hsplit).symm
  obtain ⟨hparams, hroot, htree⟩ := hy.tree_eq
  have hcap : t.cap = s.cap := congrArg (fun p : Params => p.nodeCap.val) hparams
  have htree : t.tree = s.tree := htree
  have hroot : t.root = s.root := hroot
  obtain ⟨u, hu, hku⟩ := walk_bad (s := t) (j := j) (k := k) (by rwa [hroot]) (by rwa [hcap, htree, hroot]) htin
    (by rwa [hcap]) (by rwa [hcap, htree])
  refine ⟨u, by rw [hbody, decodeLoop, hu, BadSlot.res_bind, BadSlot.res_bind], ?_⟩
  rw [← hused]
  simpa using hy.trans hku.yields

theorem exec_decodeStream_bad {codes : List (List Bool × Byte)} (hc : ∀ c ∈ codes, s.leafAlong c.1 (c.2.setWidth 9))
    (hin : s.inBits = codes.flatMap Prod.fst ++ path ++ rest) (ha : s.sinkAccepts codes.length) :
    ∃ ops, exec .decodeStream s = k.outcome j { s with ports := s.ports.perform ops } ∧
      ops.filterMap PortOp.token =
        s.ports.offered.take (tokensFor s.reader.cnt.val (codes.flatMap Prod.fst ++ path).length) ∧
      ops.filterMap PortOp.accepted = codes.map Prod.snd ∧
      ops.filterMap PortOp.answered = List.replicate codes.length .accept := by
  obtain ⟨t, hb, hy⟩ := decodeStreamBody_bad hv hj hn hk hc hin ha
  obtain ⟨ops, hp, htok, hacc, hans⟩ := hy.ports
  refine ⟨ops, ?_, htok, hacc, by simpa using hans⟩
  have hp' : t.ports = s.ports.perform ops := hp
  rw [exec_of_bad (i := .decodeStream) nofun hb, hp']

end

/-- Settles O54: both walking commands, for both reasons why a slot cannot be visited. -/
theorem walkStopsAtABadSlot : Obligations.WalkStopsAtABadSlot := by
  intro s codes path rest j hv hcodes hj hn bits hin ha k
  refine ⟨fun h => ⟨?_, ?_⟩, fun h1 h2 h3 => ⟨?_, ?_⟩⟩
  · rintro rfl
    exact exec_decodeSymbol_bad hv hj hn (holds_invalid h) hin
  · exact exec_decodeStream_bad hv hj hn (holds_invalid h) hcodes hin ha
  · rintro rfl
    exact exec_decodeSymbol_bad (k := .unwritten) hv hj hn ⟨h1, h2, h3⟩ hin
  · obtain ⟨_, hx, -⟩ := exec_decodeStream_bad (k := .unwritten) hv hj hn ⟨h1, h2, h3⟩ hcodes hin ha
    exact hx

end Sys2Proof.Machine
end

section
/-! SUPPORT. The commands that append to the output stream (40_bitstream R100, R101, 42_header R120, 43_stream R137): they complete, or
stop at the sink (20_memory R53), each by the law of its procedure (Laws/BitStream.lean, Laws/SinkStops.lean). -/

namespace Sys2Proof.Machine

/-! ### From the pseudocode's end to the command's -/

theorem StopsAtSink.held {α : Type} {s : State} {bits : List Bool} {k : Nat} {r : Res α} (h : StopsAtSink s bits k [] r) :
    ∃ t, r = .held t := h

theorem StopsAtSink.rejected {α : Type} {s : State} {bits : List Bool} {k : Nat} {rest : List Answer} {r : Res α}
    (h : StopsAtSink s bits k (.reject :: rest) r) :
    ∃ t bs b, r = .raise .sinkUnwritable 0#10 t ∧ t.ports = s.ports.perform (sentAll bs ++ [.sent b .reject]) ∧
      bs.length = k ∧ streamBits (bs ++ [b]) <+: s.writer.pending ++ bits := h

/-- A command whose pseudocode stops at the sink is held, or raises SINK_UNWRITABLE with its transactions standing. -/
theorem exec_of_stopsAtSink {i : Instr} (hi : i ≠ .reset) {s : State} {bits : List Bool} {k : Nat} {more : List Answer}
    (h : StopsAtSink s bits k more (commandBody i s)) :
    (more = [] → exec i s = .next s) ∧
    ∀ rest, more = .reject :: rest →
      ∃ bs b, bs.length = k ∧ streamBits (bs ++ [b]) <+: s.writer.pending ++ bits ∧
        exec i s = .next (faultEntry .sinkUnwritable 0#10
          { s with ports := s.ports.perform (sentAll bs ++ [.sent b .reject]) }) := by
  refine ⟨?_, ?_⟩
  · rintro rfl
    obtain ⟨_, hb⟩ := h.held
    exact exec_of_held hi hb
  · rintro rest rfl
    obtain ⟨_, bs, b, hb, hp, hlen, hbits⟩ := h.rejected
    exact ⟨bs, b, hlen, hbits, by rw [exec_of_raise hi hb, hp]⟩

/-! ### WRITE_BITS, WRITE_HEADER, ENCODE_SYMBOL -/

theorem writeBitsBody_eq {n : Nat} (h1 : 1 ≤ n) (h2 : n ≤ 32) (s : State) : writeBitsBody n s = writeBits n s.arg s :=
  if_pos (by simp [lenLegal, h1, h2])

section
variable {s : State} {i : Instr} {bits : List Bool}

theorem Appends.ne_reset (h : Appends s i bits) : i ≠ .reset := by
  cases h <;> nofun

theorem Appends.emits (h : Appends s i bits) (ha : s.sinkAccepts ((s.writer.cnt.val + bits.length) / 8)) :
    ∃ t, commandBody i s = .ok () t ∧ Emits s t bits := by
  cases h with
  | writeBits n h1 h2 =>
    rw [commandBody, writeBitsBody_eq h1 h2]
    exact writeBits_emits n s.arg (by simpa using ha)
  | encodeSymbol c hc => exact encodeSym_emits hc ha
  | writeHeader T hT =>
    obtain ⟨hv, hat, hsize⟩ := hT
    obtain ⟨t, ht, he⟩ := ser_emits T hat (v := 0) (fuel := s.cap + 1) rfl rfl (by omega) (by omega) ha
    exact ⟨t, by rw [commandBody, writeHeaderBody_eq hv, ht, Res.ok_bind], he⟩

theorem Appends.stops {k : Nat} {more : List Answer} (h : Appends s i bits)
    (hans : s.ports.answers = List.replicate k .accept ++ more) (hk : k < (s.writer.cnt.val + bits.length) / 8) :
    StopsAtSink s bits k more (commandBody i s) := by
  cases h with
  | writeBits n h1 h2 =>
    rw [commandBody, writeBitsBody_eq h1 h2]
    exact writeBits_stops n s.arg hans (by simpa using hk)
  | encodeSymbol c hc => exact encodeSym_stops hc hans hk
  | writeHeader T hT =>
    obtain ⟨hv, hat, hsize⟩ := hT
    rw [commandBody, writeHeaderBody_eq hv]
    exact (ser_stops T hat (v := 0) (fuel := s.cap + 1) rfl rfl (by omega) (by omega) hans hk).bind _

end

/-- Settles O15: the pseudocode emits the command's bits, and its length fixes the two counts. -/
theorem appendingCommandsComplete : Obligations.AppendingCommandsComplete := by
  intro s i bits h ha
  obtain ⟨t, hb, bs, w, rfl, hbits, hclean⟩ := h.emits ha
  obtain ⟨hlen, hcnt⟩ := emits_count hbits
  exact ⟨bs, w, exec_of_ok h.ne_reset hb, hbits, hlen, hcnt, hclean⟩

/-- Settles O16: each of the three procedures stops at the sink. -/
theorem appendingCommandsStopAtTheSink : Obligations.AppendingCommandsStopAtTheSink :=
  fun _ _ _ _ _ h hans hk => exec_of_stopsAtSink h.ne_reset (h.stops hans hk)

/-- Settles O59: the serializer stops at the sink before it comes to the slot. -/
theorem writeHeaderStopsAtTheSink : Obligations.WriteHeaderStopsAtTheSink := by
  intro s ds j k more hv hc hn hans hk
  have hser : StopsAtSink s (headerSoFar ds) k more (ser (s.cap + 1) s.root.idx 0 s) :=
    ser_stopsBefore ds hc rfl rfl (by omega) (by omega) hans hk
  refine exec_of_stopsAtSink (i := .writeHeader) nofun ?_
  rw [commandBody, writeHeaderBody_eq hv]
  exact hser.bind _

/-! ### One offered byte, and CLOSE_WRITER -/

/-- Offering the sink a byte it has an answer to. -/
theorem perform_sent {p : Ports} {a : Answer} {rest : List Answer} (h : p.answers = a :: rest) (b : Byte) :
    p.perform [.sent b a] = { p with answers := rest, log := p.log ++ [.sent b a] } := by
  simp [Ports.perform, PortOp.token, PortOp.answered, h, List.filterMap_cons]

section
variable {s : State} (b : Byte)

theorem outByte_held (h : s.ports.answers = []) : outByte b s = .held s := by
  simp [outByte, h]

theorem outByte_reject {rest : List Answer} (h : s.ports.answers = .reject :: rest) :
    outByte b s = .raise .sinkUnwritable 0#10 (s.setPorts (s.ports.perform [.sent b .reject])) := by
  simp [outByte, perform_sent h, h]

end

theorem closeWriter_empty {s : State} (h : s.writer.cnt = 0) : closeWriter s = .ok () s := if_pos h

theorem closeWriter_offers {s : State} (h : s.writer.cnt ≠ 0) :
    closeWriter s = (outByte s.writer.buf s).bind fun _ s => .ok () (s.setWriter { buf := 0#8, cnt := 0 }) := if_neg h

/-- Settles O17: with bits pending, the sink's first answer says how the command ends. -/
theorem closeWriterFlushesThePartialByte : Obligations.CloseWriterFlushesThePartialByte := by
  refine fun s => ⟨fun h0 => exec_of_ok (i := .closeWriter) nofun (closeWriter_empty h0), fun h0 =>
    ⟨fun ha => ?_, fun rest ha => ?_, fun rest ha => ?_, byteBits_of_clean⟩⟩
  · have hb := closeWriter_offers h0
    rw [outByte_held _ ha, Res.held_bind] at hb
    exact exec_of_held (i := .closeWriter) nofun hb
  · have hb := closeWriter_offers h0
    rw [outByte_accept ⟨rest, ha.symm⟩, Res.ok_bind] at hb
    rw [exec_of_ok (i := .closeWriter) nofun hb, ← perform_sent ha]
    rfl
  · have hb := closeWriter_offers h0
    rw [outByte_reject _ ha, Res.raise_bind] at hb
    rw [exec_of_raise (i := .closeWriter) nofun hb, ← perform_sent ha]
    rfl

end Sys2Proof.Machine
end

section
/-! SUPPORT. The readers whose input runs out (40_bitstream R98): held, TRUNCATED_STREAM or SOURCE_UNREADABLE, from the law of each
procedure (Laws/BitStream.lean, Laws/Reading.lean); and how the port transactions of any command agree with its error, from
Laws/PortErrors.lean. -/

namespace Sys2Proof.Machine

/-! ### The input runs out -/

section
variable {α : Type} {s : State} {r : Res α} (h : RunsOut s r)
include h

theorem RunsOut.held (hd : s.ports.offered.drop (leadingBytes s.ports.offered).length = []) : ∃ t, r = .held t := by
  rw [RunsOut, hd] at h
  exact h

theorem RunsOut.truncated {rest : List Token}
    (hd : s.ports.offered.drop (leadingBytes s.ports.offered).length = .endOfStream :: rest) :
    ∃ t, r = .raise .truncatedStream 0#10 t ∧
      t.ports = s.ports.perform (tookAll (s.ports.offered.take ((leadingBytes s.ports.offered).length + 1))) := by
  rw [RunsOut, hd] at h
  exact h

theorem RunsOut.unreadable {rest : List Token}
    (hd : s.ports.offered.drop (leadingBytes s.ports.offered).length = .error :: rest) :
    ∃ t, r = .raise .sourceUnreadable 0#10 t ∧
      t.ports = s.ports.perform (tookAll (s.ports.offered.take ((leadingBytes s.ports.offered).length + 1))) := by
  rw [RunsOut, hd] at h
  exact h

end

section
variable {s : State} {i : Instr}

theorem Starves.ne_reset (h : Starves s i) : i ≠ .reset := by
  cases h <;> nofun

theorem Starves.runsOut (h : Starves s i) : RunsOut s (commandBody i s) := by
  cases h with
  | readBits n h1 h2 hn =>
    rw [commandBody, readBitsBody_eq h1 h2]
    exact (readBits_runsOut hn).bind _
  | readHeader T more hm hT =>
    have hp : RunsOut ((s.setNcnt 0#11).setRoot { s.root with valid := false })
        (parse (s.cap + 1) ((s.setNcnt 0#11).setRoot { s.root with valid := false })) :=
      parse_starves T (more := more) hT hm (Nat.zero_le _) (by simp)
    exact (RunsOut.congr hp rfl).bind _
  | decodeSymbol hw =>
    rw [commandBody, decodeSymbolBody_eq]
    exact (walk_runsOut hw).bind _

end

/-- Settles O20: the pseudocode of each starved reader runs out of input. -/
theorem starvedReadersStopAtTheSource : Obligations.StarvedReadersStopAtTheSource := by
  intro s i h
  refine ⟨fun hd => ?_, fun rest hd => ?_, fun rest hd => ?_⟩
  · obtain ⟨_, hb⟩ := h.runsOut.held hd
    exact exec_of_held h.ne_reset hb
  · obtain ⟨_, hb, hp⟩ := h.runsOut.truncated hd
    rw [exec_of_raise h.ne_reset hb, hp]
  · obtain ⟨_, hb, hp⟩ := h.runsOut.unreadable hd
    rw [exec_of_raise h.ne_reset hb, hp]

/-! ### Transactions and the error -/

/-- The transactions `ops` of a command and the error `err` it ends with agree: a rejected byte or an Error token is the last
transaction and the only one of its kind, exactly at its own error; TRUNCATED_STREAM has an End token last. -/
def Explains (ops : List PortOp) (err : Option ErrorKind) : Prop :=
  (∀ b, .sent b .reject ∈ ops → err = some .sinkUnwritable) ∧
  (err = some .sinkUnwritable → ∃ l b, ops = l ++ [.sent b .reject] ∧ ∀ c, .sent c .reject ∉ l) ∧
  (.took .error ∈ ops → err = some .sourceUnreadable) ∧
  (err = some .sourceUnreadable → ∃ l, ops = l ++ [.took .error] ∧ .took .error ∉ l) ∧
  (err = some .truncatedStream → ∃ l, ops = l ++ [.took .endOfStream])

section
variable {ops : List PortOp} (h : ∀ o ∈ ops, Harmless o)
include h

theorem no_reject_of_harmless (b : Byte) : .sent b .reject ∉ ops := fun hm => (h _ hm).2 b rfl

theorem no_error_of_harmless : .took .error ∉ ops := fun hm => (h _ hm).1 rfl

theorem explains_of_harmless {err : Option ErrorKind} (h1 : err ≠ some .sinkUnwritable) (h2 : err ≠ some .sourceUnreadable)
    (h3 : err = some .truncatedStream → ∃ l, ops = l ++ [.took .endOfStream]) : Explains ops err :=
  ⟨fun b hm => absurd hm (no_reject_of_harmless h b), fun he => absurd he h1, fun hm => absurd hm (no_error_of_harmless h),
    fun he => absurd he h2, h3⟩

theorem explains_reject (b : Byte) : Explains (ops ++ [.sent b .reject]) (some .sinkUnwritable) := by
  refine ⟨fun _ _ => rfl, fun _ => ⟨ops, b, rfl, no_reject_of_harmless h⟩, fun hm => ?_, nofun, nofun⟩
  have hm : .took .error ∈ ops := by simpa using hm
  exact absurd hm (no_error_of_harmless h)

theorem explains_error : Explains (ops ++ [.took .error]) (some .sourceUnreadable) := by
  refine ⟨fun b hm => ?_, nofun, fun _ => rfl, fun _ => ⟨ops, rfl, no_error_of_harmless h⟩, nofun⟩
  have hm : .sent b .reject ∈ ops := by simpa using hm
  exact absurd hm (no_reject_of_harmless h b)

end

/-- Transactions that agree with a raise explain its error. -/
theorem AgreesWith.explains {α : Type} {ops : List PortOp} {e : ErrorKind} {info : BitVec 10} {u : State}
    (h : AgreesWith ops (.raise e info u : Res α)) : Explains ops (some e) := by
  cases e with
  | sinkUnwritable =>
    obtain ⟨l, b, rfl, hl⟩ := h
    exact explains_reject hl b
  | sourceUnreadable =>
    obtain ⟨l, rfl, hl⟩ := h
    exact explains_error hl
  | truncatedStream => exact explains_of_harmless h.2 nofun nofun fun _ => h.1
  | badCommand | badLength | noCode | treeInvalid | codeTooLong | treeOverflow | badSymbol =>
    exact explains_of_harmless h nofun nofun nofun

/-- Settles O39: the transactions of the pseudocode agree with its end, and a held command has performed none. -/
theorem portTransactionsMatchTheError : Obligations.PortTransactionsMatchTheError := by
  intro i s t hi he hx
  have noError : ∀ {ops : List PortOp} {err : Option ErrorKind}, err = none → (∀ o ∈ ops, Harmless o) → Explains ops err := by
    rintro ops _ rfl hops
    exact explains_of_harmless hops nofun nofun nofun
  have hacc := commandBody_accounts i s
  rcases exec_next_cases hi hx with ⟨u, hb, hlaw, rfl⟩ | ⟨e, info, u, hb, -, rfl⟩ | ⟨-, rfl⟩
  · rw [hb] at hacc
    obtain ⟨ops, hlog, hoff, hans, hag⟩ := hacc
    exact ⟨ops, hlog, hoff, hans, noError (hlaw.frame.err.trans he) hag⟩
  · rw [hb] at hacc
    obtain ⟨ops, hlog, hoff, hans, hag⟩ := hacc
    exact ⟨ops, hlog, hoff, hans, hag.explains⟩
  · exact ⟨[], by simp, by simp, by simp, noError he (by simp)⟩

end Sys2Proof.Machine
end

section
/-! SUPPORT. ENCODE_STREAM (43_stream R138) after the bytes it has encoded: it completes, or stops at the source, at a symbol without a
code, or at the sink, by the laws of Laws/Encoding.lean. -/

namespace Sys2Proof.Machine

/-! ### Up to a token -/

/-- What ENCODE_STREAM does after its byte loop has counted `cnt` bytes: pseudo-EOF's code, the padding, RESULT. -/
def encodeStreamEnd (cnt : Word) (s : State) : Res Unit :=
  (encodeSym eofSymbol s).bind fun _ s => (closeWriter s).bind fun _ s => .ok () (s.setResult cnt)

theorem encodeStreamBody_eq (s : State) :
    encodeStreamBody s = (encodeLoop (s.ports.offered.length + 1) 0#32 s).bind encodeStreamEnd := rfl

section
variable {s : State} {bytes : List Byte} {bits : List Bool}

/-- ENCODE_STREAM has encoded `bytes` and stands before the tokens `more`. -/
theorem encodeStreamBody_bytes {more : List Token} (ho : s.ports.offered = bytes.map .byte ++ more)
    (he : s.encodeAll (bytes.map byteSymbol) = some bits) (ha : s.sinkAccepts ((s.writer.cnt.val + bits.length) / 8)) :
    ∃ t, encodeStreamBody s = (encodeLoop (more.length + 1) (BitVec.ofNat 32 bytes.length) t).bind encodeStreamEnd ∧
      Pipes s t (bytes.map .byte) bits ∧ t.ports.offered = more := by
  obtain ⟨t, ht, hp, hto⟩ := encodeLoop_bytes bytes (c := 0#32) (fuel := more.length + 1) ho he ha
  refine ⟨t, ?_, hp, hto⟩
  rw [encodeStreamBody_eq, show s.ports.offered.length + 1 = bytes.length + (more.length + 1) by rw [ho]; simp; omega, ht,
    BitVec.zero_add]

/-- ENCODE_STREAM has encoded `bytes` and then takes the token x. -/
theorem encodeStreamBody_token {x : Token} {rest : List Token} (ho : s.ports.offered = bytes.map .byte ++ x :: rest)
    (he : s.encodeAll (bytes.map byteSymbol) = some bits) (ha : s.sinkAccepts ((s.writer.cnt.val + bits.length) / 8)) :
    ∃ t u, encodeStreamBody s =
        (encodeLoop (rest.length + 2) (BitVec.ofNat 32 bytes.length) t).bind encodeStreamEnd ∧
      inToken t = .ok x u ∧ Pipes s u (bytes.map .byte ++ [x]) bits := by
  obtain ⟨t, hb, hp, hto⟩ := encodeStreamBody_bytes ho he ha
  obtain ⟨u, hu, hpu, -⟩ := inToken_pipes hto
  exact ⟨t, u, hb, hu, by simpa using hp.trans hpu⟩

end

section
variable {t u : State} (fuel : Nat) (cnt : Word)

theorem encodeLoop_held (h : t.ports.offered = []) : encodeLoop (fuel + 1) cnt t = .held t := by
  simp [encodeLoop, inToken, h]

theorem encodeLoop_end (h : inToken t = .ok .endOfStream u) : encodeLoop (fuel + 1) cnt t = .ok cnt u := by
  rw [encodeLoop, h, Res.ok_bind]

theorem encodeLoop_error (h : inToken t = .ok .error u) :
    encodeLoop (fuel + 1) cnt t = .raise .sourceUnreadable 0#10 u := by
  rw [encodeLoop, h, Res.ok_bind]

theorem encodeLoop_noCode {b : Byte} (h : inToken t = .ok (.byte b) u) (hb : u.codeOf (byteSymbol b) = none) :
    encodeLoop (fuel + 1) cnt t = .raise .noCode ((byteSymbol b).setWidth 10) u := by
  rw [encodeLoop, h, Res.ok_bind]
  simp only [encodeSym_noCode hb, Res.raise_bind]

theorem encodeStreamEnd_noCode (h : u.codeOf eofSymbol = none) : encodeStreamEnd cnt u = .raise .noCode 257#10 u := by
  rw [encodeStreamEnd, encodeSym_noCode h, Res.raise_bind]
  rfl

end

theorem byteSymbol_setWidth (b : Byte) : (byteSymbol b).setWidth 10 = b.setWidth 10 :=
  BitVec.setWidth_setWidth (by omega)

/-! ### It completes -/

/-- Pseudo-EOF's code and the padding, after a clean writer. -/
theorem encodeStreamEnd_emits {s : State} {code : List Bool} (cnt : Word) (hc : s.codeOf eofSymbol = some code)
    (hcl : s.writer.clean) (ha : s.sinkAccepts ((s.writer.cnt.val + code.length + 7) / 8)) :
    ∃ bs pad, encodeStreamEnd cnt s = .ok ()
        { s with result := cnt, writer := { buf := 0#8, cnt := 0 }, ports := s.ports.perform (sentAll bs) } ∧
      pad < 8 ∧ streamBits bs = s.writer.pending ++ code ++ List.replicate pad false := by
  obtain ⟨t, ht, hem⟩ := encodeSym_emits hc (sinkAccepts_mono ha (by omega))
  have hta : t.sinkAccepts ((t.writer.cnt.val + 7) / 8) := hem.sinkAccepts ha
  obtain ⟨b1, w, rfl, hbits, hclean⟩ := hem
  obtain ⟨b2, pad, hclose, hpad, hbits2⟩ := closeWriter_emits (hclean hcl) hta
  refine ⟨b1 ++ b2, pad, ?_, hpad, ?_⟩
  · rw [encodeStreamEnd, ht, Res.ok_bind, hclose, Res.ok_bind, sentAll_append, ← Ports.perform_append]
    rfl
  · rw [streamBits_append, hbits2, ← List.append_assoc, hbits]

/-- Settles O32: the byte loop ends at End, and the rest of the command empties the writer. -/
theorem encodeStreamWritesTheBody : Obligations.EncodeStreamWritesTheBody := by
  intro s bytes bits more ho he hcl ha
  obtain ⟨body, code, hbody, hcode, rfl⟩ := encodeAll_append he
  rw [List.length_append, ← Nat.add_assoc] at ha
  obtain ⟨t, u, hb, hu, hp⟩ := encodeStreamBody_token ho hbody (sinkAccepts_mono ha (by omega))
  have hcode' : u.codeOf eofSymbol = some code := (codeOf_congr hp.code_eq _).trans (encodeAll_singleton hcode)
  have hua : u.sinkAccepts ((u.writer.cnt.val + code.length + 7) / 8) := by
    rw [Nat.add_assoc]
    exact hp.sinkAccepts (by rwa [← Nat.add_assoc])
  obtain ⟨ops, bs, w, rfl, htok, hacc, hans, hbits, hclean⟩ := hp
  obtain ⟨cs, pad, hend, hpad, hbits2⟩ := encodeStreamEnd_emits (BitVec.ofNat 32 bytes.length) hcode' (hclean hcl) hua
  rw [encodeLoop_end _ _ hu, Res.ok_bind, hend] at hb
  refine ⟨ops ++ sentAll cs, bs ++ cs, pad, ?_, hpad, ?_, by simp [htok], by simp [hacc], ?_⟩
  · rw [exec_of_ok (i := .encodeStream) nofun hb, ← Ports.perform_append]
    rfl
  · rw [streamBits_append, hbits2]
    simp only [← List.append_assoc, hbits]
  · rw [List.filterMap_append, hans, sentAll_answered, List.length_append, List.replicate_append_replicate]

/-! ### It stops -/

/-- ENCODE_STREAM that raises where it has consumed `toks` and appended `bits`. -/
theorem exec_encodeStream_raise {s u : State} {toks : List Token} {bits : List Bool} {e : ErrorKind} {info : BitVec 10}
    (hp : Pipes s u toks bits) (hb : encodeStreamBody s = .raise e info u) :
    ∃ ops bs, exec .encodeStream s = .next (faultEntry e info { s with ports := s.ports.perform ops }) ∧
      ops.filterMap PortOp.token = toks ∧ ops.filterMap PortOp.accepted = bs ∧
      ops.filterMap PortOp.answered = List.replicate bs.length .accept ∧
      bs.length = (s.writer.cnt.val + bits.length) / 8 ∧ streamBits bs <+: s.writer.pending ++ bits := by
  obtain ⟨ops, bs, w, rfl, htok, hacc, hans, hbits, -⟩ := hp
  exact ⟨ops, bs, exec_of_raise (i := .encodeStream) nofun hb, htok, hacc, hans, (emits_count hbits).1, w.pending, hbits⟩

/-- Settles O33: the token after the bytes says how the command ends. -/
theorem encodeStreamStopsInOrder : Obligations.EncodeStreamStopsInOrder := by
  intro s bytes bits more ho he ha
  refine ⟨?_, ?_⟩
  · rintro rfl
    obtain ⟨t, hb, -, hto⟩ := encodeStreamBody_bytes ho he ha
    rw [encodeLoop_held _ _ hto, Res.held_bind] at hb
    exact exec_of_held (i := .encodeStream) nofun hb
  · rintro x rest e info rfl hx
    obtain ⟨t, u, hb, hu, hp⟩ := encodeStreamBody_token ho he ha
    have hcode := codeOf_congr hp.code_eq
    refine exec_encodeStream_raise hp (hb.trans ?_)
    rcases hx with ⟨rfl, rfl, rfl⟩ | ⟨b, rfl, hnc, rfl, rfl⟩ | ⟨rfl, hnc, rfl, rfl⟩
    · rw [encodeLoop_error _ _ hu, Res.raise_bind]
    · rw [encodeLoop_noCode _ _ hu ((hcode _).trans hnc), Res.raise_bind, byteSymbol_setWidth]
    · rw [encodeLoop_end _ _ hu, Res.ok_bind, encodeStreamEnd_noCode _ ((hcode _).trans hnc)]

theorem PipesStop.held {α : Type} {s : State} {toks : List Token} {bits : List Bool} {k : Nat} {r : Res α}
    (h : PipesStop s toks bits k [] r) : ∃ t, r = .held t := h

theorem PipesStop.rejected {α : Type} {s : State} {toks : List Token} {bits : List Bool} {k : Nat} {rest : List Answer}
    {r : Res α} (h : PipesStop s toks bits k (.reject :: rest) r) :
    ∃ t ops bs b, r = .raise .sinkUnwritable 0#10 t ∧ t.ports = s.ports.perform (ops ++ [.sent b .reject]) ∧
      ops.filterMap PortOp.token = toks ∧ ops.filterMap PortOp.accepted = bs ∧
      ops.filterMap PortOp.answered = List.replicate k .accept ∧ bs.length = k ∧
      streamBits (bs ++ [b]) <+: s.writer.pending ++ bits := h

/-- Settles O55: the pseudocode stops at the sink at the token x. -/
theorem encodeStreamStopsAtTheSink : Obligations.EncodeStreamStopsAtTheSink := by
  intro s bytes bits code x rest pad k more ho he hx hans h1 h2
  have hstop := encodeStreamBody_stops ho he hx hans h1 h2
  refine ⟨?_, ?_⟩
  · rintro rfl
    obtain ⟨_, hb⟩ := hstop.held
    exact exec_of_held (i := .encodeStream) nofun hb
  · rintro answers rfl
    obtain ⟨_, ops, bs, b, hb, hp, htok, hacc, hans', hlen, hbits⟩ := hstop.rejected
    refine ⟨ops, bs, b, ?_, htok, hacc, hans', hlen, ?_⟩
    · rw [exec_of_raise (i := .encodeStream) nofun hb, hp]
    · simpa only [List.append_assoc] using hbits

end Sys2Proof.Machine
end

section
/-! SUPPORT. DECODE_STREAM (43_stream R140) after the bytes it has sent: it completes, or stops at a symbol that is no byte, at the
source, or at the sink, by the laws of Laws/Decoding.lean. -/

namespace Sys2Proof.Machine

/-! ### Successive walks, and walks that go on -/

theorem walksThrough_trans {s : State} {a b : List Symbol} {bits mid rest : List Bool} (h : s.walksThrough a bits mid)
    (g : s.walksThrough b mid rest) : s.walksThrough (a ++ b) bits rest := by
  induction a generalizing bits with
  | nil =>
    obtain rfl : bits = mid := h
    exact g
  | cons sym a ih =>
    obtain ⟨p, m, hbits, hw, h⟩ := h
    exact ⟨p, m, hbits, hw, ih h⟩

theorem walksThrough_one {s : State} {sym : Symbol} {path rest : List Bool} (h : s.walksTo path sym) :
    s.walksThrough [sym] (path ++ rest) rest := ⟨path, rest, rfl, h, rfl⟩

/-- A walk depends on the parameters, ROOT and the tree RAM only. -/
theorem walkGoesOn_congr {s t : State} {path : List Bool} (h : s.walkGoesOn path) (h1 : t.params = s.params)
    (h2 : t.root = s.root) (h3 : t.tree = s.tree) : t.walkGoesOn path := by
  unfold State.walkGoesOn State.cap at h ⊢
  rwa [h1, h2, h3]

/-! ### Up to a walk -/

/-- DECODE_STREAM has sent `bytes`, taken the bits of one more walk, and stands at that walk's symbol. -/
theorem decodeStreamBody_walk {s : State} {bytes : List Byte} {sym : Symbol} {rest : List Bool}
    (hd : s.walksThrough (bytes.map byteSymbol ++ [sym]) s.inBits rest) (ha : s.sinkAccepts bytes.length) :
    ∃ t u used f, decodeStreamBody s =
        (decodeLoop (f + 1) (BitVec.ofNat 32 bytes.length) t).bind (fun c s => .ok () (s.setResult c)) ∧
      walk t = .ok sym u ∧ Yields (s.setEos false) u used bytes ∧ used.length = s.inBits.length - rest.length := by
  obtain ⟨mid, hd, hlast⟩ := walksThrough_append hd
  obtain ⟨t, used, f, hb, hy, rfl⟩ := decodeStreamBody_bytes bytes hd ha
  obtain ⟨hparams, hroot, htree⟩ := hy.tree_eq
  obtain ⟨path, m, hin, hw, hm⟩ := walksThrough_congr (t := t) hlast hparams hroot htree
  obtain rfl : m = rest := hm
  obtain ⟨u, hu, hk⟩ := walk_ends hw hin
  have hbits : s.inBits = used ++ t.inBits := hy.inBits
  refine ⟨t, u, used ++ path, f, hb, hu, by simpa using hy.trans hk.yields, ?_⟩
  rw [hbits, hin]
  simp
  omega

section
variable {t u : State} {sym : Symbol} (fuel : Nat) (cnt : Word)

theorem decodeLoop_end (h : walk t = .ok eofSymbol u) :
    decodeLoop (fuel + 1) cnt t = .ok cnt ((u.setEos true).setReader { u.reader with cnt := 0 }) := by
  rw [decodeLoop, h, Res.ok_bind, if_pos rfl]

theorem decodeLoop_badSymbol (h : walk t = .ok sym u) (h1 : 255 < sym.toNat) (h2 : sym ≠ eofSymbol) :
    decodeLoop (fuel + 1) cnt t = .raise .badSymbol (sym.setWidth 10) u := by
  rw [decodeLoop, h, Res.ok_bind, if_neg h2, if_pos h1]

theorem decodeLoop_byte {b : Byte} (h : walk t = .ok (byteSymbol b) u) :
    decodeLoop (fuel + 1) cnt t = (outByte b u).bind fun _ s => decodeLoop fuel (cnt + 1#32) s := by
  obtain ⟨hne, hsmall, hbyte⟩ := byteSymbol_small b
  rw [decodeLoop, h, Res.ok_bind, if_neg hne, if_neg hsmall, hbyte]

end

/-! ### It completes -/

/-- Settles O35: the walk to pseudo-EOF ends the loop. -/
theorem decodeStreamWritesTheBytes : Obligations.DecodeStreamWritesTheBytes := by
  intro s bytes rest hd ha
  obtain ⟨t, u, used, f, hb, hu, hy, hlen⟩ := decodeStreamBody_walk hd ha
  obtain ⟨r, k, ops, rfl, htok, hacc, hans, rfl, -, -, -, hsame, hlast⟩ := hy
  rw [decodeLoop_end _ _ hu, Res.ok_bind] at hb
  simp only [State.setEos_reader, State.setEos_ports, hlen] at htok hsame hlast
  exact ⟨ops, r.buf, exec_of_ok (i := .decodeStream) nofun hb, hacc, hans, htok, hsame, hlast⟩

/-! ### It stops -/

section
variable {s : State} {bytes : List Byte} {mid : List Bool} (hd : s.walksThrough (bytes.map byteSymbol) s.inBits mid)
  (ha : s.sinkAccepts bytes.length) (hw : s.walkGoesOn mid)
include hd ha hw

/-- DECODE_STREAM runs out of input within the walk after `bytes`. -/
theorem decodeStreamBody_runsOut :
    ∃ t used, Yields (s.setEos false) t used bytes ∧ RunsOut t (decodeStreamBody s) := by
  obtain ⟨t, used, f, hb, hy, rfl⟩ := decodeStreamBody_bytes bytes hd ha
  obtain ⟨hparams, hroot, htree⟩ := hy.tree_eq
  have hwalk : RunsOut t (walk t) := walk_runsOut (walkGoesOn_congr hw hparams hroot htree)
  refine ⟨t, used, hy, ?_⟩
  rw [hb, decodeLoop]
  exact (hwalk.bind _).bind _

theorem exec_decodeStream_held (hn : s.ports.offered.drop (leadingBytes s.ports.offered).length = []) :
    exec .decodeStream s = .next s := by
  obtain ⟨t, used, hy, hr⟩ := decodeStreamBody_runsOut hd ha hw
  obtain ⟨u, hb⟩ := (hy.thenRunsOut hr).1 hn
  exact exec_of_held (i := .decodeStream) nofun hb

/-- The token x behind the readable bytes raises e: the bytes and x have been consumed, `bytes` sent. -/
theorem exec_decodeStream_starved {x : Token} {e : ErrorKind}
    (hn : ∃ more, s.ports.offered.drop (leadingBytes s.ports.offered).length = x :: more)
    (hx : (x = .endOfStream ∧ e = .truncatedStream) ∨ (x = .error ∧ e = .sourceUnreadable)) :
    ∃ ops, exec .decodeStream s = .next (faultEntry e 0#10 { s with ports := s.ports.perform ops }) ∧
      ops.filterMap PortOp.token = s.ports.offered.take ((leadingBytes s.ports.offered).length + 1) ∧
      ops.filterMap PortOp.accepted = bytes ∧ ops.filterMap PortOp.answered = List.replicate bytes.length .accept := by
  obtain ⟨more, hn⟩ := hn
  obtain ⟨t, used, hy, hr⟩ := decodeStreamBody_runsOut hd ha hw
  obtain ⟨u, ops, hb, hp, hops⟩ := (hy.thenRunsOut hr).2 x more e hn hx
  exact ⟨ops, by rw [exec_of_raise (i := .decodeStream) nofun hb, hp]; rfl, hops⟩

end

/-- DECODE_STREAM whose walk after `bytes` ends at a symbol that is neither a byte nor pseudo-EOF. -/
theorem exec_decodeStream_badSymbol {s : State} {bytes : List Byte} {sym : Symbol} {rest : List Bool}
    (hd : s.walksThrough (bytes.map byteSymbol ++ [sym]) s.inBits rest) (ha : s.sinkAccepts bytes.length)
    (h1 : 255 < sym.toNat) (h2 : sym ≠ eofSymbol) :
    ∃ ops, exec .decodeStream s =
        .next (faultEntry .badSymbol (sym.setWidth 10) { s with ports := s.ports.perform ops }) ∧
      ops.filterMap PortOp.token = s.ports.offered.take (tokensFor s.reader.cnt.val (s.inBits.length - rest.length)) ∧
      ops.filterMap PortOp.accepted = bytes ∧ ops.filterMap PortOp.answered = List.replicate bytes.length .accept := by
  obtain ⟨t, u, used, f, hb, hu, hy, hlen⟩ := decodeStreamBody_walk hd ha
  obtain ⟨ops, hp, htok, hops⟩ := hy.ports
  rw [decodeLoop_badSymbol _ _ hu h1 h2, Res.raise_bind] at hb
  rw [hlen] at htok
  exact ⟨ops, by rw [exec_of_raise (i := .decodeStream) nofun hb, hp]; rfl, htok, hops⟩

/-- Settles O36: after the bytes, a walk to a symbol that is no byte, or one that runs out of input. -/
theorem decodeStreamStopsInOrder : Obligations.DecodeStreamStopsInOrder := by
  refine fun s bytes mid hd ha => ⟨fun hw hn => exec_decodeStream_held hd ha hw hn, ?_⟩
  rintro e info k (⟨path, rest, sym, rfl, hw, h1, h2, rfl, rfl, rfl⟩ | ⟨hw, hn, rfl, rfl, rfl⟩ | ⟨hw, hn, rfl, rfl, rfl⟩)
  · exact exec_decodeStream_badSymbol (walksThrough_trans hd (walksThrough_one hw)) ha h1 h2
  · exact exec_decodeStream_starved hd ha hw hn (.inl ⟨rfl, rfl⟩)
  · exact exec_decodeStream_starved hd ha hw hn (.inr ⟨rfl, rfl⟩)

/-- Settles O56: the byte of the last walk is offered, and the sink's next answer says how the command ends. -/
theorem decodeStreamStopsAtTheSink : Obligations.DecodeStreamStopsAtTheSink := by
  intro s bytes b rest more hd hans
  rw [List.map_append] at hd
  obtain ⟨t, u, used, f, hb, hu, hy, hlen⟩ := decodeStreamBody_walk hd ⟨more, hans.symm⟩
  rw [decodeLoop_byte _ _ hu] at hb
  obtain ⟨ops, hp, htok, hacc, hops⟩ := hy.ports
  rw [hlen] at htok
  have hua : u.ports.answers = more := by simp [hp, Ports.perform, hops, hans]
  refine ⟨?_, ?_⟩
  · rintro rfl
    rw [outByte_held b hua, Res.held_bind, Res.held_bind] at hb
    exact exec_of_held (i := .decodeStream) nofun hb
  · rintro answers rfl
    rw [outByte_reject b hua, Res.raise_bind, Res.raise_bind] at hb
    refine ⟨ops, ?_, htok, hacc, hops⟩
    rw [exec_of_raise (i := .decodeStream) nofun hb, State.setPorts_ports, hp, Ports.perform_append]
    rfl

end Sys2Proof.Machine
end

section
/-! SUPPORT. The command word as OP and LEN between zero reserved bits (30_encoding R71): decoding and encoding both go through
the fields, so each undoes the other, and a word has no command exactly when it fails a check of R75. -/

namespace Sys2Proof

/-! ### The word of an OP and a LEN -/

/-- The word with the fields OP and LEN, its reserved bits 0 (30_encoding R71). -/
def fieldsWord (op : BitVec 4) (len : BitVec 6) : Word := 0#18 ++ len ++ 0#4 ++ op

section
variable (op : BitVec 4) (len : BitVec 6)

@[simp] theorem opField_fieldsWord : opField (fieldsWord op len) = op := BitVec.extractLsb'_append_eq_right

@[simp] theorem lowReserved_fieldsWord : lowReserved (fieldsWord op len) = 0#4 :=
  (BitVec.extractLsb'_append_eq_of_le (Nat.le_refl 4)).trans BitVec.extractLsb'_append_eq_right

@[simp] theorem lenField_fieldsWord : lenField (fieldsWord op len) = len :=
  calc lenField (fieldsWord op len)
    _ = (0#18 ++ len ++ 0#4).extractLsb' 4 6 := BitVec.extractLsb'_append_eq_of_le (by decide)
    _ = (0#18 ++ len).extractLsb' 0 6 := BitVec.extractLsb'_append_eq_of_le (Nat.le_refl 4)
    _ = len := BitVec.extractLsb'_append_eq_right

@[simp] theorem highReserved_fieldsWord : highReserved (fieldsWord op len) = 0#18 :=
  calc highReserved (fieldsWord op len)
    _ = (0#18 ++ len ++ 0#4).extractLsb' 10 18 := BitVec.extractLsb'_append_eq_of_le (by decide)
    _ = (0#18 ++ len).extractLsb' 6 18 := BitVec.extractLsb'_append_eq_of_le (by decide)
    _ = 0#18 := BitVec.extractLsb'_append_eq_left

/-- The encoder's `OP | (n << 8)` has OP and n as its fields (30_encoding R72). -/
theorem commandWord_eq_fieldsWord : commandWord (op.setWidth 32) len.toNat = fieldsWord op len := by
  have happend : (fieldsWord op len).setWidth 32 = _ :=
    BitVec.setWidth_append_append_append_eq_shiftLeft_setWidth_or (w'''' := 32)
  rw [BitVec.setWidth_eq] at happend
  rw [happend, commandWord, BitVec.ofNat_toNat]
  simp [BitVec.or_comm]

end

/-! ### OP and LEN name the command -/

/-- OP and LEN name the command i: OP's row of the table is i, and LEN is 0 unless the row takes one (30_encoding R72, R75). -/
def Names (op : BitVec 4) (len : BitVec 6) (i : Instr) : Prop :=
  opTable op len.toNat = some i ∧ (op = 1#4 ∨ op = 3#4 ∨ len = 0#6)

/-- OP names no operation at three values (30_encoding R75, check 1). -/
theorem opTable_eq_none {op : BitVec 4} {len : Nat} : opTable op len = none ↔ op = 0xC#4 ∨ op = 0xD#4 ∨ op = 0xE#4 := by
  rcases op_cases op with h | h | h | h | h | h | h | h | h | h | h | h | h | h | h | h <;> subst h <;> simp [opTable]

/-- LEN of a row that takes one is what the table was given. -/
theorem opTable_len {op : BitVec 4} {len n : Nat}
    (h : opTable op len = some (.writeBits n) ∨ opTable op len = some (.readBits n)) : n = len := by
  unfold opTable at h
  split at h <;> simp at h <;> exact h.symm

/-- A command that an OP and a LEN name is well formed, and its word has these fields. -/
theorem Names.encode_eq {op : BitVec 4} {len : BitVec 6} {i : Instr} (h : Names op len i) :
    i.wellFormed = true ∧ encode i = fieldsWord op len := by
  obtain ⟨htab, rfl | rfl | rfl⟩ := h
  · obtain rfl : Instr.writeBits len.toNat = i := Option.some.inj htab
    exact ⟨decide_eq_true len.isLt, commandWord_eq_fieldsWord 1#4 len⟩
  · obtain rfl : Instr.readBits len.toNat = i := Option.some.inj htab
    exact ⟨decide_eq_true len.isLt, commandWord_eq_fieldsWord 3#4 len⟩
  · rcases op_cases op with h | h | h | h | h | h | h | h | h | h | h | h | h | h | h | h <;> subst h <;> cases htab <;>
      exact ⟨rfl, rfl⟩

/-- Every well-formed command has an OP and a LEN that name it. -/
theorem exists_names {i : Instr} (h : i.wellFormed = true) : ∃ op len, Names op len i := by
  have hlen {n : Nat} (hn : lenFits n = true) : (BitVec.ofNat 6 n).toNat = n := Nat.mod_eq_of_lt (of_decide_eq_true hn)
  have hzero {op : BitVec 4} (htab : opTable op 0 = some i) : ∃ op len, Names op len i := ⟨op, 0#6, htab, .inr (.inr rfl)⟩
  cases i with
  | nop => exact hzero (op := 0x0#4) rfl
  | writeBits n => exact ⟨0x1#4, BitVec.ofNat 6 n, by rw [hlen h]; rfl, .inl rfl⟩
  | closeWriter => exact hzero (op := 0x2#4) rfl
  | readBits n => exact ⟨0x3#4, BitVec.ofNat 6 n, by rw [hlen h]; rfl, .inr (.inl rfl)⟩
  | readerAlign => exact hzero (op := 0x4#4) rfl
  | genCodes => exact hzero (op := 0x5#4) rfl
  | writeHeader => exact hzero (op := 0x6#4) rfl
  | readHeader => exact hzero (op := 0x7#4) rfl
  | encodeSymbol => exact hzero (op := 0x8#4) rfl
  | encodeStream => exact hzero (op := 0x9#4) rfl
  | decodeSymbol => exact hzero (op := 0xA#4) rfl
  | decodeStream => exact hzero (op := 0xB#4) rfl
  | reset => exact hzero (op := 0xF#4) rfl

/-! ### The decoder on the fields -/

/-- A word decodes to i exactly when its reserved bits are 0 and its OP and LEN name i: `decode_ok` and its converse. -/
theorem decode_eq_ok_iff {w : Word} {i : Instr} :
    decode w = .ok i ↔ lowReserved w = 0#4 ∧ highReserved w = 0#18 ∧ Names (opField w) (lenField w) i := by
  refine ⟨decode_ok, fun ⟨hlow, hhigh, htab, hlen⟩ => ?_⟩
  have h4 : ¬ (lenField w ≠ 0#6 ∧ opTakesLen (opField w) = false) := by
    rintro ⟨hne, hop⟩
    rcases hlen with h | h | h
    · simp [opTakesLen, h] at hop
    · simp [opTakesLen, h] at hop
    · exact hne h
  simp only [decode, htab, hlow, hhigh, if_neg h4, ne_eq, not_true_eq_false, if_false]

/-- OP and LEN, without the checks, already say what a word that decodes is. -/
theorem opTable_of_decode {w : Word} {i : Instr} (h : decode w = .ok i) : opTable (opField w) (lenField w).toNat = some i := by
  obtain ⟨-, -, htab, -⟩ := decode_ok h
  exact htab

theorem decode_fieldsWord {op : BitVec 4} {len : BitVec 6} {i : Instr} (h : Names op len i) :
    decode (fieldsWord op len) = .ok i := by
  simp [decode_eq_ok_iff, h]

/-- A word with zero reserved bits is the word of its OP and LEN. -/
theorem eq_fieldsWord {w : Word} (hlow : lowReserved w = 0#4) (hhigh : highReserved w = 0#18) :
    w = fieldsWord (opField w) (lenField w) := by
  conv_lhs => rw [word_fields w, hlow, hhigh]
  rfl

/-- Settles O1: the command's word is the word of the OP and LEN that name it. -/
theorem decodeUndoesEncode : Obligations.DecodeUndoesEncode := by
  intro i hi
  obtain ⟨op, len, h⟩ := exists_names hi
  rw [h.encode_eq.2]
  exact decode_fieldsWord h

/-- Settles O2: the checks leave nothing of the word but the OP and LEN that name the command. -/
theorem encodeUndoesDecode : Obligations.EncodeUndoesDecode := by
  intro w i hd
  obtain ⟨hlow, hhigh, h⟩ := decode_eq_ok_iff.1 hd
  rw [eq_fieldsWord hlow hhigh]
  exact h.encode_eq

/-- Settles O4: by evaluation of the decoder on the eighteen words. -/
theorem tableWordsDecode : Obligations.TableWordsDecode := by
  unfold Obligations.TableWordsDecode
  decide

end Sys2Proof

namespace Sys2Proof.Machine

/-! ### The engine's check -/

/-- The four checks of 30_encoding R75, by the decoder's fields. -/
theorem failsCheck_iff {w : Word} :
    failsCheck w ↔ opTable (opField w) (lenField w).toNat = none ∨ lowReserved w ≠ 0#4 ∨ highReserved w ≠ 0#18 ∨
      ¬ (opField w = 1#4 ∨ opField w = 3#4 ∨ lenField w = 0#6) := by
  rw [opTable_eq_none, not_or, not_or]
  exact or_congr_right (or_congr_right (or_congr_right and_rotate))

/-- The decoder rejects exactly the words that fail a check. -/
theorem exists_decode_iff {w : Word} : (∃ i, decode w = .ok i) ↔ ¬ failsCheck w := by
  rw [failsCheck_iff, not_or, not_or, not_or, not_not, not_not, not_not]
  constructor
  · rintro ⟨i, hd⟩
    obtain ⟨hlow, hhigh, htab, hlen⟩ := decode_ok hd
    exact ⟨htab ▸ Option.some_ne_none i, hlow, hhigh, hlen⟩
  · rintro ⟨hop, hlow, hhigh, hlen⟩
    obtain ⟨i, htab⟩ := Option.ne_none_iff_exists'.1 hop
    exact ⟨i, decode_eq_ok_iff.2 ⟨hlow, hhigh, htab, hlen⟩⟩

theorem engineStep_of_ok {s : State} {i : Instr} (h : decode s.cmd = .ok i) : engineStep s = exec i s := by
  simp [engineStep, h]

theorem engineStep_of_failsCheck {s : State} (h : failsCheck s.cmd) : engineStep s = .next (badCommand s) := by
  unfold engineStep
  split
  next i hd => exact absurd h (exists_decode_iff.1 ⟨i, hd⟩)
  next => rfl

/-- Settles O3: a word decodes exactly when it fails no check, and a word that decodes is its command's own. -/
theorem wordCheckRaisesBadCommand : Obligations.WordCheckRaisesBadCommand := by
  refine fun s => ⟨engineStep_of_failsCheck, fun h => ?_, fun hop hne => ?_, fun hd => ?_⟩
  · obtain ⟨i, hd⟩ := exists_decode_iff.2 h
    exact ⟨i, hd, engineStep_of_ok hd⟩
  · by_contra h
    obtain ⟨i, hd⟩ := exists_decode_iff.2 h
    have htab := opTable_of_decode hd
    rw [show opField s.cmd = 0xF#4 from hop] at htab
    obtain rfl : Instr.reset = i := Option.some.inj htab
    exact hne (decode_reset hd)
  · exact (encodeUndoesDecode _ _ hd).2.symm

/-! ### BAD_LENGTH -/

theorem lenLegal_eq_false {n : Nat} (h : n = 0 ∨ 32 < n) : lenLegal n = false := by
  simp [lenLegal, maxLen]; omega

/-- A command raises only errors its pseudocode raises: from ERR = 0, no other is recorded. -/
theorem exec_err_of_raisesOnly {p : ErrorKind → Prop} {i : Instr} (hi : i ≠ .reset) {s t : State}
    (hr : RaisesOnly p (commandBody i s)) (hx : exec i s = .next t) (hs : s.err = none) {e : ErrorKind}
    (he : t.err = some e) : p e := by
  rcases exec_next_cases hi hx with ⟨u, -, hlaw, rfl⟩ | ⟨e', info, u, hb, -, rfl⟩ | ⟨-, rfl⟩
  · exact absurd (he.symm.trans (hlaw.frame.err.trans hs)) nofun
  · obtain rfl : e' = e := Option.some.inj he
    exact hr _ _ _ hb
  · exact absurd (he.symm.trans hs) nofun

/-- Settles O5: the table is given the LEN field, and past the test of LEN only the ports raise. -/
theorem lengthOutOfRangeRaisesBadLength : Obligations.LengthOutOfRangeRaisesBadLength := by
  refine ⟨fun w n hd => opTable_len (hd.imp opTable_of_decode opTable_of_decode),
    fun s n => ⟨fun hn => ?_, fun h1 h2 t hx hs he => ?_⟩⟩
  · have hl := Bool.eq_false_iff.1 (lenLegal_eq_false hn)
    exact ⟨exec_of_raise (i := .writeBits n) nofun (if_neg hl), exec_of_raise (i := .readBits n) nofun (if_neg hl)⟩
  · rcases hx with hx | hx
    · have hr : RaisesOnly (· = .sinkUnwritable) (commandBody (.writeBits n) s) := by
        rw [commandBody, writeBitsBody_eq h1 h2]
        exact writeBits_raises n _ s
      exact absurd (exec_err_of_raisesOnly (i := .writeBits n) nofun hr hx hs he) nofun
    · have hr : RaisesOnly (fun e => e = .truncatedStream ∨ e = .sourceUnreadable) (commandBody (.readBits n) s) := by
        rw [commandBody, readBitsBody_eq h1 h2]
        exact (readBits_raises n s).bind fun _ _ => raisesOnly_ok _ _
      rcases exec_err_of_raisesOnly (i := .readBits n) nofun hr hx hs he with h | h <;> cases h

end Sys2Proof.Machine
end

section
/-! SUPPORT. READER_ALIGN (40_bitstream R103), whose pseudocode cannot raise, be held or meet UNINIT. -/

namespace Sys2Proof.Machine

theorem commandBody_readerAlign (s : State) :
    commandBody .readerAlign s = .ok () (s.setReader { s.reader with cnt := 0 }) := rfl

/-- Settles O19: the pseudocode completes in every state, having set nothing but RCNT. -/
theorem readerAlignDropsTheUnreadBits : Obligations.ReaderAlignDropsTheUnreadBits :=
  fun s => exec_of_ok (i := .readerAlign) nofun (commandBody_readerAlign s)

end Sys2Proof.Machine
end

section
/-! SUPPORT. GEN_CODES at the first faulting leaf in pre-order (41_codetable R111, 60_exceptions R170), the table it leaves when it
completes (R112), and the four tree commands at a root that is its own left child (R142). -/

namespace Sys2Proof.Machine

/-! ### The first faulting leaf -/

/-- Settles O26: the law of GEN_CODES up to a leaf, at a leaf that is too deep or repeats a symbol. -/
theorem genCodesReportsTheFirstFault : Obligations.GenCodesReportsTheFirstFault := by
  intro s ds j sym hv hc hn hj hr hlen hd
  obtain ⟨hdeep, hrepeats⟩ := genCodesBody_faultingLeaf hv hc hn hj hr hlen hd
  refine ⟨fun hl => ?_, fun hl hs => ?_⟩
  · obtain ⟨t, hb, hp⟩ := hdeep hl
    rw [exec_of_raise (i := .genCodes) nofun hb, hp]
  · obtain ⟨t, hb, hp⟩ := hrepeats hl hs
    rw [exec_of_raise (i := .genCodes) nofun hb, hp]

/-! ### The table of a GEN_CODES that completes -/

section
variable {s : State} {T : HTree} (hT : s.hasTree T) (hd : T.symbols.Nodup)
include hT hd

/-- The first leaf deeper than 32 decides, the symbols being distinct. -/
theorem exec_genCodes_tooDeep {before after : List (List Bool × Symbol)} {c : List Bool} {sym : Symbol}
    (hp : T.paths = before ++ (c, sym) :: after) (hlen : ∀ e ∈ before, e.1.length ≤ 32) (hc : 32 < c.length) :
    exec .genCodes s = .next (faultEntry .codeTooLong (sym.setWidth 10) s) := by
  obtain ⟨hv, htree, hsize⟩ := hT
  obtain ⟨ds, j, hcomes, hdepth, rfl, hvisits, hj, hr⟩ := treeAt_comesTo T htree hp
  have hbefore : ((leavesSoFar ds).map Prod.snd).Nodup := by
    rw [HTree.symbols, hp, List.map_append] at hd
    exact hd.of_append_left
  exact (genCodesReportsTheFirstFault s ds j sym hv hcomes (by omega) hj hr hlen hbefore).1 (by omega)

theorem paths_fit_of_completes {t : State} (hx : exec .genCodes s = .next t) (he : t.err = none) :
    ∀ c ∈ T.paths, c.1.length ≤ 32 := by
  cases hf : T.paths.find? fun c => decide (32 < c.1.length) with
  | none => simpa using hf
  | some c =>
    obtain ⟨hdeep, before, after, hp, hbefore⟩ := List.find?_eq_some_iff_append.1 hf
    rw [exec_genCodes_tooDeep hT hd hp (by simpa using hbefore) (by simpa using hdeep)] at hx
    obtain rfl := Host.Outcome.next.inj hx
    exact absurd he nofun

/-- A GEN_CODES that completes has built the tree's table, with codes that fit. -/
theorem genCodes_completes {t : State} (hx : exec .genCodes s = .next t) (he : t.err = none) :
    t.code = generated s.code T ∧ ∀ c ∈ T.codes, c.1.length ≤ 32 := by
  have hfit := paths_fit_of_completes hT hd hx he
  have hlen : ∀ c ∈ T.codes, c.1.length ≤ 32 := by
    cases T with
    | leaf sym => simp [HTree.codes]
    | node l r => exact hfit
  rw [exec_of_ok (i := .genCodes) nofun (genCodesBody_eq hT hlen hd)] at hx
  obtain rfl := Host.Outcome.next.inj hx
  exact ⟨rfl, hlen⟩

end

section
variable {t : State} {m : Memory CodeEntry} {T : HTree} (ht : t.code = generated m T) (hd : T.symbols.Nodup)
include ht

theorem validCode_generated_other {sym : Symbol} (h : sym ∉ T.symbols) : t.validCode sym = none := by
  rw [State.validCode, ht, read_generated_other m h]
  cases m.read sym.toNat <;> rfl

include hd

theorem validCode_generated {c : List Bool × Symbol} (hc : c ∈ T.codes) : t.validCode c.2 = some (entryOf c.1) := by
  rw [State.validCode, ht, read_generated hd hc]
  rfl

variable (hlen : ∀ c ∈ T.codes, c.1.length ≤ 32)
include hlen

theorem codeOf_generated_iff {sym : Symbol} {c : List Bool} : t.codeOf sym = some c ↔ (c, sym) ∈ T.codes := by
  have entered : ∀ e ∈ T.codes, t.codeOf e.2 = some e.1 := fun e he => by
    rw [State.codeOf, validCode_generated ht hd he, Option.map_some, entryBits_entryOf (hlen e he)]
  refine ⟨fun h => ?_, entered (c, sym)⟩
  by_cases hs : sym ∈ T.symbols
  · rw [← codes_symbols] at hs
    obtain ⟨e, he, rfl⟩ := List.mem_map.1 hs
    obtain rfl : e.1 = c := Option.some.inj ((entered e he).symm.trans h)
    exact he
  · rw [State.codeOf, validCode_generated_other ht hs] at h
    cases h

theorem codeOf_generated_isSome {sym : Symbol} : (t.codeOf sym).isSome = true ↔ sym ∈ T.symbols := by
  simp [Option.isSome_iff_exists, codeOf_generated_iff ht hd hlen, ← codes_symbols]

/-- The table's Kraft sum is that of the tree's codes. -/
theorem kraftSum_generated : kraftSum t = (T.codes.map fun c => 2 ^ (32 - c.1.length)).sum := by
  refine sum_over_symbols T.codes (fun c => 2 ^ (32 - c.length)) _ (by rwa [codes_symbols]) (fun c _ => c.2.isLt)
    (fun c hc => ?_) fun k hk hne => ?_
  · have hl : (entryOf c.1).len.toNat = c.1.length := Nat.mod_eq_of_lt (by have := hlen c hc; omega)
    simp only [BitVec.ofNat_toNat, BitVec.setWidth_eq, validCode_generated ht hd hc, hl]
  · have hs : BitVec.ofNat 9 k ∉ T.symbols := by
      rw [← codes_symbols, List.mem_map]
      rintro ⟨c, hc, he⟩
      exact hne c hc (by rw [he, BitVec.toNat_ofNat, Nat.mod_eq_of_lt hk])
    simp only [validCode_generated_other ht hs]

end

theorem codes_prefixFree {T : HTree} {p q : List Bool} {a b : Symbol} (hp : (p, a) ∈ T.codes) (hq : (q, b) ∈ T.codes)
    (h : p <+: q) : a = b := by
  cases T with
  | leaf sym =>
    obtain rfl : a = sym := (Prod.mk.inj (List.mem_singleton.1 hp)).2
    exact (Prod.mk.inj (List.mem_singleton.1 hq)).2.symm
  | node l r => exact (paths_prefixFree _ hp hq h).2

theorem HTree.leaves_pos (T : HTree) : 0 < T.leaves := by
  induction T with
  | leaf sym => exact Nat.one_pos
  | node l r ihl ihr => exact Nat.add_pos_left ihl _

/-- 2^32 times the Kraft sum of a tree's codes: 2^32, but 2^31 for the code "0" of a root that is a leaf. -/
theorem codes_kraft {T : HTree} (hlen : ∀ c ∈ T.codes, c.1.length ≤ 32) :
    (T.codes.map fun c => 2 ^ (32 - c.1.length)).sum = if T.leaves = 1 then 2 ^ 31 else 2 ^ 32 := by
  cases T with
  | leaf sym => simp [HTree.codes, HTree.leaves]
  | node l r =>
    have hl := l.leaves_pos
    have hr := r.leaves_pos
    rw [if_neg (by rw [HTree.leaves]; omega)]
    exact paths_kraft (.node l r) 32 hlen

/-- Settles O25: a GEN_CODES that completes has built the table of the tree's codes, which are prefix-free and full. -/
theorem generatedCodesArePrefixFree : Obligations.GeneratedCodesArePrefixFree := by
  intro s t T hT hd hx he
  obtain ⟨ht, hlen⟩ := genCodes_completes hT hd hx he
  have hcode : ∀ sym c, t.codeOf sym = some c ↔ (c, sym) ∈ T.codes := fun _ _ => codeOf_generated_iff ht hd hlen
  have hkraft := (kraftSum_generated ht hd hlen).trans (codes_kraft hlen)
  refine ⟨hcode, fun _ => codeOf_generated_isSome ht hd hlen, fun a b ca cb ha hb hne hpre => ?_, fun h2 => ?_, fun h1 => ?_⟩
  · exact hne (codes_prefixFree ((hcode a ca).1 ha) ((hcode b cb).1 hb) hpre)
  · rw [hkraft, if_neg (by omega)]
  · rw [hkraft, if_pos h1]

/-! ### A root that is its own left child -/

/-- Transactions without an answer of the sink only consume tokens. -/
theorem eq_tookAll_of_unanswered {ops : List PortOp} (h : ops.filterMap PortOp.answered = []) :
    ops = tookAll (ops.filterMap PortOp.token) := by
  induction ops with
  | nil => rfl
  | cons op ops ih =>
    cases op with
    | took x => exact congrArg (PortOp.took x :: ·) (ih h)
    | sent b a => cases h

/-- Settles O23: by way of its left child, a traversal and a walk over 0 bits come to the root again at the visit after NODE_CAP. -/
theorem selfLoopRaisesTreeInvalid : Obligations.SelfLoopRaisesTreeInvalid := by
  intro s i r hroot hi hr
  have hv : s.root.valid = true := by rw [hroot]
  have hc : comesTo s.cap s.tree s.root.idx (List.replicate s.cap .left) i := by
    rw [hroot]
    exact comesTo_loop hi hr s.cap
  have hj : slotAlong s.cap s.tree s.root.idx (List.replicate s.cap false) = some i := by
    rw [hroot]
    exact slotAlong_loop hi hr s.cap
  have hvisits : BadSlot.invalid.holds s.cap s.tree i (visitsSoFar (List.replicate s.cap .left)) :=
    holds_invalid (.inr (visitsSoFar_lefts s.cap))
  have hbits : BadSlot.invalid.holds s.cap s.tree i (List.replicate s.cap false).length :=
    holds_invalid (.inr List.length_replicate)
  refine ⟨?_, fun ha => ?_, fun cmd rest hcmd hin => ?_⟩
  · exact exec_genCodes_bad hv hc (by simp) hvisits (by simp) (by simp)
  · simpa [BadSlot.outcome] using exec_writeHeader_bad hv hc (by simp) hvisits (by simpa using ha)
  · rcases hcmd with rfl | rfl
    · simpa [BadSlot.outcome] using exec_decodeSymbol_bad hv hj (by simp) hbits hin
    · obtain ⟨ops, hx, htok, -, hans⟩ := exec_decodeStream_bad (codes := []) hv hj (by simp) hbits nofun hin List.nil_prefix
      rw [hx, eq_tookAll_of_unanswered hans, htok]
      simp [BadSlot.outcome]

end Sys2Proof.Machine
end

section
/-! SUPPORT. The header of a tree (42_header R120 to R123): what WRITE_HEADER sends in bytes, what READ_HEADER does on too many
nodes, and the round trip through both, by the laws of the commands that append and read (Laws/BitStream.lean,
Laws/Reading.lean). -/

namespace Sys2Proof.Machine

/-! ### READ_HEADER on too many nodes -/

/-- Settles O29: the parse, begun at slot 0, raises as soon as it has taken the bits of as many nodes as there are slots. -/
theorem longHeaderRaisesTreeOverflow : Obligations.LongHeaderRaisesTreeOverflow := by
  intro s T rest hsize hin
  obtain ⟨t, ht, r, k, heq, rfl, -⟩ := parse_tooLong T (s := (s.setNcnt 0#11).setRoot { s.root with valid := false })
    (rest := rest) (fuel := s.cap + 1) hin (Nat.zero_le _) (by simpa using hsize) (by simp)
  have hp : t.ports = s.ports.perform
      (tookAll (s.ports.offered.take (tokensFor s.reader.cnt.val (T.headerUpTo s.cap).length))) := congrArg State.ports heq
  have hbody : readHeaderBody s = .raise .treeOverflow 0#10 t := by rw [readHeaderBody, ht, Res.raise_bind]
  rw [exec_of_raise (i := .readHeader) nofun hbody, hp]

/-! ### WRITE_HEADER -/

/-- The bytes a command had accepted are those by which OUT has grown (20_memory R53). -/
theorem outStream_of_sentAll {s t : State} {bs : List Byte} (h : t.ports = s.ports.perform (sentAll bs)) :
    t.outStream = s.outStream ++ bs := by
  simp [State.outStream, h, Ports.perform]

/-- Settles O27: the command appends the header, whose length is 11 · L - 1. -/
theorem writeHeaderLength : Obligations.WriteHeaderLength := by
  intro s T hT n ha
  have hlen : T.header.length = 11 * T.leaves - 1 := by
    have := header_length T
    omega
  obtain ⟨bs, w, hx, -, hbytes, hcnt, -⟩ := appendingCommandsComplete s .writeHeader T.header (.writeHeader T hT) (hlen ▸ ha)
  rw [hlen] at hbytes hcnt
  refine ⟨_, hx, ?_, hcnt, rfl, rfl, rfl, rfl⟩
  rw [outStream_of_sentAll (s := s) rfl, List.length_append, hbytes]

/-- WRITE_HEADER and then CLOSE_WRITER, from a clean writer: the pending bits and the header go out, padded with zeros to a whole
byte, and the writer is left empty. -/
theorem writeHeader_closeWriter {s : State} {T : HTree} (hT : s.hasTree T) (hcl : s.writer.clean)
    (ha : s.sinkAccepts ((s.writer.cnt.val + T.header.length + 7) / 8)) :
    ∃ t u bs pad, exec .writeHeader s = .next t ∧ exec .closeWriter t = .next u ∧ u.outStream = s.outStream ++ bs ∧
      u.writer = { buf := 0#8, cnt := 0 } ∧ pad < 8 ∧
      streamBits bs = s.writer.pending ++ T.header ++ List.replicate pad false := by
  obtain ⟨t, hbody, hem⟩ := (Appends.writeHeader T hT).emits (sinkAccepts_mono ha (by omega))
  have hta : t.sinkAccepts ((t.writer.cnt.val + 7) / 8) := hem.sinkAccepts ha
  obtain ⟨b1, w, heq, hbits, hclean⟩ := hem
  obtain rfl : t.writer = w := congrArg State.writer heq
  have hp : t.ports = s.ports.perform (sentAll b1) := congrArg State.ports heq
  obtain ⟨b2, pad, hclose, hpad, hbits2⟩ := closeWriter_emits (s := t.setBusy false) (hclean hcl) hta
  refine ⟨_, _, b1 ++ b2, pad, exec_of_ok (i := .writeHeader) nofun hbody, exec_of_ok (i := .closeWriter) nofun hclose,
    ?_, rfl, hpad, ?_⟩
  · rw [outStream_of_sentAll (s := t) rfl, outStream_of_sentAll hp, List.append_assoc]
  · rw [streamBits_append, hbits2, ← hbits, List.append_assoc, State.setBusy_writer]

/-! ### The round trip -/

/-- Padding to a whole byte with fewer than eight zeros rounds the length up. -/
theorem padded_length {bs : List Byte} {bits : List Bool} {pad : Nat} (hpad : pad < 8)
    (h : streamBits bs = bits ++ List.replicate pad false) :
    8 * bs.length = bits.length + pad ∧ bs.length = (bits.length + 7) / 8 := by
  have hl := congrArg List.length h
  simp only [streamBits_length, List.length_append, List.length_replicate] at hl
  omega

/-- Bits padded to a whole byte with fewer than eight zeros are the bits of one sequence of bytes only. -/
theorem padded_unique {a b : List Byte} {bits : List Bool} {p q : Nat} (hp : p < 8) (hq : q < 8)
    (ha : streamBits a = bits ++ List.replicate p false) (hb : streamBits b = bits ++ List.replicate q false) : a = b := by
  obtain rfl : p = q := by
    have := padded_length hp ha
    have := padded_length hq hb
    omega
  exact streamBits_inj (ha.trans hb.symm)

theorem leadingBytes_append (bs : List Byte) (more : List Token) :
    leadingBytes (bs.map .byte ++ more) = bs ++ leadingBytes more := by
  induction bs with
  | nil => rfl
  | cons b bs ih => exact congrArg (b :: ·) ih

/-- An empty reader takes the bits of the bytes offered. -/
theorem inBits_of_bytes {s : State} {bs : List Byte} {more : List Token} (h0 : s.reader.cnt = 0)
    (ho : s.ports.offered = bs.map .byte ++ more) : s.inBits = streamBits bs ++ streamBits (leadingBytes more) := by
  have hunread : s.reader.unread = [] := List.length_eq_zero_iff.1 (by rw [unread_length, h0]; rfl)
  rw [State.inBits, readableBits, hunread, ho, leadingBytes_append, streamBits_append, List.nil_append]

/-- READ_HEADER, from an empty reader, on the bytes of a padded header: it loads the tree and takes those bytes only. -/
theorem readHeader_of_padded {s : State} {T : HTree} {bs : List Byte} {pad : Nat} {more : List Token} (hpad : pad < 8)
    (hbits : streamBits bs = T.header ++ List.replicate pad false) (h0 : s.reader.cnt = 0)
    (ho : s.ports.offered = bs.map .byte ++ more) (hsize : T.size ≤ s.cap) :
    ∃ t, exec .readHeader s = .next t ∧ t.hasTree T ∧ t.ports.offered = more := by
  have hin := inBits_of_bytes h0 ho
  rw [hbits, List.append_assoc] at hin
  obtain ⟨r, m, t, hx, rfl, -, -, -, -, -, -, htree⟩ := readHeaderLoadsTheTree s T _ hin hsize
  refine ⟨_, hx, htree, ?_⟩
  have hk : (T.header.length - s.reader.cnt.val + 7) / 8 = bs.length := by
    rw [h0, Fin.val_zero, Nat.sub_zero, (padded_length hpad hbits).2]
  simp [hk, ho]

/-- Settles O30: the padded header is the bits of one sequence of bytes only; one side sends it and the other reads it. -/
theorem headerRoundTrip : Obligations.HeaderRoundTrip := by
  intro T
  obtain ⟨bs, pad, hpad, hbits⟩ := exists_padded T.header
  refine ⟨bs, pad, hpad, hbits, fun s hT hw ha => ?_, fun v more h0 ho hsize => readHeader_of_padded hpad hbits h0 ho hsize⟩
  have hacc : s.sinkAccepts ((s.writer.cnt.val + T.header.length + 7) / 8) := by
    rwa [hw, Fin.val_zero, Nat.zero_add, ← (padded_length hpad hbits).2]
  obtain ⟨t, u, cs, q, ht, hu, hout, huw, hq, hcs⟩ := writeHeader_closeWriter hT (hw ▸ clean_empty) hacc
  rw [hw] at hcs
  obtain rfl : cs = bs := padded_unique hq hpad hcs hbits
  exact ⟨t, u, ht, hu, hout, huw⟩

end Sys2Proof.Machine
end

section
/-! SUPPORT. ENCODE_SYMBOL (43_stream R135, R137) on a symbol that has no code. -/

namespace Sys2Proof.Machine

/-- Settles O31: the pseudocode raises before it writes a bit, and of ARG it reads the symbol only. -/
theorem encodeSymbolWithoutCode : Obligations.EncodeSymbolWithoutCode := fun _ h =>
  exec_of_raise (i := .encodeSymbol) nofun (encodeSym_noCode h)

end Sys2Proof.Machine
end

section
/-! SUPPORT. A host program event by event (30_encoding R85 to R87): a command the host issues on an idle block runs at the
engine's turn that the poll waits for, and the reads around it change the host's own records only. -/

namespace Sys2Proof.Machine

theorem play_append {es : List Event} {s t : State} (h : play es s = .next t) (fs : List Event) :
    play (es ++ fs) s = play fs t := by
  induction es generalizing s with
  | nil =>
    obtain rfl := Host.Outcome.next.inj h
    rfl
  | cons e es ih =>
    rw [play] at h
    rw [List.cons_append, play]
    cases hx : handle e s with
    | next u =>
      rw [hx] at h
      exact ih h
    | fault f => rw [hx] at h; cases h
    | refused r => rw [hx] at h; cases h

theorem play_cons {e : Event} {s t : State} (h : handle e s = .next t) (es : List Event) : play (e :: es) s = play es t := by
  rw [play, h]

theorem programAgenda_append (p q : List HostOp) : programAgenda (p ++ q) = programAgenda p ++ programAgenda q :=
  List.flatMap_append

/-! ### Reads -/

/-- u is t but for the records of the host's reads (log entries 6, 11, 14). -/
def Observed (t u : State) : Prop :=
  ∃ reads seen draws, u = { t with reads := reads, sawIdle := seen, draws := draws }

theorem offset_aligned (r : Reg) : r.offset.toNat % 4 = 0 := by
  cases r with
  | tree i => rw [Reg.offset, BitVec.toNat_ofNat]; omega
  | clen k => rw [Reg.offset, BitVec.toNat_ofNat]; omega
  | cpat k => rw [Reg.offset, BitVec.toNat_ofNat]; omega
  | _ => rfl

theorem play_reads (rs : List Reg) (t : State) : ∃ u, play (programAgenda (rs.map .rd)) t = .next u ∧ Observed t u := by
  induction rs generalizing t with
  | nil => exact ⟨t, rfl, t.reads, t.sawIdle, t.draws, rfl⟩
  | cons r rs ih =>
    obtain ⟨u, hu, reads, seen, draws, rfl⟩ := ih (hostRead (regAt r.offset) t)
    exact ⟨_, (play_cons (handle_read (offset_aligned r)) _).trans hu, reads, seen, draws, rfl⟩

/-! ### One command -/

/-- The block with the command i latched and not yet run (44_control R157). -/
def pending (i : Instr) (s : State) : State := acceptCommand (encode i) (s.setSawIdle false)

@[simp] theorem pending_reader (i : Instr) (s : State) : (pending i s).reader = s.reader := rfl

@[simp] theorem pending_ports (i : Instr) (s : State) : (pending i s).ports = s.ports := rfl

@[simp] theorem pending_inBits (i : Instr) (s : State) : (pending i s).inBits = s.inBits := rfl

@[simp] theorem pending_outStream (i : Instr) (s : State) : (pending i s).outStream = s.outStream := rfl

/-- The host issues i, polls, and reads the registers rs: the form of a command without an operand (30_encoding R86, R87). -/
def commandOps (i : Instr) (rs : List Reg) : List HostOp := .wr .cmd (encode i) :: .poll :: rs.map .rd

theorem compressOp_eq : compressOp =
    commandOps .genCodes [.status] ++ commandOps .writeHeader [.status] ++ commandOps .encodeStream [.result, .status] := rfl

theorem decompressOp_eq : decompressOp =
    commandOps .readHeader [.status] ++ commandOps .decodeStream [.result, .status] := rfl

theorem encode_ne_resetWord {i : Instr} (hi : i.wellFormed = true) (hr : i ≠ .reset) : encode i ≠ resetWord := by
  intro h
  have hd := decodeUndoesEncode i hi
  rw [h] at hd
  exact hr (Except.ok.inj (hd.symm.trans (decodeUndoesEncode .reset rfl)))

section
variable {i : Instr} (hi : i.wellFormed = true) {s t : State}
include hi

theorem handle_engine_pending (s : State) : handle .engine (pending i s) = exec i (pending i s) :=
  engineStep_of_ok (s := pending i s) (decodeUndoesEncode i hi)

variable (hr : i ≠ .reset) (hb : s.busy = false) (he : s.err = none)
include hr hb he

theorem handle_issue : handle (.host (.write 32 Reg.cmd.offset (encode i))) s = .next (pending i s) := by
  have hw : handle (.host (.write 32 Reg.cmd.offset (encode i))) s = hostWriteCmd (encode i) (s.setSawIdle false) :=
    handle_write (offset_aligned .cmd)
  rw [hw, hostWriteCmd, if_neg (encode_ne_resetWord hi hr), if_neg (by simp [hb]), if_neg (by simp [he])]
  rfl

/-- The command runs at the one engine's turn of the poll, and every read comes after it. -/
theorem play_commandOps (hx : exec i (pending i s) = .next t) (rs : List Reg) :
    ∃ u, play (programAgenda (commandOps i rs)) s = .next u ∧ Observed t u := by
  obtain ⟨u, hu, ho⟩ := play_reads (.status :: rs) t
  have hturn := (handle_engine_pending hi s).trans hx
  exact ⟨u, (play_cons (handle_issue hi hr hb he) _).trans ((play_cons hturn _).trans hu), ho⟩

end

end Sys2Proof.Machine
end

section
/-! SUPPORT. The compressed stream (43_stream R141): the header, the codes of the bytes and of pseudo-EOF, and the padding are
what COMPRESS sends; DECOMPRESS takes the header, walks the codes, and drops the padding. -/

namespace Sys2Proof.Machine

/-! ### Sequences of codes -/

section
variable {T : HTree} {cs : List (List Bool × Symbol)}

/-- Symbols of a tree have codes. -/
theorem exists_codes {syms : List Symbol} (h : ∀ sym ∈ syms, sym ∈ T.symbols) :
    ∃ cs : List (List Bool × Symbol), (∀ c ∈ cs, c ∈ T.codes) ∧ cs.map Prod.snd = syms := by
  induction syms with
  | nil => exact ⟨[], nofun, rfl⟩
  | cons sym syms ih =>
    obtain ⟨hsym, hsyms⟩ := List.forall_mem_cons.1 h
    obtain ⟨cs, hcs, rfl⟩ := ih hsyms
    rw [← codes_symbols] at hsym
    obtain ⟨c, hc, rfl⟩ := List.mem_map.1 hsym
    exact ⟨c :: cs, List.forall_mem_cons.2 ⟨hc, hcs⟩, rfl⟩

theorem encodeAll_codes {s : State} (h : ∀ c ∈ cs, s.codeOf c.2 = some c.1) :
    s.encodeAll (cs.map Prod.snd) = some (cs.flatMap Prod.fst) := by
  induction cs with
  | nil => rfl
  | cons c cs ih =>
    obtain ⟨hc, hcs⟩ := List.forall_mem_cons.1 h
    simp [State.encodeAll, hc, ih hcs]

variable (hcs : ∀ c ∈ cs, c ∈ T.codes)
include hcs

theorem codes_length_le (hlen : ∀ c ∈ T.codes, c.1.length ≤ 32) : (cs.flatMap Prod.fst).length ≤ 32 * cs.length := by
  induction cs with
  | nil => exact Nat.zero_le _
  | cons c cs ih =>
    obtain ⟨hc, hcs⟩ := List.forall_mem_cons.1 hcs
    have := hlen c hc
    have := ih hcs
    simp only [List.flatMap_cons, List.length_append, List.length_cons]
    omega

/-- Where the tree is loaded, walks over the codes end at their symbols, one after the other. -/
theorem State.hasTree.walksThrough {s : State} (hT : s.hasTree T) (rest : List Bool) :
    s.walksThrough (cs.map Prod.snd) (cs.flatMap Prod.fst ++ rest) rest := by
  induction cs with
  | nil => rfl
  | cons c cs ih =>
    obtain ⟨hc, hcs⟩ := List.forall_mem_cons.1 hcs
    exact ⟨c.1, cs.flatMap Prod.fst ++ rest, by simp, hT.walksTo hc, ih hcs⟩

end

/-! ### The host's commands, each issued on an idle block -/

/-- OUT has grown by the accepted bytes of the transactions performed (20_memory R53). -/
theorem outStream_of_perform {s t : State} {ops : List PortOp} (h : t.ports = s.ports.perform ops) :
    t.outStream = s.outStream ++ ops.filterMap PortOp.accepted := by
  simp [State.outStream, h, Ports.perform]

section
variable {s : State} {T : HTree} (hb : s.busy = false) (he : s.err = none)
include hb he

/-- GEN_CODES fills the table and leaves tree, writer and ports alone. -/
theorem play_genCodes (hT : s.hasTree T) (hd : T.symbols.Nodup) (hlen : ∀ c ∈ T.codes, c.1.length ≤ 32) :
    ∃ u, play (programAgenda (commandOps .genCodes [.status])) s = .next u ∧ u.busy = false ∧ u.err = none ∧
      u.code = generated s.code T ∧ u.hasTree T ∧ u.writer = s.writer ∧ u.ports = s.ports := by
  have hx := exec_of_ok (i := .genCodes) nofun (genCodesBody_eq (s := pending .genCodes s) hT hlen hd)
  obtain ⟨u, hu, _, _, _, rfl⟩ := play_commandOps (i := .genCodes) rfl nofun hb he hx [.status]
  exact ⟨_, hu, rfl, he, rfl, hT, rfl, rfl⟩

/-- WRITE_HEADER with room in the sink for m bits more than the header leaves that room. -/
theorem play_writeHeader (hT : s.hasTree T) {m : Nat} (ha : s.sinkAccepts ((s.writer.cnt.val + T.header.length + m) / 8)) :
    ∃ u bs, play (programAgenda (commandOps .writeHeader [.status])) s = .next u ∧ u.busy = false ∧ u.err = none ∧
      u.code = s.code ∧ u.ports.offered = s.ports.offered ∧ u.outStream = s.outStream ++ bs ∧
      streamBits bs ++ u.writer.pending = s.writer.pending ++ T.header ∧ (s.writer.clean → u.writer.clean) ∧
      u.sinkAccepts ((u.writer.cnt.val + m) / 8) := by
  have hfits : s.sinkAccepts ((s.writer.cnt.val + T.header.length) / 8) :=
    sinkAccepts_mono ha (Nat.div_le_div_right (Nat.le_add_right _ _))
  obtain ⟨t, hbody, hem⟩ := (Appends.writeHeader (s := pending .writeHeader s) T hT).emits hfits
  have hta : t.sinkAccepts ((t.writer.cnt.val + m) / 8) := hem.sinkAccepts ha
  obtain ⟨bs, w, rfl, hbits, hclean⟩ := hem
  have hx := exec_of_ok (i := .writeHeader) nofun hbody
  obtain ⟨u, hu, _, _, _, rfl⟩ := play_commandOps (i := .writeHeader) rfl nofun hb he hx [.status]
  refine ⟨_, bs, hu, rfl, he, rfl, ?_, outStream_of_sentAll rfl, hbits, hclean, hta⟩
  simp [Ports.perform]

theorem play_encodeStream {bytes : List Byte} {bits : List Bool} {more : List Token}
    (ho : s.ports.offered = bytes.map .byte ++ .endOfStream :: more)
    (hbits : s.encodeAll (bytes.map byteSymbol ++ [eofSymbol]) = some bits) (hcl : s.writer.clean)
    (ha : s.sinkAccepts ((s.writer.cnt.val + bits.length + 7) / 8)) :
    ∃ u bs pad, play (programAgenda (commandOps .encodeStream [.result, .status])) s = .next u ∧ u.busy = false ∧
      u.err = none ∧ u.result = BitVec.ofNat 32 bytes.length ∧ u.ports.offered = more ∧ u.outStream = s.outStream ++ bs ∧
      pad < 8 ∧ streamBits bs = s.writer.pending ++ bits ++ List.replicate pad false := by
  have henc : (pending .encodeStream s).encodeAll (bytes.map byteSymbol ++ [eofSymbol]) = some bits :=
    (encodeAll_congr (s := s) (t := pending .encodeStream s) rfl _).trans hbits
  obtain ⟨ops, bs, pad, hx, hpad, hstream, htok, hacc, -⟩ :=
    encodeStreamWritesTheBody (pending .encodeStream s) bytes bits more ho henc hcl ha
  obtain ⟨u, hu, _, _, _, rfl⟩ := play_commandOps (i := .encodeStream) rfl nofun hb he hx [.result, .status]
  refine ⟨_, bs, pad, hu, rfl, he, rfl, ?_, hacc ▸ outStream_of_perform rfl, hpad, hstream⟩
  change s.ports.offered.drop (ops.filterMap PortOp.token).length = more
  rw [htok, ho, List.append_cons _ _ more, List.drop_left]

theorem play_readHeader {rest : List Bool} (hin : s.inBits = T.header ++ rest) (hsize : T.size ≤ s.cap) :
    ∃ u k, play (programAgenda (commandOps .readHeader [.status])) s = .next u ∧ u.busy = false ∧ u.err = none ∧
      u.hasTree T ∧ u.inBits = rest ∧ u.ports.answers = s.ports.answers ∧ u.outStream = s.outStream ∧
      u.ports.offered = s.ports.offered.drop k ∧ k = tokensFor s.reader.cnt.val T.header.length ∧
      u.reader.cnt.val + T.header.length = s.reader.cnt.val + 8 * k := by
  obtain ⟨r, m, t, hx, rfl, hrest, hcnt, -, -, -, -, htree⟩ := readHeaderLoadsTheTree (pending .readHeader s) T rest hin hsize
  obtain ⟨u, hu, _, _, _, rfl⟩ := play_commandOps (i := .readHeader) rfl nofun hb he hx [.status]
  refine ⟨_, _, hu, rfl, he, htree, hrest, ?_, (outStream_of_perform rfl).trans ?_, ?_, rfl, hcnt⟩
  · simp [Ports.perform]
  · simp
  · simp [Ports.perform, tokensFor]

theorem play_decodeStream {bytes : List Byte} {rest : List Bool}
    (hd : s.walksThrough (bytes.map byteSymbol ++ [eofSymbol]) s.inBits rest) (ha : s.sinkAccepts bytes.length) :
    ∃ u, play (programAgenda (commandOps .decodeStream [.result, .status])) s = .next u ∧ u.busy = false ∧ u.err = none ∧
      u.result = BitVec.ofNat 32 bytes.length ∧ u.eos = true ∧ u.outStream = s.outStream ++ bytes ∧
      u.ports.offered = s.ports.offered.drop (tokensFor s.reader.cnt.val (s.inBits.length - rest.length)) := by
  have hwalks := walksThrough_congr (t := pending .decodeStream s) hd rfl rfl rfl
  obtain ⟨ops, buf, hx, hacc, -, htok, -⟩ := decodeStreamWritesTheBytes (pending .decodeStream s) bytes rest hwalks ha
  obtain ⟨u, hu, _, _, _, rfl⟩ := play_commandOps (i := .decodeStream) rfl nofun hb he hx [.result, .status]
  refine ⟨_, hu, rfl, he, rfl, rfl, hacc ▸ outStream_of_perform rfl, ?_⟩
  change s.ports.offered.drop (ops.filterMap PortOp.token).length = _
  simp [htok]

end

/-! ### The round trip -/

section
variable {T : HTree} {cs : List (List Bool × Symbol)} {bytes : List Byte} (hcs : ∀ c ∈ cs, c ∈ T.codes)
  (hsyms : cs.map Prod.snd = bytes.map byteSymbol ++ [eofSymbol])
include hcs hsyms

/-- COMPRESS, from a clean writer: behind the pending bits it sends the header, the codes, and the padding. -/
theorem play_compress {s : State} {more : List Token} (hb : s.busy = false) (he : s.err = none) (hcl : s.writer.clean)
    (hT : s.hasTree T) (hd : T.symbols.Nodup) (hlen : ∀ c ∈ T.codes, c.1.length ≤ 32)
    (ho : s.ports.offered = bytes.map .byte ++ .endOfStream :: more)
    (ha : s.sinkAccepts ((s.writer.cnt.val + T.header.length + ((cs.flatMap Prod.fst).length + 7)) / 8)) :
    ∃ u out pad, play (programAgenda compressOp) s = .next u ∧ u.busy = false ∧ u.err = none ∧
      u.result = BitVec.ofNat 32 bytes.length ∧ u.ports.offered = more ∧ u.outStream = s.outStream ++ out ∧ pad < 8 ∧
      streamBits out = s.writer.pending ++ T.header ++ cs.flatMap Prod.fst ++ List.replicate pad false := by
  obtain ⟨t, ht, htb, hte, hcode, htT, htw, htp⟩ := play_genCodes hb he hT hd hlen
  have hta : t.sinkAccepts ((t.writer.cnt.val + T.header.length + ((cs.flatMap Prod.fst).length + 7)) / 8) := by
    rwa [htw, State.sinkAccepts, htp]
  obtain ⟨u, b1, hu, hub, hue, huc, huo, huout, hbits1, huw, hua⟩ := play_writeHeader htb hte htT hta
  have henc : u.encodeAll (bytes.map byteSymbol ++ [eofSymbol]) = some (cs.flatMap Prod.fst) := by
    rw [← hsyms]
    exact encodeAll_codes fun c hc => (codeOf_generated_iff (huc.trans hcode) hd hlen).2 (hcs c hc)
  obtain ⟨w, b2, pad, hw, hwb, hwe, hwr, hwo, hwout, hpad, hbits2⟩ :=
    play_encodeStream hub hue (by rw [huo, htp, ho]) henc (huw (htw ▸ hcl)) (by rwa [Nat.add_assoc])
  refine ⟨w, b1 ++ b2, pad, ?_, hwb, hwe, hwr, hwo, ?_, hpad, ?_⟩
  · rw [compressOp_eq, programAgenda_append, programAgenda_append, List.append_assoc, play_append ht, play_append hu, hw]
  · rw [hwout, huout, State.outStream, htp, List.append_assoc]
    rfl
  · rw [streamBits_append, hbits2, ← htw, ← hbits1]
    simp only [List.append_assoc]

/-- DECOMPRESS, from an empty reader, on such bytes: it sends the bytes the codes stand for and takes exactly those given. -/
theorem play_decompress {s : State} {out : List Byte} {pad : Nat} {more : List Token} (hb : s.busy = false) (he : s.err = none)
    (h0 : s.reader.cnt = 0) (hsize : T.size ≤ s.cap) (ho : s.ports.offered = out.map .byte ++ more) (hpad : pad < 8)
    (hbits : streamBits out = T.header ++ cs.flatMap Prod.fst ++ List.replicate pad false) (ha : s.sinkAccepts bytes.length) :
    ∃ u, play (programAgenda decompressOp) s = .next u ∧ u.busy = false ∧ u.err = none ∧
      u.result = BitVec.ofNat 32 bytes.length ∧ u.eos = true ∧ u.outStream = s.outStream ++ bytes ∧
      u.ports.offered = more := by
  have hin := inBits_of_bytes h0 ho
  rw [hbits, List.append_assoc, List.append_assoc] at hin
  obtain ⟨t, k, ht, htb, hte, htT, htin, htans, htout, hto, hk, hcnt⟩ := play_readHeader hb he hin hsize
  have hwalks := htT.walksThrough hcs (List.replicate pad false ++ streamBits (leadingBytes more))
  rw [hsyms, ← htin] at hwalks
  obtain ⟨u, hu, hub, hue, hur, hueos, huout, huo⟩ :=
    play_decodeStream htb hte hwalks (by rwa [State.sinkAccepts, htans])
  refine ⟨u, ?_, hub, hue, hur, hueos, huout.trans (by rw [htout]), ?_⟩
  · rw [decompressOp_eq, programAgenda_append, play_append ht, hu]
  · have hlen := (padded_length hpad hbits).2
    have htotal : k + tokensFor t.reader.cnt.val (cs.flatMap Prod.fst).length = out.length := by
      rw [h0] at hcnt hk
      rw [List.length_append] at hlen
      rw [Fin.val_zero] at hcnt hk
      rw [tokensFor] at hk ⊢
      omega
    rw [huo, htin, List.length_append, Nat.add_sub_cancel, hto, List.drop_drop, htotal, ho]
    simp

end

/-- Settles O37: the codes of the symbols are chosen once; COMPRESS writes them, and DECOMPRESS walks them. -/
theorem compressThenDecompress : Obligations.CompressThenDecompress := by
  intro s T bytes more hb he hw hT hd hlen heof hbytes ho ha
  have hin : ∀ sym ∈ bytes.map byteSymbol ++ [eofSymbol], sym ∈ T.symbols := by
    simpa [or_imp, forall_and] using ⟨hbytes, heof⟩
  obtain ⟨cs, hcs, hsyms⟩ := exists_codes hin
  have hbody : (cs.flatMap Prod.fst).length ≤ 32 * (bytes.length + 1) := by
    have hn : cs.length = bytes.length + 1 := by simpa using congrArg List.length hsyms
    exact hn ▸ codes_length_le hcs hlen
  have hacc : s.sinkAccepts ((s.writer.cnt.val + T.header.length + ((cs.flatMap Prod.fst).length + 7)) / 8) := by
    refine sinkAccepts_mono ha ?_
    rw [hw, Fin.val_zero]
    omega
  obtain ⟨u, out, pad, hu, hub, hue, hur, huo, huout, hpad, hbits⟩ :=
    play_compress hcs hsyms hb he (hw ▸ clean_empty) hT hd hlen ho hacc
  rw [hw] at hbits
  refine ⟨u, out, hu, huout, hur, hue, hub, huo, fun v rest hvb hve hv0 hsize hvo hva => ?_⟩
  obtain ⟨w, hx, hwb, hwe, hwr, hweos, hwout, hwo⟩ := play_decompress hcs hsyms hvb hve hv0 hsize hvo hpad hbits hva
  exact ⟨w, hx, hwout, hwr, hweos, hwe, hwb, hwo⟩

end Sys2Proof.Machine
end

section
/-! SUPPORT. The control commands (44_control R155 to R157): NOP, the four cases of a write to CMD, a step that runs the pending
command, and the ends of the engine's turn. -/

namespace Sys2Proof.Machine

/-- Settles O14: NOP's pseudocode completes in every state, having set nothing. -/
theorem nopCompletes : Obligations.NopCompletes := fun _ => exec_of_ok (i := .nop) nofun rfl

/-! ### A write to CMD -/

theorem handle_write_cmd (w : Word) (s : State) :
    handle (.host (.write 32 0x0004#14 w)) s = hostWriteCmd w (s.setSawIdle false) := handle_write rfl

theorem hostWriteCmd_error {w : Word} {s : State} (hw : w ≠ resetWord) (hb : s.busy = false) (he : s.err ≠ none) :
    hostWriteCmd w s = .next s.setOverrun := by
  simp [hostWriteCmd, hw, hb, he]

theorem hostWriteCmd_accepts {w : Word} {s : State} (hw : w ≠ resetWord) (hb : s.busy = false) (he : s.err = none) :
    hostWriteCmd w s = .next (acceptCommand w s) := by
  simp [hostWriteCmd, hw, hb, he]

/-- Settles O8: one lemma on `hostWriteCmd` per case. -/
theorem commandWriteProtocol : Obligations.CommandWriteProtocol := by
  intro s w
  rw [handle_write_cmd]
  refine ⟨fun hw => ?_, fun hw hb => ?_, fun hw hb he => ?_, fun hw hb he => ?_⟩
  · subst hw
    exact hostWriteCmd_reset _
  · exact hostWriteCmd_busy hw hb
  · exact hostWriteCmd_error hw hb he
  · exact hostWriteCmd_accepts hw hb he

/-! ### The engine's turn -/

theorem handle_engine_busy {s : State} (h : s.busy = true) : handle .engine s = engineStep s := if_pos h

theorem handle_engine_of_decode {s : State} {i : Instr} (hb : s.busy = true) (hd : decode s.cmd = .ok i) :
    handle .engine s = exec i s := (handle_engine_busy hb).trans (engineStep_of_ok hd)

/-- Settles O9: a word that is no command faults, and a command, which is not RESET, has the ends of `exec_cases`. -/
theorem engineTurnHasFourEnds : Obligations.EngineTurnHasFourEnds := by
  intro s hs hb
  rw [handle_engine_busy hb]
  by_cases hf : failsCheck s.cmd
  · exact .inr (.inr ⟨_, engineStep_of_failsCheck hf, rfl, rfl⟩)
  · obtain ⟨i, hd⟩ := exists_decode_iff.2 hf
    have hi : i ≠ .reset := fun h => hs.latched hb (decode_reset (h ▸ hd))
    rw [engineStep_of_ok hd]
    rcases exec_cases hi s with ⟨t, hl, hx⟩ | ⟨e, info, t, hl, hx⟩ | hx | hx
    · exact .inr (.inr ⟨_, hx, rfl, hl.frame.cmd⟩)
    · exact .inr (.inr ⟨_, hx, rfl, hl.frame.cmd⟩)
    · exact .inr (.inl hx)
    · exact .inl hx

/-! ### A step that runs a command -/

theorem withFetchWord_toNat (s : State) (w : Word) : s.withFetchWord 32 w.toNat = placeCommand w s := by
  rw [State.withFetchWord, Nat.mod_eq_of_lt w.isLt, BitVec.ofNat_toNat, BitVec.setWidth_eq]

theorem step_placeCommand_reset (s : State) : step (placeCommand resetWord s) = exec .reset (s.setSawIdle false) := by
  rw [placeCommand, if_pos rfl, step_of_agenda_cons rfl, handle_write_cmd, hostWriteCmd_reset]
  rfl

theorem step_placeCommand_other {i : Instr} (hi : i.wellFormed = true) (hr : i ≠ .reset) (s : State) :
    step (placeCommand (encode i) s) = exec i (pending i s) := by
  rw [placeCommand, if_neg (encode_ne_resetWord hi hr), step_of_agenda_cons rfl]
  exact handle_engine_pending hi s

/-- Settles O6: the engine's turn runs the pending word, and `placeCommand` puts on the agenda the event that runs it. -/
theorem stepRunsTheDecodedCommand : Obligations.StepRunsTheDecodedCommand := by
  refine ⟨fun s i hb hd => ⟨fun rest h => ?_, fun h => ?_⟩, fun s i hi => ?_⟩
  · rw [step_of_agenda_cons h]
    exact handle_engine_of_decode (s := s.setAgenda rest) hb hd
  · rw [step_of_agenda_nil h]
    exact handle_engine_of_decode hb hd
  · rw [withFetchWord_toNat]
    by_cases hr : i = .reset
    · subst hr
      exact step_placeCommand_reset s
    · rw [if_neg hr]
      exact step_placeCommand_other hi hr s

end Sys2Proof.Machine
end

section
/-! SUPPORT. Exceptions (60_exceptions R163 to R168): what a fault leaves defined, and the number of an error in STATUS. -/

namespace Sys2Proof.Machine

/-! ### What a fault leaves -/

theorem Memory.read_tabulate_isSome {α : Type} {n a : Nat} (h : a < n) (f : Nat → α) :
    ((Memory.tabulate n f).read a).isSome = true := by
  rw [Memory.read_tabulate, if_pos h, Option.isSome_some]

/-- Fault entry marks every slot of the tree RAM written (60_exceptions R168). -/
theorem faultEntry_tree_isSome (e : ErrorKind) (info : BitVec 10) (s : State) {k : Nat} (h : k < s.cap) :
    ((faultEntry e info s).tree.read k).isSome = true := by
  rw [faultEntry_tree]
  exact Memory.read_tabulate_isSome h _

/-- Fault entry gives every symbol's code entry some contents (60_exceptions R168). -/
theorem faultEntry_code_isSome (e : ErrorKind) (info : BitVec 10) (s : State) (sym : Symbol) :
    ((faultEntry e info s).code.read sym.toNat).isSome = true := by
  rw [faultEntry_code]
  exact Memory.read_tabulate_isSome sym.isLt _

/-- From ERR = 0, a command that ends in an error has made fault entry, with only its port transactions left. -/
theorem exec_next_err {i : Instr} (hi : i ≠ .reset) {s t : State} (hs : s.err = none) (hx : exec i s = .next t)
    (ht : t.err ≠ none) : ∃ e info p, t = faultEntry e info { s with ports := p } := by
  rcases exec_next_cases hi hx with ⟨u, -, hl, rfl⟩ | ⟨e, info, u, -, -, rfl⟩ | ⟨-, rfl⟩
  · exact absurd (hl.frame.err.trans hs) ht
  · exact ⟨e, info, u.ports, rfl⟩
  · exact absurd hs ht

/-- Settles O38: the command made fault entry, which stands on the operands, bounds NCNT and fills both RAMs. -/
theorem faultEntryKeepsWhatItMust : Obligations.FaultEntryKeepsWhatItMust := by
  intro i s t hi hs hx ht
  obtain ⟨e, info, p, rfl⟩ := exec_next_err hi hs hx ht
  exact ⟨rfl, rfl, rfl, rfl, rfl, faultEntry_ncnt_le e info _, fun _ hk => faultEntry_tree_isSome e info _ hk,
    faultEntry_code_isSome e info _⟩

/-! ### The number of an error -/

/-- A read of STATUS returns its word, also while BUSY = 1 (10_state R46). -/
theorem readValue_status (any : Word) (s : State) : readValue .status any s = statusWord s := readValue_stable rfl any s

theorem statusWord_err {s : State} {err : Option ErrorKind} (h : s.err = err) :
    (statusWord s).extractLsb' 8 4 = errField err := by
  obtain ⟨-, herr, -⟩ := statusWord_fields s
  rw [herr, h]

/-- Settles O58: the word read is `statusWord`, and its ERR field the error's number (60_exceptions R163). -/
theorem statusShowsTheErrorCode : Obligations.StatusShowsTheErrorCode := by
  intro s
  exact ⟨statusWord s, _, handle_read_eq rfl, congrArg (s.reads ++ [·]) (readValue_status _ s), statusWord_err,
    statusWord_err, statusWord_err, statusWord_err, statusWord_err, statusWord_err, statusWord_err, statusWord_err,
    statusWord_err, statusWord_err, statusWord_err⟩

end Sys2Proof.Machine
end

section
/-! SUPPORT. A reset while a command is pending (70_reset R192): the transactions the command would perform, within what the
ports hold; and the end of a host sequence (R204): when a turn ends it, and what its end state stands through. -/

namespace Sys2Proof.Machine

/-! ### The transactions of the pending command -/

/-- A pending command's transactions take what IN offered and use what the sink would answer, in order and no further. -/
theorem pendingOps_within (s : State) :
    (pendingOps s).filterMap PortOp.token <+: s.ports.offered ∧
      (pendingOps s).filterMap PortOp.answered <+: s.ports.answers := by
  unfold pendingOps
  split
  · exact ⟨List.nil_prefix, List.nil_prefix⟩
  next i _ =>
    have hlaw : BodyLaw (fillTree s) (commandBody i (fillTree s)).state := commandBody_law i (fillTree s)
    obtain ⟨ops, hlog, hin, hout⟩ := hlaw.ports
    have hops : (commandBody i (fillTree s)).state.ports.log.drop s.ports.log.length = ops := by
      rw [hlog]
      exact List.drop_left
    rw [hops]
    exact ⟨⟨_, hin.symm⟩, ⟨_, hout.symm⟩⟩

theorem pendingOps_of_failsCheck {s : State} (h : failsCheck s.cmd) : pendingOps s = [] := by
  unfold pendingOps
  split
  · rfl
  next i hd => exact absurd h (exists_decode_iff.1 ⟨i, hd⟩)

/-- A command that leaves BUSY = 0 has run to its end or raised; at the ports either leaves what its pseudocode did. -/
theorem exec_ends {i : Instr} (hi : i ≠ .reset) {s u : State} (hb : s.busy = true) (hx : exec i s = .next u)
    (hu : u.busy = false) :
    (∃ v, commandBody i s = .ok () v ∧ v.ports = u.ports) ∨
      ∃ e info v, commandBody i s = .raise e info v ∧ v.ports = u.ports := by
  rcases exec_next_cases hi hx with ⟨v, hv, -, rfl⟩ | ⟨e, info, v, hv, -, rfl⟩ | ⟨-, rfl⟩
  · exact .inl ⟨v, hv, rfl⟩
  · exact .inr ⟨e, info, v, hv, rfl⟩
  · exact absurd (hb.symm.trans hu) nofun

/-- RESET over a pending command: the reset values, and a first part of the command's transactions. -/
theorem exec_reset_busy {s : State} (hb : s.busy = true) :
    exec .reset s = .next { State.reset with
      params := s.params
      ports := s.ports.perform ((pendingOps s).take (Config.abandonedLength s.draws))
      agenda := s.agenda
      reads := s.reads
      sawIdle := s.sawIdle
      draws := s.draws + 1 } := by
  change Host.Outcome.next (resetBlock (abandon s)) = _
  rw [abandon, if_pos hb]
  rfl

/-- Settles O13: the transactions are those of `pendingOps`, and the free length is that of `abandon`. -/
theorem resetAbandonsThePendingCommand : Obligations.ResetAbandonsThePendingCommand := by
  intro s hs hb
  obtain ⟨hin, hout⟩ := pendingOps_within s
  refine ⟨pendingOps s, _, _, List.take_prefix _ _, exec_reset_busy hb, pendingOps_of_failsCheck, hin, hout, fun i hd => ?_⟩
  have hi : i ≠ .reset := by
    rintro rfl
    exact hs.latched hb (decode_reset hd)
  constructor
  · intro u hx hu
    exact ports_eq_pendingOps hs.tree_wf hd (exec_ends hi hb hx hu)
  · intro x y u p hx hu
    exact pendingOps_first hs.tree_wf hd (exec_ends (s := s.lengthen x y) hi hb hx hu)

/-! ### When a host sequence ends -/

theorem Event.isCommand_iff {e : Event} : e.isCommand = true ↔ ∃ w, e = .host (.write 32 0x0004#14 w) := by
  cases e with
  | host a => cases a <;> simp [Event.isCommand, Reg.offset]
  | _ => simp [Event.isCommand]

theorem State.noCommandToCome_iff {s : State} :
    s.agenda.any Event.isCommand = false ↔ ∀ e ∈ s.agenda, ∀ w, e ≠ .host (.write 32 0x0004#14 w) := by
  simp [List.any_eq_false, Event.isCommand_iff]

/-- The commands to come are the next event and those after it. -/
theorem State.any_isCommand (s : State) :
    s.agenda.any Event.isCommand = (s.nextEvent.isCommand || s.agenda.tail.any Event.isCommand) := by
  unfold State.nextEvent
  cases s.agenda <;> rfl

/-- No command is pending once a sequence has ended. -/
theorem Inv.idle_of_ended {s : State} (h : Inv s) (he : s.ended = true) : s.busy = false :=
  h.saw_idle (Bool.and_eq_true_iff.1 he).1

/-- A step leaves a sequence ended that was, and ends one by a read of STATUS on an idle block with no command to come. -/
theorem Inv.ended_iff {s t : State} (h : Inv s) (hx : step s = .next t) :
    t.ended = true ↔ s.ended = true ∨
      (s.nextEvent = .host (.read 32 0x0010#14) ∧ s.busy = false ∧ s.agenda.any Event.isCommand = false) := by
  obtain ⟨hagenda, hsaw⟩ := (h.turn hx).record
  rw [State.setAgenda_agenda] at hagenda
  rw [State.setAgenda_busy, State.setAgenda_sawIdle] at hsaw
  simp only [State.ended, hagenda, hsaw, s.any_isCommand]
  by_cases hread : s.nextEvent = .host (.read 32 0x0010#14)
  · have hcmd : s.nextEvent.isCommand = false := by rw [hread]; rfl
    grind
  · grind

/-! ### The end state -/

/-- The end state sees neither the ports' queues nor the model's records. -/
theorem endState_congr (any : Word) (s : State) (offered : List Token) (answers : List Answer) (agenda : List Event)
    (reads : List Word) (sawIdle : Bool) (draws : Nat) :
    State.endState any { s with
      ports := { s.ports with offered := offered, answers := answers }
      agenda := agenda
      reads := reads
      sawIdle := sawIdle
      draws := draws } = s.endState any := rfl

/-- On an idle block, an event that is neither a host write nor a reset leaves the end state. -/
theorem Turn.keeps_endState {e : Event} {s t : State} (h : Turn e s t) (hb : s.busy = false) (hr : ¬ e.resets)
    (hw : ∀ n off v, e ≠ .host (.write n off v)) (any : Word) : t.endState any = s.endState any := by
  cases h with
  | reset h' => exact absurd h' hr
  | idle _ => rfl
  | badWord hb' _ _ => exact absurd (hb'.symm.trans hb) nofun
  | runs hb' _ _ _ _ => exact absurd (hb'.symm.trans hb) nofun
  | drops off v _ _ _ => exact absurd rfl (hw 32 off v)
  | accepts v _ _ _ => exact absurd rfl (hw 32 0x0004#14 v)
  | stores off v _ _ _ => exact absurd rfl (hw 32 off v)
  | reads _ _ => exact endState_congr any s _ _ _ _ _ _
  | offers _ => exact endState_congr any s _ _ _ _ _ _
  | answers _ => exact endState_congr any s _ _ _ _ _ _

/-- Settles O57: by what a step does to the record of entry 14, and by the turns that leave the end state. -/
theorem runEndsWhenTheHostSeesIt : Obligations.RunEndsWhenTheHostSeesIt := by
  intro s t hs hx
  have hend := hs.ended_iff hx
  refine ⟨fun hb => Bool.eq_false_iff.2 fun he => ?_, fun he => hend.2 (.inl he), fun he => ?_, fun he hr hw any => ?_⟩
  · exact absurd (hb.symm.trans (hs.idle_of_ended he)) nofun
  · rw [hend, he, State.noCommandToCome_iff]
    exact or_iff_right nofun
  · calc t.endState any
      _ = (s.setAgenda s.agenda.tail).endState any := (hs.turn hx).keeps_endState (hs.idle_of_ended he) hr hw any
      _ = s.endState any := endState_congr any s _ _ _ _ _ _

end Sys2Proof.Machine
end
